-- ==== Sys2Proof/Word.lean ====
section
/-! DEFINITION. The word types of CRCF-1: every value the block moves is an unsigned byte, half-word or 32-bit port word (00_scope R10, 20_memory R56). -/

namespace Sys2Proof

/-- A byte: a unit id, a PDU byte, a selector, a result code (R56, R72). -/
abbrev Byte := BitVec 8

/-- A 16-bit value: a CRC, a transaction id, a length field, an index, a response value (R56, R72, R74). -/
abbrev Half := BitVec 16

/-- A 32-bit command or response word of the host port (R7, R53, R70, R74). -/
abbrev Word := BitVec 32

end Sys2Proof
end

