-- ==== Sys2Proof/Config.lean ====
section
/-! DEFINITION. What CRCF-1 fixes: the capacities of 00_scope R7, each defined from `pduMax` and `pduMin` by the formula R7 gives, and the one open parameter. -/

namespace Sys2Proof

/-- `PDU_MAX` (R7): the largest PDU, 253 bytes. CRCF-1 fixes it (log entry 10). -/
def Config.pduMax : Nat := 253

/-- `PDU_MIN` (R7): a PDU holds at least its function code. -/
def Config.pduMin : Nat := 1

/-- `RTU_FRAME_MAX` (R7): 1 + `PDU_MAX` + 2, 256 bytes. -/
def Config.rtuFrameMax : Nat := 1 + Config.pduMax + 2

/-- `RTU_FRAME_MIN` (R7): 1 + `PDU_MIN` + 2, 4 bytes. -/
def Config.rtuFrameMin : Nat := 1 + Config.pduMin + 2

/-- The MBAP header's length in bytes (R14, R83). -/
def Config.mbapHeaderLen : Nat := 7

/-- `MBAP_FRAME_MAX` (R7): 7 + `PDU_MAX`, 260 bytes. -/
def Config.mbapFrameMax : Nat := Config.mbapHeaderLen + Config.pduMax

/-- `MBAP_LEN_MIN` (R7): 1 + `PDU_MIN`, the smallest valid length field. -/
def Config.mbapLenMin : Nat := 1 + Config.pduMin

/-- `MBAP_LEN_MAX` (R7): 1 + `PDU_MAX`, the largest valid length field. -/
def Config.mbapLenMax : Nat := 1 + Config.pduMax

/-- The CRC generator in reflected form (R6): 0xA001. -/
def Config.crcGenerator : Half := 0xA001#16

/-- The CRC register's initial value (R6): 0xFFFF. -/
def Config.crcInit : Half := 0xFFFF#16

/-- `CRCF_BASE` (R58, D30): where the block sits in a platform's address map. An open parameter, with no body, that no behaviour of the block depends on: nothing in the model reads it (log entry 9). -/
opaque Config.crcfBase : Nat

end Sys2Proof
end

