-- ==== Sys2Proof/Syntax.lean ====
section
/-! DEFINITION. The commands of CRCF-1, one constructor per row of the opcode map (30_encoding R75), their formats (R71), and the assembler's abstract syntax (R78, R79). -/

namespace Sys2Proof

/-- A command with its operands (R72): `b`, `u`, `s` are bytes, `h`, `i` are 16-bit numbers, each taken exactly as written. -/
inductive Instr
  /-- NOP (R206). -/
  | nop
  /-- CRC_INIT (R102). -/
  | crcInit
  /-- CRC_BYTE b (R103). -/
  | crcByte (b : Byte)
  /-- RTX_BEGIN u (R120). -/
  | rtxBegin (u : Byte)
  /-- RTX_BYTE b (R121). -/
  | rtxByte (b : Byte)
  /-- RTX_END (R122). -/
  | rtxEnd
  /-- RRX_BEGIN u (R141). -/
  | rrxBegin (u : Byte)
  /-- RRX_BYTE b (R145). -/
  | rrxByte (b : Byte)
  /-- RRX_END (R146). -/
  | rrxEnd
  /-- MTX_BEGIN u, h (R160): unit first, then the transaction id. -/
  | mtxBegin (u : Byte) (h : Half)
  /-- MTX_BYTE b (R161). -/
  | mtxByte (b : Byte)
  /-- MTX_END (R162). -/
  | mtxEnd
  /-- MRX_BEGIN (R180). -/
  | mrxBegin
  /-- MRX_BYTE b (R181). -/
  | mrxByte (b : Byte)
  /-- RD_REG s (R201). -/
  | rdReg (s : Byte)
  /-- RD_RTXB i (R202). -/
  | rdRtxb (i : Half)
  /-- RD_RRXB i (R203). -/
  | rdRrxb (i : Half)
  /-- RD_MTXB i (R204). -/
  | rdMtxb (i : Half)
  /-- RD_MRXB i (R205). -/
  | rdMrxb (i : Half)
  deriving DecidableEq, Repr

/-- The 19 mnemonics of the opcode map (R75). -/
inductive Mnemonic
  | nop | crcInit | crcByte
  | rtxBegin | rtxByte | rtxEnd
  | rrxBegin | rrxByte | rrxEnd
  | mtxBegin | mtxByte | mtxEnd
  | mrxBegin | mrxByte
  | rdReg | rdRtxb | rdRrxb | rdMtxb | rdMrxb
  deriving DecidableEq, Repr

/-- The six operand formats (R71): none, byte, unit, unit and half-word, index, selector. -/
inductive Format
  | n | b | u | uh | i | s
  deriving DecidableEq, Repr

/-- The mnemonic of a command. -/
def Instr.mnemonic : Instr → Mnemonic
  | .nop => .nop
  | .crcInit => .crcInit
  | .crcByte _ => .crcByte
  | .rtxBegin _ => .rtxBegin
  | .rtxByte _ => .rtxByte
  | .rtxEnd => .rtxEnd
  | .rrxBegin _ => .rrxBegin
  | .rrxByte _ => .rrxByte
  | .rrxEnd => .rrxEnd
  | .mtxBegin _ _ => .mtxBegin
  | .mtxByte _ => .mtxByte
  | .mtxEnd => .mtxEnd
  | .mrxBegin => .mrxBegin
  | .mrxByte _ => .mrxByte
  | .rdReg _ => .rdReg
  | .rdRtxb _ => .rdRtxb
  | .rdRrxb _ => .rdRrxb
  | .rdMtxb _ => .rdMtxb
  | .rdMrxb _ => .rdMrxb

/-- The format column of R75. -/
def Mnemonic.format : Mnemonic → Format
  | .nop | .crcInit | .rtxEnd | .rrxEnd | .mtxEnd | .mrxBegin => .n
  | .crcByte | .rtxByte | .rrxByte | .mtxByte | .mrxByte => .b
  | .rtxBegin | .rrxBegin => .u
  | .mtxBegin => .uh
  | .rdRtxb | .rdRrxb | .rdMtxb | .rdMrxb => .i
  | .rdReg => .s

/-- The register names an RD_REG operand may be written with (R78), those of the selector map R28. -/
inductive RegName
  | status | crc
  | rtxLen
  | rrxLen | rrxUnit | rrxResult | rrxPdulen | rrxFcrc
  | mtxLen | mtxTid | mtxUnit | mtxPlen
  | mrxTid | mrxProto | mrxLenf | mrxUnit | mrxResult | mrxHcnt | mrxPcnt
  deriving DecidableEq, Repr

/-- An operand as written in assembler text (R78): a number, not yet known to be in range, or a register name. -/
inductive AsmOperand
  | num (n : Nat)
  | reg (r : RegName)
  deriving DecidableEq, Repr

/-- One assembler command line: a mnemonic and its operands in the order written (R78). -/
structure AsmLine where
  mnemonic : Mnemonic
  operands : List AsmOperand
  deriving DecidableEq, Repr

/-- A statement of assembler text: a command line, or a pseudo-command (R79). The lists are the numbers as written. -/
inductive AsmStmt
  | line (l : AsmLine)
  /-- `CRC_BLOCK b0, ..., bn-1`. -/
  | crcBlock (bs : List Nat)
  /-- `RTX_FRAME u, p0, ..., pn-1`. -/
  | rtxFrame (u : Nat) (p : List Nat)
  /-- `RRX_FRAME u, f0, ..., fm-1`. -/
  | rrxFrame (u : Nat) (f : List Nat)
  /-- `MTX_FRAME u, h, p0, ..., pn-1`. -/
  | mtxFrame (u h : Nat) (p : List Nat)
  /-- `MRX_FEED f0, ..., fm-1`. -/
  | mrxFeed (f : List Nat)
  deriving DecidableEq, Repr

/-- The assembler line that writes a command (R78), its operands as numbers, unit first. -/
def Instr.toAsm (i : Instr) : AsmLine :=
  ⟨i.mnemonic,
    match i with
    | .nop | .crcInit | .rtxEnd | .rrxEnd | .mtxEnd | .mrxBegin => []
    | .crcByte b | .rtxByte b | .rrxByte b | .mtxByte b | .mrxByte b => [.num b.toNat]
    | .rtxBegin u | .rrxBegin u => [.num u.toNat]
    | .mtxBegin u h => [.num u.toNat, .num h.toNat]
    | .rdReg s => [.num s.toNat]
    | .rdRtxb i | .rdRrxb i | .rdMtxb i | .rdMrxb i => [.num i.toNat]⟩

end Sys2Proof
end

