-- ==== Sys2Proof/WellFormed.lean ====
section
/-! DEFINITION. When an assembler line or a command is well formed (30_encoding R78): its operands are as many as its format takes and each is in its range. "An operand out of its range is an assembly error, not a command." -/

namespace Sys2Proof

/-- A byte operand `b`: 0 to 255 (R78). -/
def AsmOperand.isByte : AsmOperand → Bool
  | .num n => n < 256
  | .reg _ => false

/-- A unit operand `u`: 8 bits (R72, R78). -/
def AsmOperand.isUnit : AsmOperand → Bool
  | .num n => n < 256
  | .reg _ => false

/-- A 16-bit operand, `h` or `i`: 0 to 65535 (R72, R78). -/
def AsmOperand.isHalf : AsmOperand → Bool
  | .num n => n < 65536
  | .reg _ => false

/-- A selector operand `s`: a number of 8 bits or a register name (R78). -/
def AsmOperand.isSelector : AsmOperand → Bool
  | .num n => n < 256
  | .reg _ => true

/-- The operands a format takes, how many and which (R78). -/
def Format.accepts : Format → List AsmOperand → Bool
  | .n, [] => true
  | .b, [x] => x.isByte
  | .u, [x] => x.isUnit
  | .uh, [x, y] => x.isUnit && y.isHalf
  | .i, [x] => x.isHalf
  | .s, [x] => x.isSelector
  | _, _ => false

/-- A command line is well formed when its mnemonic's format accepts its operands (R78). -/
def AsmLine.wellFormed (l : AsmLine) : Bool :=
  l.mnemonic.format.accepts l.operands

/-- A statement is well formed when every number it writes is in the range of the command it expands to (R78, R79). -/
def AsmStmt.wellFormed : AsmStmt → Bool
  | .line l => l.wellFormed
  | .crcBlock bs => bs.all (· < 256)
  | .rtxFrame u p => decide (u < 256) && p.all (· < 256)
  | .rrxFrame u f => decide (u < 256) && f.all (· < 256)
  | .mtxFrame u h p => decide (u < 256) && decide (h < 65536) && p.all (· < 256)
  | .mrxFeed f => f.all (· < 256)

/-- A command is well formed when the line that writes it is. The operand types carry the ranges of R72, so every `Instr` is (`Laws.instr_wellFormed`). -/
def Instr.wellFormed (i : Instr) : Bool :=
  i.toAsm.wellFormed

end Sys2Proof
end

