-- ==== Sys2Proof/Decode.lean ====
section
/-! DEFINITION. The decoder (30_encoding R70 to R73, R75, R76), total on all 2^32 words, and after it the encoder. Both are written from the spec's encoding tables: the decoder from the opcode map's match and mask columns, the encoder from the field layout of R70. -/

namespace Sys2Proof

/-- `OP`, bits [31:24] of a command word (R70). -/
def opField (w : Word) : Byte := w.extractLsb' 24 8

/-- `U`, bits [23:16] of a command word (R70). -/
def uField (w : Word) : Byte := w.extractLsb' 16 8

/-- `D`, bits [15:0] of a command word (R70). -/
def dField (w : Word) : Half := w.extractLsb' 0 16

/-- One row of the opcode map (R75): its `OP`, its mnemonic and its match and mask columns. -/
structure OpcodeRow where
  op : Byte
  mnemonic : Mnemonic
  pattern : Word
  mask : Word
  deriving DecidableEq, Repr

/-- The opcode map's rows below 0x80 (R75): control, CRC, RTU and MBAP commands. -/
def opcodeRowsCommands : List OpcodeRow :=
  [⟨0x00#8, .nop, 0x00000000#32, 0xFFFFFFFF#32⟩,
   ⟨0x01#8, .crcInit, 0x01000000#32, 0xFFFFFFFF#32⟩,
   ⟨0x02#8, .crcByte, 0x02000000#32, 0xFFFFFF00#32⟩,
   ⟨0x10#8, .rtxBegin, 0x10000000#32, 0xFF00FFFF#32⟩,
   ⟨0x11#8, .rtxByte, 0x11000000#32, 0xFFFFFF00#32⟩,
   ⟨0x12#8, .rtxEnd, 0x12000000#32, 0xFFFFFFFF#32⟩,
   ⟨0x18#8, .rrxBegin, 0x18000000#32, 0xFF00FFFF#32⟩,
   ⟨0x19#8, .rrxByte, 0x19000000#32, 0xFFFFFF00#32⟩,
   ⟨0x1A#8, .rrxEnd, 0x1A000000#32, 0xFFFFFFFF#32⟩,
   ⟨0x20#8, .mtxBegin, 0x20000000#32, 0xFF000000#32⟩,
   ⟨0x21#8, .mtxByte, 0x21000000#32, 0xFFFFFF00#32⟩,
   ⟨0x22#8, .mtxEnd, 0x22000000#32, 0xFFFFFFFF#32⟩,
   ⟨0x28#8, .mrxBegin, 0x28000000#32, 0xFFFFFFFF#32⟩,
   ⟨0x29#8, .mrxByte, 0x29000000#32, 0xFFFFFF00#32⟩]

/-- The opcode map's rows from 0x80 on (R75): the reads. -/
def opcodeRowsReads : List OpcodeRow :=
  [⟨0x80#8, .rdReg, 0x80000000#32, 0xFFFFFF00#32⟩,
   ⟨0x81#8, .rdRtxb, 0x81000000#32, 0xFFFF0000#32⟩,
   ⟨0x82#8, .rdRrxb, 0x82000000#32, 0xFFFF0000#32⟩,
   ⟨0x83#8, .rdMtxb, 0x83000000#32, 0xFFFF0000#32⟩,
   ⟨0x84#8, .rdMrxb, 0x84000000#32, 0xFFFF0000#32⟩]

/-- The complete opcode map (R75). -/
def opcodeTable : List OpcodeRow := opcodeRowsCommands ++ opcodeRowsReads

/-- The mask of a format (R71): `OP` and every bit the format marks "0". -/
def Format.mask : Format → Word
  | .n => 0xFFFFFFFF#32
  | .b => 0xFFFFFF00#32
  | .u => 0xFF00FFFF#32
  | .uh => 0xFF000000#32
  | .i => 0xFFFF0000#32
  | .s => 0xFFFFFF00#32

/-- The command of a mnemonic with its operands taken from the fields `U` and `D` (R72): a byte or selector is `D[7:0]`, an index or transaction id is `D`, a unit is `U`. -/
def Mnemonic.build (u : Byte) (d : Half) : Mnemonic → Instr
  | .nop => .nop
  | .crcInit => .crcInit
  | .crcByte => .crcByte (d.extractLsb' 0 8)
  | .rtxBegin => .rtxBegin u
  | .rtxByte => .rtxByte (d.extractLsb' 0 8)
  | .rtxEnd => .rtxEnd
  | .rrxBegin => .rrxBegin u
  | .rrxByte => .rrxByte (d.extractLsb' 0 8)
  | .rrxEnd => .rrxEnd
  | .mtxBegin => .mtxBegin u d
  | .mtxByte => .mtxByte (d.extractLsb' 0 8)
  | .mtxEnd => .mtxEnd
  | .mrxBegin => .mrxBegin
  | .mrxByte => .mrxByte (d.extractLsb' 0 8)
  | .rdReg => .rdReg (d.extractLsb' 0 8)
  | .rdRtxb => .rdRtxb d
  | .rdRrxb => .rdRrxb d
  | .rdMtxb => .rdMtxb d
  | .rdMrxb => .rdMrxb d

/-- The row of the opcode map whose `OP` equals `w[31:24]`, if there is one (R73). -/
def findRow (w : Word) : Option OpcodeRow :=
  opcodeTable.find? (fun row => row.op == opField w)

/-- Decoding (R73). `none` is an illegal word: no row has its `OP`, or a must-be-zero bit is set. -/
def decode (w : Word) : Option Instr :=
  match findRow w with
  | none => none
  | some row =>
    if w &&& row.mask = row.pattern then some (row.mnemonic.build (uField w) (dField w)) else none

/-- A command word from its three fields (R70). -/
def commandWord (op u : Byte) (d : Half) : Word := op ++ u ++ d

/-- A byte or selector operand in `D`: `D[15:8]` is 0 (R71, formats B and S). -/
def byteInD (b : Byte) : Half := 0x00#8 ++ b

/-- The word of a command (R70, R71, R75). -/
def encode : Instr → Word
  | .nop => commandWord 0x00#8 0#8 0#16
  | .crcInit => commandWord 0x01#8 0#8 0#16
  | .crcByte b => commandWord 0x02#8 0#8 (byteInD b)
  | .rtxBegin u => commandWord 0x10#8 u 0#16
  | .rtxByte b => commandWord 0x11#8 0#8 (byteInD b)
  | .rtxEnd => commandWord 0x12#8 0#8 0#16
  | .rrxBegin u => commandWord 0x18#8 u 0#16
  | .rrxByte b => commandWord 0x19#8 0#8 (byteInD b)
  | .rrxEnd => commandWord 0x1A#8 0#8 0#16
  | .mtxBegin u h => commandWord 0x20#8 u h
  | .mtxByte b => commandWord 0x21#8 0#8 (byteInD b)
  | .mtxEnd => commandWord 0x22#8 0#8 0#16
  | .mrxBegin => commandWord 0x28#8 0#8 0#16
  | .mrxByte b => commandWord 0x29#8 0#8 (byteInD b)
  | .rdReg s => commandWord 0x80#8 0#8 (byteInD s)
  | .rdRtxb i => commandWord 0x81#8 0#8 i
  | .rdRrxb i => commandWord 0x82#8 0#8 i
  | .rdMtxb i => commandWord 0x83#8 0#8 i
  | .rdMrxb i => commandWord 0x84#8 0#8 i

/-- The 32-bit word whose bits are those of `w` below `nbits`, the bits above being 0 (R53: a command word is a number with bit 0 least significant, so no byte order enters). -/
def tableWord (nbits w : Nat) : Word := BitVec.ofNat 32 (w % 2 ^ nbits)

/-- The command the decoder reads from an opcode-table word of `nbits` bits. Every command is exactly one 32-bit word (R77), so a longer one is none (log entry 14). -/
def decodeTableWord (nbits w : Nat) : Option Instr :=
  if nbits ≤ 32 then decode (tableWord nbits w) else none

end Sys2Proof
end

