-- ==== Sys2Proof/Machine/State.lean ====
section
/-! DEFINITION. The state of CRCF-1 as plain data: the spec's `S` (10_state R21) as `Block`, one record per unit, and around it the two sides of the command port. -/

namespace Sys2Proof.Machine

/-- The result codes of 60_exceptions R300. `none` is NONE = 0xFF, which no command returns: it is what RR_RES and MR_RES hold before any result. No other code is ever produced, so the type has no other value (log entry 12). -/
inductive ResultCode
  | ok
  | illegal
  | badState
  | overflow
  | range
  | empty
  | rtuNoReply
  | rtuOverrun
  | rtuShort
  | rtuAddrMismatch
  | rtuCrcMismatch
  | mbapBadProtocol
  | mbapBadLength
  | none
  deriving DecidableEq, Repr

/-- RT_ST, RR_ST and MT_ST (R21, R23): IDLE, OPEN (`opened`) and DONE. -/
inductive FrameSt
  | idle
  | opened
  | done
  deriving DecidableEq, Repr

/-- MR_ST (R21, R23): IDLE, HEADER, PDU, DONE and ERROR. -/
inductive ParseSt
  | idle
  | header
  | pdu
  | done
  | error
  deriving DecidableEq, Repr

/-- The RTX unit (R21): RT_ST and RT_BUF (R30). -/
structure Rtx where
  st : FrameSt
  buf : List Byte
  deriving DecidableEq, Repr

/-- The RRX unit (R21): RR_ST, RR_BUF (R31), RR_UNIT, RR_RES, RR_OVF, RR_EXC (R37), RR_PLEN and RR_FCRC (R24). -/
structure Rrx where
  st : FrameSt
  buf : List Byte
  unit : Byte
  res : ResultCode
  ovf : Bool
  exc : Bool
  plen : BitVec 9
  fcrc : Half
  deriving DecidableEq, Repr

/-- The MTX unit (R21): MT_ST, MT_TID, MT_UNIT (R24), MT_PDU (R32) and MT_FRAME (R33). -/
structure Mtx where
  st : FrameSt
  tid : Half
  unit : Byte
  pdu : List Byte
  frame : List Byte
  deriving DecidableEq, Repr

/-- The MRX unit (R21): MR_ST, MR_HDR (R34), MR_TID, MR_PROTO, MR_LENF, MR_UNIT, MR_RES (R24) and MR_PDU (R35). -/
structure Mrx where
  st : ParseSt
  hdr : List Byte
  tid : Half
  proto : Half
  lenf : Half
  unit : Byte
  res : ResultCode
  pdu : List Byte
  deriving DecidableEq, Repr

/-- The spec's complete state `S` (R21): the CRC register (R22) and the four units. -/
structure Block where
  crc : Half
  rtx : Rtx
  rrx : Rrx
  mtx : Mtx
  mrx : Mrx
  deriving DecidableEq, Repr

/-- What the host may present to the block (R9, R400, R313). The last two have no meaning in the spec and are refused by name (93_implementation_defined part 2). -/
inductive HostInput
  /-- One command word written to the command port (R50). -/
  | command (w : Word)
  /-- The reset input, applied between commands (R400). -/
  | reset
  /-- A command whose issue overlaps the reset input (R400). -/
  | commandDuringReset (w : Word)
  /-- Two or more commands presented at the same time on the one port (R313, D33). -/
  | concurrentCommands (first second : Word) (others : List Word)
  deriving DecidableEq, Repr

/-- The machine: the block, what the host will present next, and the response word the host last received. `pending` and `resp` are the model's two sides of the command port (log entries 1 and 2). -/
structure State where
  blk : Block
  pending : List HostInput
  resp : Option Word
  deriving DecidableEq, Repr

/-- Nothing faults: the block has no traps, and every failure is a result code in the response (R304). So nobody raises a fault and the type has no constructor: safe. -/
inductive Fault : Type
  deriving DecidableEq, Repr

/-- Why a step is refused. -/
inductive Refusal
  /-- Raised by an arm of exec whose command had no meaning yet; no arm raises it now. Safe. -/
  | notModelled (mnemonic : String)
  /-- Raised by the step on a command that overlaps reset: "A model has no meaning for a command that overlaps reset, and refuses it" (R400). Safe: nothing is claimed of such a run. -/
  | commandDuringReset
  /-- Raised by the step on commands presented at the same time: "Simultaneous commands on the port are refused" (D33, R313). Safe: no interleaving is chosen. -/
  | concurrentCommands
  deriving DecidableEq, Repr

/-- The RTX unit after reset (R39). -/
def Rtx.reset : Rtx := ⟨.idle, []⟩

/-- The RRX unit after reset (R39). -/
def Rrx.reset : Rrx := ⟨.idle, [], 0#8, .none, false, false, 0#9, 0#16⟩

/-- The MTX unit after reset (R39). -/
def Mtx.reset : Mtx := ⟨.idle, 0#16, 0#8, [], []⟩

/-- The MRX unit after reset (R39). -/
def Mrx.reset : Mrx := ⟨.idle, [], 0#16, 0#16, 0#16, 0#8, .none, []⟩

/-- Every element at its reset value (R39). -/
def Block.reset : Block := ⟨0xFFFF#16, .reset, .reset, .reset, .reset⟩

/-- The machine right after reset (R39, R400): nothing pending and no response yet (log entries 1 and 2). -/
def State.reset : State := ⟨.reset, [], none⟩

end Sys2Proof.Machine
end

