-- ==== Sys2Proof/Machine/Ops.lean ====
section
/-! DEFINITION. The shared operations: the byte splits of 00_scope R11, the CRC functions (40_crc R100, R101), the frame layouts (R123, R163), the writes to a unit's state, and the two ways a command ends, `respond` and `raise` (R12). There is no trap to take: `raise` is what the block has in its place (R304). -/

namespace Sys2Proof.Machine

/-- The 8-bit code of a result (R300). -/
def ResultCode.code : ResultCode → Byte
  | .ok => 0x00#8
  | .illegal => 0x01#8
  | .badState => 0x02#8
  | .overflow => 0x03#8
  | .range => 0x04#8
  | .empty => 0x05#8
  | .rtuNoReply => 0x10#8
  | .rtuOverrun => 0x11#8
  | .rtuShort => 0x12#8
  | .rtuAddrMismatch => 0x13#8
  | .rtuCrcMismatch => 0x14#8
  | .mbapBadProtocol => 0x20#8
  | .mbapBadLength => 0x21#8
  | .none => 0xFF#8

/-- The numeric code of a frame state (R21, R27). -/
def FrameSt.code : FrameSt → Half
  | .idle => 0#16
  | .opened => 1#16
  | .done => 2#16

/-- The numeric code of a parse state (R21, R27). -/
def ParseSt.code : ParseSt → Half
  | .idle => 0#16
  | .header => 1#16
  | .pdu => 2#16
  | .done => 3#16
  | .error => 4#16

/-- `hi8(h) = h[15:8]` (R11). -/
def hi8 (h : Half) : Byte := h.extractLsb' 8 8

/-- `lo8(h) = h[7:0]` (R11). -/
def lo8 (h : Half) : Byte := h.extractLsb' 0 8

/-- `be16(a, b) = (a << 8) | b` (R11): the first byte is the high one. -/
def be16 (a b : Byte) : Half := a ++ b

/-- `le16(a, b) = (b << 8) | a` (R11): the first byte is the low one. -/
def le16 (a b : Byte) : Half := b ++ a

/-- A length as a 16-bit value. -/
def lenHalf (l : List Byte) : Half := BitVec.ofNat 16 l.length

/-- One shift of the CRC register (R100): right by one, and XOR the generator if the bit shifted out is 1. The procedure is general knowledge by the spec's own mark (log entry 5, UNVERIFIED). -/
def crcShift (c : Half) : Half :=
  if c.getLsbD 0 then (c >>> 1) ^^^ Config.crcGenerator else c >>> 1

/-- `n` shifts of the CRC register (R100 repeats the shift 8 times). -/
def crcShifts : Nat → Half → Half
  | 0, c => c
  | n + 1, c => crcShifts n (crcShift c)

/-- `crc_step(c, b)` (R100): XOR the byte into the register, then 8 shifts. -/
def crcStep (c : Half) (b : Byte) : Half :=
  crcShifts 8 (c ^^^ b.setWidth 16)

/-- `crc16(B)` (R101): `crc_step` folded over `B` from 0xFFFF, with no final XOR. -/
def crc16 (bs : List Byte) : Half :=
  bs.foldl crcStep Config.crcInit

/-- The two CRC bytes of an RTU frame, low byte first (R80, R122). -/
def crcTrailer (c : Half) : List Byte := [lo8 c, hi8 c]

/-- `rtu_frame(u, p)` (R123). -/
def rtuFrame (u : Byte) (p : List Byte) : List Byte :=
  (u :: p) ++ crcTrailer (crc16 (u :: p))

/-- The seven header bytes of an MBAP frame whose length field is `len` (R83): the 16-bit fields high byte first, the protocol id 0. -/
def mbapHeader (h : Half) (len : Half) (u : Byte) : List Byte :=
  [hi8 h, lo8 h, 0x00#8, 0x00#8, hi8 len, lo8 len, u]

/-- `mbap_frame(h, u, p)` (R163): `length` is 1 + `len(p)` (R82). -/
def mbapFrame (h : Half) (u : Byte) (p : List Byte) : List Byte :=
  mbapHeader h (BitVec.ofNat 16 (1 + p.length)) u ++ p

/-- Byte `k` of a buffer whose length is known to be above `k` (R11, `B[k]`). -/
def byteAt (l : List Byte) (k : Nat) : Byte := l.getD k 0#8

/-- `S.CRC <- c`. -/
def State.withCrc (s : State) (c : Half) : State :=
  { s with blk := { s.blk with crc := c } }

/-- Writes the RTX unit's elements. -/
def State.withRtx (s : State) (u : Rtx) : State :=
  { s with blk := { s.blk with rtx := u } }

/-- Writes the RRX unit's elements. -/
def State.withRrx (s : State) (u : Rrx) : State :=
  { s with blk := { s.blk with rrx := u } }

/-- Writes the MTX unit's elements. -/
def State.withMtx (s : State) (u : Mtx) : State :=
  { s with blk := { s.blk with mtx := u } }

/-- Writes the MRX unit's elements. -/
def State.withMrx (s : State) (u : Mrx) : State :=
  { s with blk := { s.blk with mrx := u } }

/-- The response word (R74): the result code in [31:24], zero in [23:16], the value in [15:0]. -/
def responseWord (r : ResultCode) (v : Half) : Word := r.code ++ 0x00#8 ++ v

/-- `respond(r, v)` (R12): the command ends with result `r` and value `v` in the response word. -/
def respond (s : State) (r : ResultCode) (v : Half) : Host.Outcome State Fault Refusal :=
  .next { s with resp := some (responseWord r v) }

/-- `raise R` (R12): `respond(R, 0)` with no state change of its own. -/
def raise (s : State) (r : ResultCode) : Host.Outcome State Fault Refusal :=
  respond s r 0#16

/-- An illegal word (R73, R76): `respond(ILLEGAL, 0)`, and no state changes. -/
def illegalWord (s : State) : Host.Outcome State Fault Refusal :=
  raise s .illegal

/-- The reset input (R400): every element of the block takes its reset value (R39) in one step. Inputs still pending stay, and the port holds no response (log entry 3). -/
def applyReset (s : State) : Host.Outcome State Fault Refusal :=
  .next { s with blk := .reset, resp := none }

/-- Nothing presented: the block takes no step on its own (R9), so nothing changes (log entry 4). -/
def idleStep (s : State) : Host.Outcome State Fault Refusal :=
  .next s

end Sys2Proof.Machine
end

