-- ==== Sys2Proof/Machine/Flags.lean ====
section
/-! DEFINITION. The flag computations: the block's two status flags (10_state R37) and the STATUS view (R27). There are no condition codes. -/

namespace Sys2Proof.Machine

/-- A flag as a 16-bit number, 0 or 1. -/
def flagHalf (f : Bool) : Half := if f then 1#16 else 0#16

/-- RR_EXC's new value (R37, R146): bit 7 of the PDU's first byte, the mark of an exception PDU. -/
def isExceptionCode (fc : Byte) : Bool := fc.getLsbD 7

/-- STATUS (R27): the unit states and the two flags, packed; bits [15:11] are 0. -/
def statusWord (b : Block) : Half :=
  b.rtx.st.code ||| (b.rrx.st.code <<< 2) ||| (b.mtx.st.code <<< 4) ||| (b.mrx.st.code <<< 6)
    ||| (flagHalf b.rrx.ovf <<< 9) ||| (flagHalf b.rrx.exc <<< 10)

end Sys2Proof.Machine
end

