-- ==== Sys2Proof/Machine/Operands.lean ====
section
/-! DEFINITION. What the read operands reach: registers by selector (10_state R28) and buffer bytes by index (20_memory R50, 45_readback R202 to R205). Byte, unit and transaction-id operands are the fields themselves (30_encoding R72) and need no operation. -/

namespace Sys2Proof.Machine

/-- `REG(s)` (R28), each value zero-extended to 16 bits (R201); no value for the reserved selectors 0x13 to 0xFF. -/
def readReg (b : Block) (s : Byte) : Option Half :=
  match s.toNat with
  | 0x00 => some (statusWord b)
  | 0x01 => some b.crc
  | 0x02 => some (lenHalf b.rtx.buf)
  | 0x03 => some (lenHalf b.rrx.buf)
  | 0x04 => some (b.rrx.unit.setWidth 16)
  | 0x05 => some (b.rrx.res.code.setWidth 16)
  | 0x06 => some (b.rrx.plen.setWidth 16)
  | 0x07 => some b.rrx.fcrc
  | 0x08 => some (lenHalf b.mtx.frame)
  | 0x09 => some b.mtx.tid
  | 0x0A => some (b.mtx.unit.setWidth 16)
  | 0x0B => some (lenHalf b.mtx.pdu)
  | 0x0C => some b.mrx.tid
  | 0x0D => some b.mrx.proto
  | 0x0E => some b.mrx.lenf
  | 0x0F => some (b.mrx.unit.setWidth 16)
  | 0x10 => some (b.mrx.res.code.setWidth 16)
  | 0x11 => some (lenHalf b.mrx.hdr)
  | 0x12 => some (lenHalf b.mrx.pdu)
  | _ => none

/-- Byte `i` of a buffer window, zero-extended to 16 bits; no value at or past the buffer's length (R36, R50). -/
def readBuffer (buf : List Byte) (i : Half) : Option Half :=
  (buf[i.toNat]?).map (fun b => b.setWidth 16)

/-- A read command's end (R200): the datum, or RANGE with value 0 where there is none; no state changes. -/
def respondRead (s : State) (v : Option Half) : Host.Outcome State Fault Refusal :=
  match v with
  | some v => respond s .ok v
  | none => raise s .range

end Sys2Proof.Machine
end

