-- ==== Sys2Proof/Machine/Crc.lean ====
section
/-! DEFINITION. The CRC unit's commands (40_crc R102, R103). -/

namespace Sys2Proof.Machine

/-- CRC_INIT (R102). -/
def execCrcInit (s : State) : Host.Outcome State Fault Refusal :=
  respond (s.withCrc Config.crcInit) .ok Config.crcInit

/-- CRC_BYTE b (R103). -/
def execCrcByte (b : Byte) (s : State) : Host.Outcome State Fault Refusal :=
  respond (s.withCrc (crcStep s.blk.crc b)) .ok (crcStep s.blk.crc b)

end Sys2Proof.Machine
end

