-- ==== Sys2Proof/Machine/MbapDeframer.lean ====
section
/-! DEFINITION. The MBAP deframer's commands (44_mbap_deframer R180, R181). -/

namespace Sys2Proof.Machine

/-- MRX_BEGIN (R180): allowed in every state; throws away a parse that is partial, done or failed. The value is the new MR_ST. -/
def execMrxBegin (s : State) : Host.Outcome State Fault Refusal :=
  respond (s.withMrx ⟨.header, [], 0#16, 0#16, 0#16, 0#8, .none, []⟩) .ok ParseSt.header.code

/-- Every end of MRX_BYTE (R181): the value of the response is the new MR_ST. -/
def answerMrx (s : State) (u : Mrx) (r : ResultCode) : Host.Outcome State Fault Refusal :=
  respond (s.withMrx u) r u.st.code

/-- The header fields latched from the seven header bytes (R54, R181). -/
def latchHeader (u : Mrx) (h : List Byte) : Mrx :=
  { u with
    hdr := h
    tid := be16 (byteAt h 0) (byteAt h 1)
    proto := be16 (byteAt h 2) (byteAt h 3)
    lenf := be16 (byteAt h 4) (byteAt h 5)
    unit := byteAt h 6 }

/-- The checks made when the seventh header byte arrives (R181, R182): protocol id first, then length. -/
def checkHeader (s : State) (u : Mrx) : Host.Outcome State Fault Refusal :=
  if u.proto ≠ 0#16 then answerMrx s { u with st := .error, res := .mbapBadProtocol } .mbapBadProtocol
  else if u.lenf.toNat < Config.mbapLenMin ∨ Config.mbapLenMax < u.lenf.toNat then
    answerMrx s { u with st := .error, res := .mbapBadLength } .mbapBadLength
  else answerMrx s { u with st := .pdu } .ok

/-- MRX_BYTE in HEADER (R181). -/
def mrxHeaderByte (b : Byte) (s : State) : Host.Outcome State Fault Refusal :=
  let h := s.blk.mrx.hdr ++ [b]
  if h.length = Config.mbapHeaderLen then checkHeader s (latchHeader s.blk.mrx h)
  else answerMrx s { s.blk.mrx with hdr := h } .ok

/-- MRX_BYTE in PDU (R181): `len(MR_PDU) = MR_LENF - 1` is compared as numbers, so it never holds for a length field of 0 (log entry 8). -/
def mrxPduByte (b : Byte) (s : State) : Host.Outcome State Fault Refusal :=
  let p := s.blk.mrx.pdu ++ [b]
  if p.length + 1 = s.blk.mrx.lenf.toNat then
    answerMrx s { s.blk.mrx with pdu := p, st := .done, res := .ok } .ok
  else answerMrx s { s.blk.mrx with pdu := p } .ok

/-- MRX_BYTE b (R181): refused with MR_ST as its value in IDLE, DONE and ERROR, the byte not consumed. -/
def execMrxByte (b : Byte) (s : State) : Host.Outcome State Fault Refusal :=
  match s.blk.mrx.st with
  | .header => mrxHeaderByte b s
  | .pdu => mrxPduByte b s
  | .idle | .done | .error => respond s .badState s.blk.mrx.st.code

end Sys2Proof.Machine
end

