-- ==== Sys2Proof/Machine/MbapFramer.lean ====
section
/-! DEFINITION. The MBAP framer's commands (43_mbap_framer R160 to R162). -/

namespace Sys2Proof.Machine

/-- MTX_BEGIN u, h (R160): allowed in every state; any transaction id and unit is taken unchanged. -/
def execMtxBegin (u : Byte) (h : Half) (s : State) : Host.Outcome State Fault Refusal :=
  respond (s.withMtx ⟨.opened, h, u, [], []⟩) .ok 0#16

/-- MTX_BYTE b (R161): an overflow aborts the frame but keeps MT_TID and MT_UNIT. -/
def execMtxByte (b : Byte) (s : State) : Host.Outcome State Fault Refusal :=
  if s.blk.mtx.st ≠ .opened then raise s .badState
  else if s.blk.mtx.pdu.length = Config.pduMax then
    respond (s.withMtx { s.blk.mtx with st := .idle, pdu := [] }) .overflow 0#16
  else respond (s.withMtx { s.blk.mtx with pdu := s.blk.mtx.pdu ++ [b] }) .ok 0#16

/-- MTX_END (R162): the response carries the frame's length, 7 + n. -/
def execMtxEnd (s : State) : Host.Outcome State Fault Refusal :=
  if s.blk.mtx.st ≠ .opened then raise s .badState
  else if s.blk.mtx.pdu.length = 0 then
    respond (s.withMtx { s.blk.mtx with st := .idle }) .empty 0#16
  else
    respond
      (s.withMtx
        { s.blk.mtx with
          st := .done
          frame := mbapFrame s.blk.mtx.tid s.blk.mtx.unit s.blk.mtx.pdu })
      .ok (BitVec.ofNat 16 (Config.mbapHeaderLen + s.blk.mtx.pdu.length))

end Sys2Proof.Machine
end

