-- ==== Sys2Proof/Machine/Readback.lean ====
section
/-! DEFINITION. The readback and control commands (45_readback R200 to R206): none changes the block. -/

namespace Sys2Proof.Machine

/-- NOP (R206). -/
def execNop (s : State) : Host.Outcome State Fault Refusal :=
  respond s .ok 0#16

/-- RD_REG s (R201). -/
def execRdReg (sel : Byte) (s : State) : Host.Outcome State Fault Refusal :=
  respondRead s (readReg s.blk sel)

/-- RD_RTXB i (R202). -/
def execRdRtxb (i : Half) (s : State) : Host.Outcome State Fault Refusal :=
  respondRead s (readBuffer s.blk.rtx.buf i)

/-- RD_RRXB i (R203): the index is into the raw frame. -/
def execRdRrxb (i : Half) (s : State) : Host.Outcome State Fault Refusal :=
  respondRead s (readBuffer s.blk.rrx.buf i)

/-- RD_MTXB i (R204). -/
def execRdMtxb (i : Half) (s : State) : Host.Outcome State Fault Refusal :=
  respondRead s (readBuffer s.blk.mtx.frame i)

/-- RD_MRXB i (R205): the index is into the PDU. -/
def execRdMrxb (i : Half) (s : State) : Host.Outcome State Fault Refusal :=
  respondRead s (readBuffer s.blk.mrx.pdu i)

end Sys2Proof.Machine
end

