-- ==== Sys2Proof/Machine/RtuDeframer.lean ====
section
/-! DEFINITION. The RTU deframer's commands (42_rtu_deframer R141, R145, R146). -/

namespace Sys2Proof.Machine

/-- RRX_BEGIN u (R141): allowed in every state; throws away the previous frame and its latched results. -/
def execRrxBegin (u : Byte) (s : State) : Host.Outcome State Fault Refusal :=
  respond (s.withRrx ⟨.opened, [], u, .none, false, false, 0#9, 0#16⟩) .ok 0#16

/-- RRX_BYTE b (R145): when the buffer is full the byte is discarded and RR_OVF set, and reception goes on. -/
def execRrxByte (b : Byte) (s : State) : Host.Outcome State Fault Refusal :=
  if s.blk.rrx.st ≠ .opened then raise s .badState
  else if s.blk.rrx.buf.length = Config.rtuFrameMax then
    respond (s.withRrx { s.blk.rrx with ovf := true }) .overflow 0#16
  else respond (s.withRrx { s.blk.rrx with buf := s.blk.rrx.buf ++ [b] }) .ok 0#16

/-- The CRC of a received frame's bytes except the last two, `crc16(S.RR_BUF[0 .. n-3])` (R146). -/
def receivedCrc (buf : List Byte) : Half := crc16 (buf.take (buf.length - 2))

/-- The CRC field a received frame carries, `le16(S.RR_BUF[n-2], S.RR_BUF[n-1])` (R54, R146). -/
def carriedCrc (buf : List Byte) : Half :=
  le16 (byteAt buf (buf.length - 2)) (byteAt buf (buf.length - 1))

/-- Every write of RRX_END that follows a content check (R146): the frame is finished with result `r`, and the response carries `S.RR_PLEN`. -/
def finishRrx (s : State) (u : Rrx) (r : ResultCode) : Host.Outcome State Fault Refusal :=
  respond (s.withRrx { u with st := .done, res := r }) r (u.plen.setWidth 16)

/-- RRX_END on a frame of at least `RTU_FRAME_MIN` bytes with no overrun (R146): `S.CRC` and `S.RR_FCRC` are written before the address and CRC checks, and stand whatever those give. RR_EXC is written only on OK, as R146's pseudocode has it (log entry 7). -/
def checkFrame (s : State) : Host.Outcome State Fault Refusal :=
  let u := s.blk.rrx
  let c := receivedCrc u.buf
  let f := carriedCrc u.buf
  let s' := s.withCrc c
  if byteAt u.buf 0 ≠ u.unit then finishRrx s' { u with fcrc := f } .rtuAddrMismatch
  else if c ≠ f then finishRrx s' { u with fcrc := f } .rtuCrcMismatch
  else
    finishRrx s'
      { u with
        fcrc := f
        plen := BitVec.ofNat 9 (u.buf.length - 3)
        exc := isExceptionCode (byteAt u.buf 1) } .ok

/-- RRX_END (R146): the checks in order, the first that fails giving the result. -/
def execRrxEnd (s : State) : Host.Outcome State Fault Refusal :=
  if s.blk.rrx.st ≠ .opened then raise s .badState
  else if s.blk.rrx.buf.length = 0 then finishRrx s s.blk.rrx .rtuNoReply
  else if s.blk.rrx.ovf then finishRrx s s.blk.rrx .rtuOverrun
  else if s.blk.rrx.buf.length < Config.rtuFrameMin then finishRrx s s.blk.rrx .rtuShort
  else checkFrame s

end Sys2Proof.Machine
end

