-- ==== Sys2Proof/Machine/RtuFramer.lean ====
section
/-! DEFINITION. The RTU framer's commands (41_rtu_framer R120 to R122). -/

namespace Sys2Proof.Machine

/-- RTX_BEGIN u (R120): allowed in every state; throws away the frame being built or already built. -/
def execRtxBegin (u : Byte) (s : State) : Host.Outcome State Fault Refusal :=
  respond (s.withRtx ⟨.opened, [u]⟩) .ok 0#16

/-- The end of an RTX frame that is given up (R121, R122): IDLE with an empty buffer. -/
def abortRtx (s : State) : State := s.withRtx ⟨.idle, []⟩

/-- RTX_BYTE b (R121). -/
def execRtxByte (b : Byte) (s : State) : Host.Outcome State Fault Refusal :=
  if s.blk.rtx.st ≠ .opened then raise s .badState
  else if s.blk.rtx.buf.length = 1 + Config.pduMax then respond (abortRtx s) .overflow 0#16
  else respond (s.withRtx { s.blk.rtx with buf := s.blk.rtx.buf ++ [b] }) .ok 0#16

/-- RTX_END (R122): the CRC is over the buffer and does not depend on `S.CRC`, which it overwrites. -/
def execRtxEnd (s : State) : Host.Outcome State Fault Refusal :=
  if s.blk.rtx.st ≠ .opened then raise s .badState
  else if s.blk.rtx.buf.length < 2 then respond (abortRtx s) .empty 0#16
  else
    let c := crc16 s.blk.rtx.buf
    respond ((s.withCrc c).withRtx ⟨.done, s.blk.rtx.buf ++ crcTrailer c⟩) .ok c

end Sys2Proof.Machine
end

