-- ==== Sys2Proof/Machine/Dispatch.lean ====
section
/-! DEFINITION. One arm per command of the opcode map (30_encoding R75). -/

namespace Sys2Proof.Machine

def exec (i : Instr) (s : State) : Host.Outcome State Fault Refusal :=
  match i with
  | .nop => Sys2Proof.Machine.execNop s
  | .crcInit => Sys2Proof.Machine.execCrcInit s
  | .crcByte b => Sys2Proof.Machine.execCrcByte b s
  | .rtxBegin u => Sys2Proof.Machine.execRtxBegin u s
  | .rtxByte b => Sys2Proof.Machine.execRtxByte b s
  | .rtxEnd => Sys2Proof.Machine.execRtxEnd s
  | .rrxBegin u => Sys2Proof.Machine.execRrxBegin u s
  | .rrxByte b => Sys2Proof.Machine.execRrxByte b s
  | .rrxEnd => Sys2Proof.Machine.execRrxEnd s
  | .mtxBegin u h => Sys2Proof.Machine.execMtxBegin u h s
  | .mtxByte b => Sys2Proof.Machine.execMtxByte b s
  | .mtxEnd => Sys2Proof.Machine.execMtxEnd s
  | .mrxBegin => Sys2Proof.Machine.execMrxBegin s
  | .mrxByte b => Sys2Proof.Machine.execMrxByte b s
  | .rdReg sel => Sys2Proof.Machine.execRdReg sel s
  | .rdRtxb ix => Sys2Proof.Machine.execRdRtxb ix s
  | .rdRrxb ix => Sys2Proof.Machine.execRdRrxb ix s
  | .rdMtxb ix => Sys2Proof.Machine.execRdMtxb ix s
  | .rdMrxb ix => Sys2Proof.Machine.execRdMrxb ix s

end Sys2Proof.Machine
end

