-- ==== Sys2Proof/Machine/Port.lean ====
section
/-! DEFINITION. The command port: what the block does with what the host presents (00_scope R9, 20_memory R50 and R60, 30_encoding R73, 70_reset_and_hazards R400, 60_exceptions R313). -/

namespace Sys2Proof.Machine

/-- A command word on the port (R73): decoded before any state is read (R303), then executed; an illegal word is answered ILLEGAL. -/
def serveWord (w : Word) (s : State) : Host.Outcome State Fault Refusal :=
  match Sys2Proof.decode w with
  | some i => exec i s
  | none => illegalWord s

/-- What the host presents, taken from the port. -/
def serveInput (p : HostInput) (s : State) : Host.Outcome State Fault Refusal :=
  match p with
  | .command w => serveWord w s
  | .reset => applyReset s
  | .commandDuringReset _ => .refused .commandDuringReset
  | .concurrentCommands _ _ _ => .refused .concurrentCommands

/-- One step of the machine: the next host input, or nothing if none is pending (R9, R60). -/
def servePort (s : State) : Host.Outcome State Fault Refusal :=
  match s.pending with
  | [] => idleStep s
  | p :: rest => serveInput p { s with pending := rest }

/-- The host writes a command word to the port as the very next input (log entry 13). -/
def presentWord (s : State) (w : Word) : State :=
  { s with pending := .command w :: s.pending }

end Sys2Proof.Machine
end

