-- ==== Sys2Proof/Machine/Step.lean ====
section
/-! DEFINITION. The step of the machine, and how an instruction is put where the next step takes it. The block fetches nothing (20_memory R64): it takes the next word the host presents. -/

namespace Sys2Proof.Machine

/-- One step: the block executes the next host input completely (R9). -/
def step (s : State) : Host.Outcome State Fault Refusal := servePort s

/-- The state whose next step runs the opcode-table word `w` of `nbits` bits: the host presents it next (log entry 13). -/
def State.withFetchWord (s : State) (nbits w : Nat) : State :=
  presentWord s (Sys2Proof.tableWord nbits w)

end Sys2Proof.Machine
end

