-- ==== Sys2Proof/Machine/Assembler.lean ====
section
/-! DEFINITION. The assembler syntax of 30_encoding R78 and the pseudo-commands of R79: from characters to a statement, from a statement to command words. The block sees words only (D31). -/

namespace Sys2Proof.Machine

/-- The selector of a register name (R28). -/
def registerSelector : RegName → Nat
  | .status => 0x00
  | .crc => 0x01
  | .rtxLen => 0x02
  | .rrxLen => 0x03
  | .rrxUnit => 0x04
  | .rrxResult => 0x05
  | .rrxPdulen => 0x06
  | .rrxFcrc => 0x07
  | .mtxLen => 0x08
  | .mtxTid => 0x09
  | .mtxUnit => 0x0A
  | .mtxPlen => 0x0B
  | .mrxTid => 0x0C
  | .mrxProto => 0x0D
  | .mrxLenf => 0x0E
  | .mrxUnit => 0x0F
  | .mrxResult => 0x10
  | .mrxHcnt => 0x11
  | .mrxPcnt => 0x12

/-- The number an operand stands for: itself, or its register's selector (R28, R78). -/
def operandValue : AsmOperand → Nat
  | .num n => n
  | .reg r => registerSelector r

/-- The command a line assembles to; none if it is not well formed: "an operand out of its range is an assembly error, not a command" (R78). Operands are in order, unit first. -/
def assembleLine (l : AsmLine) : Option Instr :=
  if l.wellFormed then
    match l.operands.map operandValue with
    | [] => some (l.mnemonic.build 0#8 0#16)
    | [x] =>
      if l.mnemonic.format = .u then some (l.mnemonic.build (BitVec.ofNat 8 x) 0#16)
      else some (l.mnemonic.build 0#8 (BitVec.ofNat 16 x))
    | x :: y :: _ => some (l.mnemonic.build (BitVec.ofNat 8 x) (BitVec.ofNat 16 y))
  else none

/-- A number known to be a byte, as a byte. -/
def toByte (n : Nat) : Byte := BitVec.ofNat 8 n

/-- The commands a statement expands to (R79); none if a number is out of range (R78). -/
def assembleStmt (st : AsmStmt) : Option (List Instr) :=
  if st.wellFormed then
    match st with
    | .line l => (assembleLine l).map (fun i => [i])
    | .crcBlock bs => some (.crcInit :: bs.map (fun b => .crcByte (toByte b)))
    | .rtxFrame u p => some (.rtxBegin (toByte u) :: p.map (fun b => .rtxByte (toByte b)) ++ [.rtxEnd])
    | .rrxFrame u f => some (.rrxBegin (toByte u) :: f.map (fun b => .rrxByte (toByte b)) ++ [.rrxEnd])
    | .mtxFrame u h p =>
      some (.mtxBegin (toByte u) (BitVec.ofNat 16 h) :: p.map (fun b => .mtxByte (toByte b)) ++ [.mtxEnd])
    | .mrxFeed f => some (f.map (fun b => .mrxByte (toByte b)))
  else none

/-- The spelling of each mnemonic (R75). -/
def mnemonicSpellings : List (String × Mnemonic) :=
  [("NOP", .nop), ("CRC_INIT", .crcInit), ("CRC_BYTE", .crcByte), ("RTX_BEGIN", .rtxBegin),
   ("RTX_BYTE", .rtxByte), ("RTX_END", .rtxEnd), ("RRX_BEGIN", .rrxBegin), ("RRX_BYTE", .rrxByte),
   ("RRX_END", .rrxEnd), ("MTX_BEGIN", .mtxBegin), ("MTX_BYTE", .mtxByte), ("MTX_END", .mtxEnd),
   ("MRX_BEGIN", .mrxBegin), ("MRX_BYTE", .mrxByte), ("RD_REG", .rdReg), ("RD_RTXB", .rdRtxb),
   ("RD_RRXB", .rdRrxb), ("RD_MTXB", .rdMtxb), ("RD_MRXB", .rdMrxb)]

/-- The spelling of each register name (R28). -/
def registerSpellings : List (String × RegName) :=
  [("STATUS", .status), ("CRC", .crc), ("RTX_LEN", .rtxLen), ("RRX_LEN", .rrxLen),
   ("RRX_UNIT", .rrxUnit), ("RRX_RESULT", .rrxResult), ("RRX_PDULEN", .rrxPdulen),
   ("RRX_FCRC", .rrxFcrc), ("MTX_LEN", .mtxLen), ("MTX_TID", .mtxTid), ("MTX_UNIT", .mtxUnit),
   ("MTX_PLEN", .mtxPlen), ("MRX_TID", .mrxTid), ("MRX_PROTO", .mrxProto), ("MRX_LENF", .mrxLenf),
   ("MRX_UNIT", .mrxUnit), ("MRX_RESULT", .mrxResult), ("MRX_HCNT", .mrxHcnt), ("MRX_PCNT", .mrxPcnt)]

/-- What a spelling stands for in a table. -/
def lookupSpelling {α : Type} (table : List (String × α)) (name : List Char) : Option α :=
  (table.find? (fun row => row.1.toList == name)).map (fun row => row.2)

/-- The value of a digit in base 10 or 16; both cases of a hexadecimal letter are read (log entry 11). -/
def digitValue (base : Nat) (c : Char) : Option Nat :=
  let n := c.toNat
  let v :=
    if 48 ≤ n ∧ n ≤ 57 then some (n - 48)
    else if 65 ≤ n ∧ n ≤ 70 then some (n - 55)
    else if 97 ≤ n ∧ n ≤ 102 then some (n - 87)
    else none
  v.filter (fun d => d < base)

/-- The number a run of digits writes, continued from `acc`. -/
def digitsValue (base : Nat) : List Char → Nat → Option Nat
  | [], acc => some acc
  | c :: cs, acc => (digitValue base c).bind (fun d => digitsValue base cs (acc * base + d))

/-- A number in assembler text: decimal, or `0x` and hexadecimal (R78); at least one digit. -/
def parseNumber : List Char → Option Nat
  | [] => none
  | ['0', 'x'] => none
  | '0' :: 'x' :: c :: cs => digitsValue 16 (c :: cs) 0
  | c :: cs => digitsValue 10 (c :: cs) 0

/-- Spaces before a token, dropped (log entry 11). -/
def dropSpaces : List Char → List Char
  | ' ' :: cs => dropSpaces cs
  | cs => cs

/-- A token without the spaces around it. -/
def trimSpaces (cs : List Char) : List Char :=
  (dropSpaces (dropSpaces cs).reverse).reverse

/-- The texts between commas (R78); no text has no parts. -/
def splitCommas : List Char → List (List Char)
  | [] => [[]]
  | ',' :: cs => [] :: splitCommas cs
  | c :: cs =>
    match splitCommas cs with
    | [] => [[c]]
    | p :: ps => (c :: p) :: ps

/-- The operand texts of a line: those between commas, trimmed; a line with nothing after its mnemonic has none. -/
def operandTexts (cs : List Char) : List (List Char) :=
  if trimSpaces cs = [] then [] else (splitCommas cs).map trimSpaces

/-- The first word of a text and what follows it. -/
def firstWord : List Char → List Char × List Char
  | [] => ([], [])
  | ' ' :: cs => ([], cs)
  | c :: cs => ((firstWord cs).map (fun w => c :: w) id)

/-- An operand (R78): a number or a register name. -/
def parseOperand (cs : List Char) : Option AsmOperand :=
  match lookupSpelling registerSpellings cs with
  | some r => some (.reg r)
  | none => (parseNumber cs).map .num

/-- All of a list of optional values, or none. -/
def allSome {α : Type} : List (Option α) → Option (List α)
  | [] => some []
  | none :: _ => none
  | some a :: rest => (allSome rest).map (fun as => a :: as)

/-- A pseudo-command of R79 from its name and its numbers. -/
def pseudoCommand (name : List Char) (ns : List Nat) : Option AsmStmt :=
  if name = "CRC_BLOCK".toList then some (.crcBlock ns)
  else if name = "MRX_FEED".toList then some (.mrxFeed ns)
  else if name = "RTX_FRAME".toList then
    match ns with
    | u :: p => some (.rtxFrame u p)
    | [] => none
  else if name = "RRX_FRAME".toList then
    match ns with
    | u :: f => some (.rrxFrame u f)
    | [] => none
  else if name = "MTX_FRAME".toList then
    match ns with
    | u :: h :: p => some (.mtxFrame u h p)
    | _ => none
  else none

/-- A statement of assembler text (R78, R79), not yet checked for ranges. -/
def parseStmt (text : List Char) : Option AsmStmt :=
  let parts := firstWord (dropSpaces text)
  match lookupSpelling mnemonicSpellings parts.1 with
  | some m => (allSome ((operandTexts parts.2).map parseOperand)).map (fun os => .line ⟨m, os⟩)
  | none => (allSome ((operandTexts parts.2).map parseNumber)).bind (pseudoCommand parts.1)

/-- The command words of a statement of assembler text (R78, R79). -/
def assembleText (text : List Char) : Option (List Word) :=
  ((parseStmt text).bind assembleStmt).map (fun is => is.map encode)

end Sys2Proof.Machine
end

