-- ==== Sys2Proof/Machine/Consumer.lean ====
section
/-! DEFINITION. The consumer reference rules (30_encoding R84 to R87, 60_exceptions R320 to R322): what the host's controller and codec, outside the block (00_scope R5), make of the block's results. No command of the block uses any of it. -/

namespace Sys2Proof.Machine

/-- The Modbus exception codes the block carries as data (R320). -/
inductive ExceptionCode
  | illegalFunction
  | illegalDataAddress
  | illegalDataValue
  | slaveDeviceFailure
  | gatewayPathUnavailable
  | gatewayTargetFailedToRespond
  deriving DecidableEq, Repr

/-- The byte of an exception code (R320). -/
def exceptionByte : ExceptionCode → Byte
  | .illegalFunction => 0x01#8
  | .illegalDataAddress => 0x02#8
  | .illegalDataValue => 0x03#8
  | .slaveDeviceFailure => 0x04#8
  | .gatewayPathUnavailable => 0x0A#8
  | .gatewayTargetFailedToRespond => 0x0B#8

/-- An exception PDU (R84): the function code with bit 7 set, then the exception code. -/
def exceptionPdu (fc : Byte) (e : ExceptionCode) : List Byte :=
  [fc ||| 0x80#8, exceptionByte e]

/-- The reply PDU the host's controller makes of an RRX_END result (R321): an OK result's PDU unchanged, and exception 0x0B for every failure. `fc` is the request's function code; other results are no result of RRX_END and have no reply. -/
def rtuReplyPdu (fc : Byte) (pdu : List Byte) : ResultCode → Option (List Byte)
  | .ok => some pdu
  | .rtuNoReply | .rtuOverrun | .rtuShort | .rtuAddrMismatch | .rtuCrcMismatch =>
    some (exceptionPdu fc .gatewayTargetFailedToRespond)
  | .illegal | .badState | .overflow | .range | .empty | .mbapBadProtocol | .mbapBadLength | .none => none

/-- Whether the host closes the TCP connection on an MRX result (R322): on either malformed header, and no reply PDU is sent. -/
def closesConnection (r : ResultCode) : Bool :=
  r = .mbapBadProtocol || r = .mbapBadLength

/-- The function codes the gateway carries (R85). The block frames any byte. -/
def carriedFunctionCodes : List Byte :=
  [0x01#8, 0x02#8, 0x03#8, 0x04#8, 0x05#8, 0x06#8, 0x0F#8, 0x10#8]

/-- The number a run of bits writes, the first bit least significant (R86). -/
def bitsValue : List Bool → Nat
  | [] => 0
  | b :: bs => b.toNat + 2 * bitsValue bs

/-- Bits packed least-significant-bit-first within each byte, the unused high bits of the final byte zero (R86). -/
def packBits : List Bool → List Byte
  | [] => []
  | b0 :: b1 :: b2 :: b3 :: b4 :: b5 :: b6 :: b7 :: rest =>
    BitVec.ofNat 8 (bitsValue [b0, b1, b2, b3, b4, b5, b6, b7]) :: packBits rest
  | b :: bs => [BitVec.ofNat 8 (bitsValue (b :: bs))]

/-- The eight bits of a byte, least significant first. -/
def byteBits (b : Byte) : List Bool := (List.range 8).map (fun k => b.getLsbD k)

/-- Every bit of a packed field, in order, the padding of its final byte included (R86). -/
def unpackBits (bs : List Byte) : List Bool := bs.flatMap byteBits

/-- A 16-bit field of a PDU, big-endian (R86). -/
def pduHalf (h : Half) : List Byte := [hi8 h, lo8 h]

/-- The one-byte `byte_count` field before a list of bytes, and the bytes (R86). -/
def counted (bs : List Byte) : List Byte := BitVec.ofNat 8 bs.length :: bs

/-- The value field of Write Single Coil (R86): ON is 0xFF00, OFF is 0x0000. -/
def coilValue (on : Bool) : Half := if on then 0xFF00#16 else 0x0000#16

/-- What the codec puts in a request PDU (R86); a read's quantity, a write's bits or registers. -/
inductive CodecRequest
  | readCoils (start quantity : Half)
  | readDiscreteInputs (start quantity : Half)
  | readHoldingRegisters (start quantity : Half)
  | readInputRegisters (start quantity : Half)
  | writeSingleCoil (address : Half) (on : Bool)
  | writeSingleRegister (address value : Half)
  | writeMultipleCoils (start : Half) (bits : List Bool)
  | writeMultipleRegisters (start : Half) (values : List Half)
  deriving DecidableEq, Repr

/-- What the codec finds in a response PDU (R86). -/
inductive CodecResponse
  | readCoils (bits : List Bool)
  | readDiscreteInputs (bits : List Bool)
  | readHoldingRegisters (values : List Half)
  | readInputRegisters (values : List Half)
  | writeSingleCoil (address : Half) (on : Bool)
  | writeSingleRegister (address value : Half)
  | writeMultipleCoils (start quantity : Half)
  | writeMultipleRegisters (start quantity : Half)
  deriving DecidableEq, Repr

/-- The request PDU, byte by byte (R86). -/
def requestPdu : CodecRequest → List Byte
  | .readCoils start quantity => 0x01#8 :: pduHalf start ++ pduHalf quantity
  | .readDiscreteInputs start quantity => 0x02#8 :: pduHalf start ++ pduHalf quantity
  | .readHoldingRegisters start quantity => 0x03#8 :: pduHalf start ++ pduHalf quantity
  | .readInputRegisters start quantity => 0x04#8 :: pduHalf start ++ pduHalf quantity
  | .writeSingleCoil address on => 0x05#8 :: pduHalf address ++ pduHalf (coilValue on)
  | .writeSingleRegister address value => 0x06#8 :: pduHalf address ++ pduHalf value
  | .writeMultipleCoils start bits =>
    0x0F#8 :: pduHalf start ++ pduHalf (BitVec.ofNat 16 bits.length) ++ counted (packBits bits)
  | .writeMultipleRegisters start values =>
    0x10#8 :: pduHalf start ++ pduHalf (BitVec.ofNat 16 values.length) ++ counted (values.flatMap pduHalf)

/-- The response PDU, byte by byte (R86). -/
def responsePdu : CodecResponse → List Byte
  | .readCoils bits => 0x01#8 :: counted (packBits bits)
  | .readDiscreteInputs bits => 0x02#8 :: counted (packBits bits)
  | .readHoldingRegisters values => 0x03#8 :: counted (values.flatMap pduHalf)
  | .readInputRegisters values => 0x04#8 :: counted (values.flatMap pduHalf)
  | .writeSingleCoil address on => 0x05#8 :: pduHalf address ++ pduHalf (coilValue on)
  | .writeSingleRegister address value => 0x06#8 :: pduHalf address ++ pduHalf value
  | .writeMultipleCoils start quantity => 0x0F#8 :: pduHalf start ++ pduHalf quantity
  | .writeMultipleRegisters start quantity => 0x10#8 :: pduHalf start ++ pduHalf quantity

/-- A quantity within 1 and a bound. -/
def inRange (n bound : Nat) : Bool := decide (1 ≤ n) && decide (n ≤ bound)

/-- The quantity bounds on a request (R86): bit reads 2000, register reads 125, bit writes 1968, register writes 123. -/
def CodecRequest.inBounds : CodecRequest → Bool
  | .readCoils _ q | .readDiscreteInputs _ q => inRange q.toNat 2000
  | .readHoldingRegisters _ q | .readInputRegisters _ q => inRange q.toNat 125
  | .writeSingleCoil _ _ | .writeSingleRegister _ _ => true
  | .writeMultipleCoils _ bits => inRange bits.length 1968
  | .writeMultipleRegisters _ values => inRange values.length 123

/-- The quantity bounds on a response, those of the request it answers (R86). -/
def CodecResponse.inBounds : CodecResponse → Bool
  | .readCoils bits | .readDiscreteInputs bits => inRange bits.length 2000
  | .readHoldingRegisters values | .readInputRegisters values => inRange values.length 125
  | .writeSingleCoil _ _ | .writeSingleRegister _ _ => true
  | .writeMultipleCoils _ q => inRange q.toNat 1968
  | .writeMultipleRegisters _ q => inRange q.toNat 123

end Sys2Proof.Machine
end

