-- ==== Sys2Proof/Safety.lean ====
section
/-! DEFINITION. What claims are stated in: the invariants of a run (10_state R40 with the buffer rules R30 to R36), runs of several commands with their responses, and the host's duties (70_reset_and_hazards R410, R415, R420) that the block assumes and does not check. -/

namespace Sys2Proof.Machine

/-- The RTX unit's invariant (R30, R40). -/
structure Rtx.Inv (u : Rtx) : Prop where
  idle : u.st = .idle → u.buf.length = 0
  opened : u.st = .opened → 1 ≤ u.buf.length ∧ u.buf.length ≤ 254
  done : u.st = .done → 4 ≤ u.buf.length ∧ u.buf.length ≤ 256 ∧ crc16 u.buf = 0x0000#16

/-- The RRX unit's invariant (R31, R37, R40). `accepted` adds to R40 what R146 checks before it answers OK: the length, the CRC and the exception bit. -/
structure Rrx.Inv (u : Rrx) : Prop where
  idle : u.st = .idle → u.buf.length = 0 ∧ u.res = .none
  capacity : u.buf.length ≤ 256
  overrun : u.ovf = true → u.buf.length = 256
  accepted : u.res = .ok →
    u.st = .done ∧ 4 ≤ u.buf.length ∧ u.plen.toNat = u.buf.length - 3 ∧ byteAt u.buf 0 = u.unit ∧
      u.fcrc = le16 (byteAt u.buf (u.buf.length - 2)) (byteAt u.buf (u.buf.length - 1)) ∧
      u.fcrc = crc16 (u.buf.take (u.buf.length - 2)) ∧ u.exc = (byteAt u.buf 1).getLsbD 7
  exception : u.exc = true → u.res = .ok
  rejected : u.res ≠ .ok → u.plen = 0#9

/-- The MTX unit's invariant (R32, R33, R40). `capacity` is R32's bound, which R40 leaves out for OPEN; `built` gives the frame R33 speaks of. -/
structure Mtx.Inv (u : Mtx) : Prop where
  idle : u.st = .idle → u.pdu.length = 0 ∧ u.frame.length = 0
  opened : u.st = .opened → u.frame.length = 0
  done : u.st = .done →
    u.frame.length = 7 + u.pdu.length ∧ 1 ≤ u.pdu.length ∧ u.pdu.length ≤ 253
  capacity : u.pdu.length ≤ 253
  built : u.st = .done → u.frame = mbapFrame u.tid u.unit u.pdu

/-- The MRX unit's invariant (R34, R35, R40, R54). `unlatched`, `latched` and `valid` add to R40 that the fields are 0 until the seventh header byte and are then the header's, and that a header parsed as valid is. -/
structure Mrx.Inv (u : Mrx) : Prop where
  collecting : u.st = .idle ∨ u.st = .header → u.hdr.length ≤ 6 ∧ u.pdu.length = 0
  unlatched : u.st = .idle ∨ u.st = .header →
    u.tid = 0#16 ∧ u.proto = 0#16 ∧ u.lenf = 0#16 ∧ u.unit = 0#8 ∧ u.res = .none
  latched : u.st = .pdu ∨ u.st = .done ∨ u.st = .error →
    u.hdr.length = 7 ∧ u.tid = be16 (byteAt u.hdr 0) (byteAt u.hdr 1) ∧
      u.proto = be16 (byteAt u.hdr 2) (byteAt u.hdr 3) ∧
      u.lenf = be16 (byteAt u.hdr 4) (byteAt u.hdr 5) ∧ u.unit = byteAt u.hdr 6
  valid : u.st = .pdu ∨ u.st = .done → u.proto = 0#16 ∧ 2 ≤ u.lenf.toNat ∧ u.lenf.toNat ≤ 254
  pdu : u.st = .pdu → u.pdu.length < u.lenf.toNat - 1
  done : u.st = .done → u.pdu.length = u.lenf.toNat - 1 ∧ u.res = .ok
  error : u.st = .error →
    (u.res = .mbapBadProtocol ∨ u.res = .mbapBadLength) ∧ u.pdu.length = 0

/-- The block's invariant (R40): every unit's. -/
structure Block.Inv (b : Block) : Prop where
  rtx : b.rtx.Inv
  rrx : b.rrx.Inv
  mtx : b.mtx.Inv
  mrx : b.mrx.Inv

/-- The invariant of a run: the block's, and that a response word has its bits [23:16] zero (R74). -/
structure State.Inv (s : State) : Prop where
  blk : s.blk.Inv
  resp : ∀ w, s.resp = some w → w.extractLsb' 16 8 = 0#8

/-- Every buffer is within its capacity (R21, R30 to R35): the form the block's memory keeps. -/
def Memory.wf (b : Block) : Bool :=
  b.rtx.buf.length ≤ Config.rtuFrameMax && b.rrx.buf.length ≤ Config.rtuFrameMax &&
    b.mtx.pdu.length ≤ Config.pduMax && b.mtx.frame.length ≤ Config.mbapFrameMax &&
    b.mrx.hdr.length ≤ Config.mbapHeaderLen && b.mrx.pdu.length ≤ Config.pduMax

/-- A command and the response word it was answered with. -/
abbrev Exchange := Instr × Option Word

/-- Commands executed one after another (R60): the last state, and each command with its response. -/
def execAll : List Instr → State → Host.Outcome (State × List Exchange) Fault Refusal
  | [], s => .next (s, [])
  | i :: is, s =>
    match exec i s with
    | .next t =>
      match execAll is t with
      | .next r => .next (r.1, (i, t.resp) :: r.2)
      | .fault f => .fault f
      | .refused f => .refused f
    | .fault f => .fault f
    | .refused f => .refused f

/-- The unit a command drives (30_encoding R75); the reads and NOP drive none. -/
inductive UnitName
  | crc | rtx | rrx | mtx | mrx | none
  deriving DecidableEq, Repr

/-- The unit of a command. -/
def unitOf : Instr → UnitName
  | .nop | .rdReg _ | .rdRtxb _ | .rdRrxb _ | .rdMtxb _ | .rdMrxb _ => .none
  | .crcInit | .crcByte _ => .crc
  | .rtxBegin _ | .rtxByte _ | .rtxEnd => .rtx
  | .rrxBegin _ | .rrxByte _ | .rrxEnd => .rrx
  | .mtxBegin _ _ | .mtxByte _ | .mtxEnd => .mtx
  | .mrxBegin | .mrxByte _ => .mrx

/-- The commands of one unit in a sequence, in order. -/
def onlyUnit (n : UnitName) (l : List Instr) : List Instr :=
  l.filter (fun i => decide (unitOf i = n))

/-- The responses to one unit's commands, in order. -/
def responsesOf (n : UnitName) (l : List Exchange) : List (Option Word) :=
  (l.filter (fun x => decide (unitOf x.1 = n))).map (fun x => x.2)

/-- The result code byte of a response, `RESP[31:24]` (R74). -/
def resultByte (w : Word) : Byte := w.extractLsb' 24 8

/-- The result codes a command may be answered with (R300's "returned by" column and each command rule's "Result codes" line). ILLEGAL answers words that are no command. -/
def resultsOf : Instr → List ResultCode
  | .nop | .crcInit | .crcByte _ | .rtxBegin _ | .rrxBegin _ | .mtxBegin _ _ | .mrxBegin => [.ok]
  | .rtxByte _ | .rrxByte _ | .mtxByte _ => [.ok, .badState, .overflow]
  | .rtxEnd | .mtxEnd => [.ok, .badState, .empty]
  | .rrxEnd =>
    [.ok, .badState, .rtuNoReply, .rtuOverrun, .rtuShort, .rtuAddrMismatch, .rtuCrcMismatch]
  | .mrxByte _ => [.ok, .badState, .mbapBadProtocol, .mbapBadLength]
  | .rdReg _ | .rdRtxb _ | .rdRrxb _ | .rdMtxb _ | .rdMrxb _ => [.ok, .range]

/-- Two machines that differ at most in the CRC register (R420). -/
structure SameButCrc (s t : State) : Prop where
  rtx : s.blk.rtx = t.blk.rtx
  rrx : s.blk.rrx = t.blk.rrx
  mtx : s.blk.mtx = t.blk.mtx
  mrx : s.blk.mrx = t.blk.mrx
  pending : s.pending = t.pending

/-- Commands whose response does not show the CRC register: all but CRC_BYTE and RD_REG CRC (R22, R28). -/
def hidesCrc : Instr → Bool
  | .crcByte _ => false
  | .rdReg s => s ≠ 0x01#8
  | _ => true

/-- A host input the spec gives a meaning to (R400, R313). -/
def HostInput.hasMeaning : HostInput → Bool
  | .command _ | .reset => true
  | .commandDuringReset _ | .concurrentCommands _ _ _ => false

/-- A safe run: every pending host input has a meaning. -/
def State.orderly (s : State) : Bool := s.pending.all HostInput.hasMeaning

/-- Where an RTU transaction stands (R410): none, its request being built, its frame built and in flight, its reply being received. -/
inductive TransactionPhase
  | free | building | inFlight | receiving
  deriving DecidableEq, Repr

/-- The serialisation duty (R410, R415), one command at a time, with the command's result byte: the next phase, or none where the duty is broken. A frame that RTX_BYTE or RTX_END gives up (OVERFLOW, EMPTY) ends its transaction before anything was sent (log entry 15). -/
def TransactionPhase.after (p : TransactionPhase) (i : Instr) (result : Byte) : Option TransactionPhase :=
  match p, i with
  | .free, .rtxBegin _ => some .building
  | .building, .rtxByte _ => some (if result = 0x00#8 then .building else .free)
  | .building, .rtxEnd => some (if result = 0x00#8 then .inFlight else .free)
  | .inFlight, .rrxBegin _ => some .receiving
  | .receiving, .rrxByte _ => some .receiving
  | .receiving, .rrxEnd => some .free
  | p, i => if unitOf i = .rtx ∨ unitOf i = .rrx then none else some p

/-- Whether a sequence of exchanges keeps the serialisation duty from a phase on (R410). -/
def serialised : TransactionPhase → List Exchange → Bool
  | _, [] => true
  | p, (i, r) :: rest =>
    match p.after i (resultByte (r.getD 0#32)) with
    | some q => serialised q rest
    | none => false

/-- Commands that leave a CRC being computed one byte at a time alone (R420): no CRC_INIT, RTX_END or RRX_END. -/
def keepsCrc : Instr → Bool
  | .crcInit | .rtxEnd | .rrxEnd => false
  | _ => true

/-- The bytes a sequence of commands feeds to the CRC unit, in order (R104). -/
def crcBytes : List Instr → List Byte
  | [] => []
  | .crcByte b :: is => b :: crcBytes is
  | _ :: is => crcBytes is

end Sys2Proof.Machine
end

