-- ==== Sys2Proof/Certificates/Slice0/Obligations.lean ====
section
/-! DEFINITION. The statements for the provers. Each docstring names the rules of spec/ it formalises. A result statement gives the whole next state, so it is its own frame: every element it does not name is unchanged. -/

open Sys2Proof Sys2Proof.Machine

/-! ### Encoding and the port -/

/-- The examples of R78 and the two words R76 names, and one word of each unit written out from R70 and R75. -/
def Obligations.ExampleWordsDecode : Prop :=
  decode 0x00000000#32 = some .nop ∧
  decode 0xFFFFFFFF#32 = none ∧
  decode 0x02000001#32 = some (.crcByte 0x01#8) ∧
  decode 0x10110000#32 = some (.rtxBegin 0x11#8) ∧
  decode 0x1900007F#32 = some (.rrxByte 0x7F#8) ∧
  decode 0x20010001#32 = some (.mtxBegin 0x01#8 0x0001#16) ∧
  decode 0x290000FE#32 = some (.mrxByte 0xFE#8) ∧
  decode 0x80000001#32 = some (.rdReg 0x01#8) ∧
  decode 0x81000006#32 = some (.rdRtxb 0x0006#16)

/-- R70 to R73, R75: decoding the word of any command gives the command back, every operand at every value. -/
def Obligations.DecodeInvertsEncode : Prop :=
  ∀ i : Instr, i.wellFormed = true → decode (encode i) = some i

/-- R73, R76: a word that decodes to a command is that command's word, so no bit of a word is ignored and no two words are one command. -/
def Obligations.OnlyTheEncodingDecodes : Prop :=
  ∀ (w : Word) (i : Instr), decode w = some i → encode i = w

/-- R73: the row with the word's OP decides; no such row, or a masked mismatch, is illegal, and an illegal word is answered ILLEGAL and changes no state. -/
def Obligations.DecodingIsTotal : Prop :=
  (∀ w : Word, (∀ row ∈ opcodeTable, row.op ≠ w.extractLsb' 24 8) → decode w = none) ∧
  (∀ w : Word, ∀ row ∈ opcodeTable, row.op = w.extractLsb' 24 8 →
    row.pattern = row.op ++ 0x000000#24 ∧
    (w &&& row.mask ≠ row.pattern → decode w = none) ∧
    (w &&& row.mask = row.pattern →
      decode w = some (row.mnemonic.build (w.extractLsb' 16 8) (w.extractLsb' 0 16)))) ∧
  (∀ (s : State) (w : Word) (rest : List HostInput),
    s.pending = .command w :: rest → decode w = none →
    step s = .next { s with pending := rest, resp := some 0x01000000#32 })

/-- R9, R60: a step with a command word pending takes it from the port and executes the command it decodes to. -/
def Obligations.StepRunsTheDecodedCommand : Prop :=
  ∀ (s : State) (w : Word) (rest : List HostInput) (i : Instr),
    s.pending = .command w :: rest → decode w = some i →
    step s = exec i { s with pending := rest }

/-- R9: with nothing presented the block takes no step on its own. That such a step is a next state, the same one, is the model's choice (log entry 4). -/
def Obligations.NothingHappensWithoutTheHost : Prop :=
  ∀ s : State, s.pending = [] → step s = .next s

/-- R400: reset, like power-on, sets every element to its value of R39 in one step between commands; a command that overlaps reset is refused. The clause `t.pending = rest`, that inputs still pending stay in place, is the model's choice (log entry 3, DESIGN CHOICE). -/
def Obligations.ResetSetsEveryElement : Prop :=
  (∀ (s : State) (rest : List HostInput), s.pending = .reset :: rest →
    ∃ t, step s = .next t ∧ t.pending = rest ∧
      t.blk =
        { crc := 0xFFFF#16
          rtx := { st := .idle, buf := [] }
          rrx := { st := .idle, buf := [], unit := 0#8, res := .none, ovf := false, exc := false,
                   plen := 0#9, fcrc := 0#16 }
          mtx := { st := .idle, tid := 0#16, unit := 0#8, pdu := [], frame := [] }
          mrx := { st := .idle, hdr := [], tid := 0#16, proto := 0#16, lenf := 0#16, unit := 0#8,
                   res := .none, pdu := [] } } ∧
      t.blk = State.reset.blk) ∧
  (∀ (s : State) (w : Word) (rest : List HostInput), s.pending = .commandDuringReset w :: rest →
    step s = .refused .commandDuringReset)

/-- R313, D33: commands presented at the same time on the one port are refused. -/
def Obligations.SimultaneousCommandsAreRefused : Prop :=
  ∀ (s : State) (v w : Word) (others : List Word) (rest : List HostInput),
    s.pending = .concurrentCommands v w others :: rest → step s = .refused .concurrentCommands

/-- R304, R400, R313: a host that presents only inputs with a meaning is never stopped, for any number of steps. Two parts are the model's choice: that a step with nothing pending is a next state, which the steps past the end of the list rest on (log entry 4), and that a reset leaves the inputs after it in place, which the last clause rests on (log entry 3). -/
def Obligations.AnOrderlyHostIsNeverStopped : Prop :=
  ∀ (s : State) (k : Nat), s.orderly = true →
    ∃ t, Host.Core.run core k s = .next t ∧ t.orderly = true ∧ t.pending = s.pending.drop k

/-- R60: the words of a sequence of commands, presented one after another, run exactly as the commands one after another. -/
def Obligations.PresentedWordsRunInOrder : Prop :=
  ∀ (l : List Instr) (s : State) (rest : List HostInput),
    ∃ t log, execAll l { s with pending := rest } = .next (t, log) ∧ t.pending = rest ∧
      Host.Core.run core l.length
        { s with pending := l.map (fun i => HostInput.command (encode i)) ++ rest } = .next t

/-! ### Results of every command -/

/-- R74, R300: every command completes and is answered with one response word whose code is one its rule lists, whose bits [23:16] are 0, and which takes nothing from the port. -/
def Obligations.EveryCommandIsAnswered : Prop :=
  ∀ (s : State) (i : Instr),
    ∃ (t : State) (r : ResultCode) (v : Half), exec i s = .next t ∧ r ∈ resultsOf i ∧ r ≠ .none ∧ r ≠ .illegal ∧
      t.resp = some (r.code ++ 0x00#8 ++ v) ∧ t.pending = s.pending

/-- R301: a command answered ILLEGAL, BAD_STATE or RANGE changes nothing of the block, and its value is MR_ST for MRX_BYTE's BAD_STATE and 0 for every other. Any command word may follow at once. -/
def Obligations.RefusedCommandsChangeNothing : Prop :=
  ∀ (s t : State) (w v : Word) (rest : List HostInput),
    s.pending = .command w :: rest → step s = .next t → t.resp = some v →
    (v.extractLsb' 24 8 = 0x01#8 ∨ v.extractLsb' 24 8 = 0x02#8 ∨ v.extractLsb' 24 8 = 0x04#8) →
    t.blk = s.blk ∧
      (∀ b, decode w = some (.mrxByte b) → v.extractLsb' 24 8 = 0x02#8 →
        v.extractLsb' 0 16 = s.blk.mrx.st.code) ∧
      ((∀ b, decode w ≠ some (.mrxByte b)) ∨ v.extractLsb' 24 8 ≠ 0x02#8 →
        v.extractLsb' 0 16 = 0x0000#16) ∧
      (∀ w' : Word, ∃ u x, step { t with pending := .command w' :: rest } = .next u ∧ u.resp = some x)

/-- R24, R50: of the four units RTX, RRX, MTX and MRX, a command changes at most the one it drives, and it takes nothing from the port. Which commands write `S.CRC`, RTX_END and RRX_END among them, is `OnlyTheseCommandsWriteTheCrc`. -/
def Obligations.CommandsLeaveOtherUnitsAlone : Prop :=
  ∀ (s t : State) (i : Instr), exec i s = .next t →
    (unitOf i ≠ .rtx → t.blk.rtx = s.blk.rtx) ∧ (unitOf i ≠ .rrx → t.blk.rrx = s.blk.rrx) ∧
    (unitOf i ≠ .mtx → t.blk.mtx = s.blk.mtx) ∧ (unitOf i ≠ .mrx → t.blk.mrx = s.blk.mrx) ∧
    t.pending = s.pending

/-- R24: the latched values change only where the command rules write them. RR_UNIT: RRX_BEGIN. RR_RES: RRX_BEGIN, or RRX_END in OPEN; RR_PLEN only if that RRX_END answers OK; RR_FCRC only if it finds 4 bytes or more and no overrun. MT_TID and MT_UNIT: MTX_BEGIN. The MR fields: MRX_BEGIN, or the seventh header byte. MR_RES: MRX_BEGIN, the seventh header byte that fails a check, or the last PDU byte. -/
def Obligations.LatchedValuesChangeOnlyByTheirCommands : Prop :=
  ∀ (s t : State) (i : Instr), exec i s = .next t →
    (t.blk.rrx.unit ≠ s.blk.rrx.unit → ∃ u, i = .rrxBegin u ∧ t.blk.rrx.unit = u) ∧
    (t.blk.rrx.res ≠ s.blk.rrx.res →
      (∃ u, i = .rrxBegin u) ∨ i = .rrxEnd ∧ s.blk.rrx.st = .opened) ∧
    (t.blk.rrx.plen ≠ s.blk.rrx.plen →
      (∃ u, i = .rrxBegin u) ∨ i = .rrxEnd ∧ s.blk.rrx.st = .opened ∧ t.blk.rrx.res = .ok) ∧
    (t.blk.rrx.fcrc ≠ s.blk.rrx.fcrc →
      (∃ u, i = .rrxBegin u) ∨
        i = .rrxEnd ∧ s.blk.rrx.st = .opened ∧ s.blk.rrx.ovf = false ∧ 4 ≤ s.blk.rrx.buf.length) ∧
    ((t.blk.mtx.tid, t.blk.mtx.unit) ≠ (s.blk.mtx.tid, s.blk.mtx.unit) →
      i = .mtxBegin t.blk.mtx.unit t.blk.mtx.tid) ∧
    ((t.blk.mrx.tid, t.blk.mrx.proto, t.blk.mrx.lenf, t.blk.mrx.unit) ≠
        (s.blk.mrx.tid, s.blk.mrx.proto, s.blk.mrx.lenf, s.blk.mrx.unit) →
      i = .mrxBegin ∨ ∃ b, i = .mrxByte b ∧ s.blk.mrx.st = .header ∧ s.blk.mrx.hdr.length = 6) ∧
    (t.blk.mrx.res ≠ s.blk.mrx.res →
      i = .mrxBegin ∨ ∃ b, i = .mrxByte b ∧
        (s.blk.mrx.st = .header ∧ s.blk.mrx.hdr.length = 6 ∧ t.blk.mrx.st = .error ∨
          s.blk.mrx.st = .pdu ∧ s.blk.mrx.pdu.length + 2 = s.blk.mrx.lenf.toNat ∧
            t.blk.mrx.st = .done))

/-- R57: the reads and NOP change nothing and answer the same twice, a BEGIN or CRC_INIT issued twice leaves what it leaves once, and a repeated END is answered BAD_STATE and leaves the block as the first one left it. -/
def Obligations.RepeatingACommand : Prop :=
  ∀ (s t : State) (i : Instr), exec i s = .next t →
    (unitOf i = .none → t.blk = s.blk ∧ exec i t = .next t) ∧
    ((i = .crcInit ∨ i = .mrxBegin ∨ (∃ u, i = .rtxBegin u ∨ i = .rrxBegin u) ∨
      ∃ u h, i = .mtxBegin u h) → exec i t = .next t) ∧
    ((i = .rtxEnd ∨ i = .rrxEnd ∨ i = .mtxEnd) →
      exec i t = .next { t with resp := some 0x02000000#32 })

/-! ### CRC unit -/

/-- R102: CRC_INIT. -/
def Obligations.CrcInitResult : Prop :=
  (∀ w : Word, w.extractLsb' 24 8 = 0x01#8 →
    decode w = if w.extractLsb' 0 24 = 0x000000#24 then some .crcInit else none) ∧
  (∀ s : State, exec .crcInit s =
    .next { s with blk := { s.blk with crc := 0xFFFF#16 }, resp := some 0x0000FFFF#32 })

/-- R103, with the step of R100 written out: the byte is XORed into the register, which is then shifted right 8 times, the generator 0xA001 XORed in whenever the bit shifted out is 1. -/
def Obligations.CrcByteResult : Prop :=
  (∀ w : Word, w.extractLsb' 24 8 = 0x02#8 →
    decode w = if w.extractLsb' 8 16 = 0x0000#16 then some (.crcByte (w.extractLsb' 0 8)) else none) ∧
  (∀ (s : State) (b : Byte),
    let c := (fun c : Half => if c.getLsbD 0 then (c >>> 1) ^^^ 0xA001#16 else c >>> 1)^[8]
      (s.blk.crc ^^^ (0x00#8 ++ b : Half))
    exec (.crcByte b) s =
      .next { s with blk := { s.blk with crc := c }, resp := some (0x0000#16 ++ c) })

/-- R22: the commands that write `S.CRC`, and what each writes; no other command writes it, RD_REG selector 0x01 reads it, and it starts at 0xFFFF. The premise is the capacity of R21. -/
def Obligations.OnlyTheseCommandsWriteTheCrc : Prop :=
  (∀ (s t : State) (i : Instr), s.blk.rrx.buf.length ≤ 256 → exec i s = .next t →
    t.blk.crc =
      match i with
      | .crcInit => 0xFFFF#16
      | .crcByte b => crcStep s.blk.crc b
      | .rtxEnd =>
        if s.blk.rtx.st = .opened ∧ 2 ≤ s.blk.rtx.buf.length then crc16 s.blk.rtx.buf else s.blk.crc
      | .rrxEnd =>
        if s.blk.rrx.st = .opened ∧ s.blk.rrx.ovf = false ∧ 4 ≤ s.blk.rrx.buf.length ∧
            s.blk.rrx.buf.length ≤ 256 then
          crc16 (s.blk.rrx.buf.take (s.blk.rrx.buf.length - 2))
        else s.blk.crc
      | _ => s.blk.crc) ∧
  (∀ s : State, exec (.rdReg 0x01#8) s = .next { s with resp := some (0x0000#16 ++ s.blk.crc) }) ∧
  State.reset.blk.crc = 0xFFFF#16

/-- R104: CRC_INIT and then CRC_BYTE of each byte, whatever other commands but CRC_INIT, RTX_END and RRX_END come between, leaves the CRC of those bytes. -/
def Obligations.StreamedCrcIsCrc16 : Prop :=
  ∀ (s : State) (l : List Instr), l.all keepsCrc = true →
    ∃ t log, execAll (.crcInit :: l) s = .next (t, log) ∧ t.blk.crc = crc16 (crcBytes l)

/-- R105: appending its CRC, low byte first, to any byte sequence gives CRC 0x0000. -/
def Obligations.CrcResidueIsZero : Prop :=
  ∀ bs : List Byte,
    crc16 (bs ++ [(crc16 bs).extractLsb' 0 8, (crc16 bs).extractLsb' 8 8]) = 0x0000#16

/-- R420, R104: the END commands do not read the CRC register. Two machines that differ only in it answer any sequence of commands that do not show it alike, and still differ at most in it. -/
def Obligations.CrcRegisterDoesNotLeakIntoFrames : Prop :=
  ∀ (s s' t t' : State) (l : List Instr) (log log' : List Exchange),
    SameButCrc s s' → l.all hidesCrc = true →
    execAll l s = .next (t, log) → execAll l s' = .next (t', log') →
    log = log' ∧ SameButCrc t t'

/-! ### RTU framer -/

/-- R120: RTX_BEGIN, in every state. -/
def Obligations.RtxBeginResult : Prop :=
  (∀ w : Word, w.extractLsb' 24 8 = 0x10#8 →
    decode w = if w.extractLsb' 0 16 = 0x0000#16 then some (.rtxBegin (w.extractLsb' 16 8)) else none) ∧
  (∀ (s : State) (u : Byte), exec (.rtxBegin u) s =
    .next { s with blk := { s.blk with rtx := { st := .opened, buf := [u] } }, resp := some 0x00000000#32 })

/-- R121: RTX_BYTE appends in OPEN, aborts when the PDU already has 253 bytes, and is refused otherwise. -/
def Obligations.RtxByteResult : Prop :=
  (∀ w : Word, w.extractLsb' 24 8 = 0x11#8 →
    decode w = if w.extractLsb' 8 16 = 0x0000#16 then some (.rtxByte (w.extractLsb' 0 8)) else none) ∧
  (∀ (s : State) (b : Byte), s.blk.rtx.st = .opened → s.blk.rtx.buf.length ≠ 254 →
    exec (.rtxByte b) s =
      .next { s with blk := { s.blk with rtx := { st := .opened, buf := s.blk.rtx.buf ++ [b] } },
                     resp := some 0x00000000#32 }) ∧
  (∀ (s : State) (b : Byte), s.blk.rtx.st = .opened → s.blk.rtx.buf.length = 254 →
    exec (.rtxByte b) s =
      .next { s with blk := { s.blk with rtx := { st := .idle, buf := [] } },
                     resp := some 0x03000000#32 }) ∧
  (∀ (s : State) (b : Byte), s.blk.rtx.st ≠ .opened →
    exec (.rtxByte b) s = .next { s with resp := some 0x02000000#32 })

/-- R122: RTX_END appends the CRC low byte first and leaves it in `S.CRC`, aborts an empty PDU, and is refused outside OPEN. -/
def Obligations.RtxEndResult : Prop :=
  (∀ w : Word, w.extractLsb' 24 8 = 0x12#8 →
    decode w = if w.extractLsb' 0 24 = 0x000000#24 then some .rtxEnd else none) ∧
  (∀ s : State, s.blk.rtx.st = .opened → 2 ≤ s.blk.rtx.buf.length →
    let c := crc16 s.blk.rtx.buf
    exec .rtxEnd s =
      .next { s with
        blk := { s.blk with
          crc := c
          rtx := { st := .done, buf := s.blk.rtx.buf ++ [c.extractLsb' 0 8, c.extractLsb' 8 8] } }
        resp := some (0x0000#16 ++ c) }) ∧
  (∀ s : State, s.blk.rtx.st = .opened → s.blk.rtx.buf.length < 2 →
    exec .rtxEnd s =
      .next { s with blk := { s.blk with rtx := { st := .idle, buf := [] } },
                     resp := some 0x05000000#32 }) ∧
  (∀ s : State, s.blk.rtx.st ≠ .opened →
    exec .rtxEnd s = .next { s with resp := some 0x02000000#32 })

/-- R123: RTX_BEGIN, RTX_BYTE of each PDU byte and RTX_END, with no other RTX command in between (any other command may be), answer OK and build the RTU frame. -/
def Obligations.RtuFrameIsBuilt : Prop :=
  ∀ (s : State) (u : Byte) (p : List Byte) (l : List Instr),
    1 ≤ p.length → p.length ≤ 253 →
    onlyUnit .rtx l = .rtxBegin u :: p.map Instr.rtxByte ++ [.rtxEnd] →
    ∃ t log, execAll l s = .next (t, log) ∧
      responsesOf .rtx log =
        List.replicate (p.length + 1) (some 0x00000000#32) ++ [some (0x0000#16 ++ crc16 (u :: p))] ∧
      t.blk.rtx.st = .done ∧
      t.blk.rtx.buf =
        [u] ++ p ++ [(crc16 (u :: p)).extractLsb' 0 8, (crc16 (u :: p)).extractLsb' 8 8]

/-! ### RTU deframer -/

/-- R141: RRX_BEGIN, in every state. -/
def Obligations.RrxBeginResult : Prop :=
  (∀ w : Word, w.extractLsb' 24 8 = 0x18#8 →
    decode w = if w.extractLsb' 0 16 = 0x0000#16 then some (.rrxBegin (w.extractLsb' 16 8)) else none) ∧
  (∀ (s : State) (u : Byte), exec (.rrxBegin u) s =
    .next { s with
      blk := { s.blk with
        rrx := { st := .opened, buf := [], unit := u, res := .none, ovf := false, exc := false,
                 plen := 0#9, fcrc := 0#16 } }
      resp := some 0x00000000#32 })

/-- R145: RRX_BYTE appends in OPEN, discards a byte when 256 are held and sets RR_OVF, and is refused otherwise. -/
def Obligations.RrxByteResult : Prop :=
  (∀ w : Word, w.extractLsb' 24 8 = 0x19#8 →
    decode w = if w.extractLsb' 8 16 = 0x0000#16 then some (.rrxByte (w.extractLsb' 0 8)) else none) ∧
  (∀ (s : State) (b : Byte), s.blk.rrx.st = .opened → s.blk.rrx.buf.length ≠ 256 →
    exec (.rrxByte b) s =
      .next { s with blk := { s.blk with rrx := { s.blk.rrx with buf := s.blk.rrx.buf ++ [b] } },
                     resp := some 0x00000000#32 }) ∧
  (∀ (s : State) (b : Byte), s.blk.rrx.st = .opened → s.blk.rrx.buf.length = 256 →
    exec (.rrxByte b) s =
      .next { s with blk := { s.blk with rrx := { s.blk.rrx with ovf := true } },
                     resp := some 0x03000000#32 }) ∧
  (∀ (s : State) (b : Byte), s.blk.rrx.st ≠ .opened →
    exec (.rrxByte b) s = .next { s with resp := some 0x02000000#32 })

/-- R146: RRX_END, the checks in the order given. The response carries RR_PLEN, which is 0 in OPEN by the invariant of R40 (`EveryStepKeepsTheInvariant`), so it is 0 unless the result is OK. -/
def Obligations.RrxEndResult : Prop :=
  (∀ w : Word, w.extractLsb' 24 8 = 0x1A#8 →
    decode w = if w.extractLsb' 0 24 = 0x000000#24 then some .rrxEnd else none) ∧
  (∀ s : State, s.blk.rrx.st ≠ .opened →
    exec .rrxEnd s = .next { s with resp := some 0x02000000#32 }) ∧
  (∀ s : State, s.blk.rrx.Inv → s.blk.rrx.st = .opened → s.blk.rrx.plen = 0#9) ∧
  (∀ s : State, s.blk.rrx.st = .opened →
    let q := s.blk.rrx
    let n := q.buf.length
    let c := crc16 (q.buf.take (n - 2))
    let f := (q.buf.getD (n - 1) 0#8 ++ q.buf.getD (n - 2) 0#8 : Half)
    (n = 0 → exec .rrxEnd s =
      .next { s with blk := { s.blk with rrx := { q with st := .done, res := .rtuNoReply } },
                     resp := some (0x1000#16 ++ (0#7 ++ q.plen)) }) ∧
    (n ≠ 0 → q.ovf = true → exec .rrxEnd s =
      .next { s with blk := { s.blk with rrx := { q with st := .done, res := .rtuOverrun } },
                     resp := some (0x1100#16 ++ (0#7 ++ q.plen)) }) ∧
    (1 ≤ n → n ≤ 3 → q.ovf = false → exec .rrxEnd s =
      .next { s with blk := { s.blk with rrx := { q with st := .done, res := .rtuShort } },
                     resp := some (0x1200#16 ++ (0#7 ++ q.plen)) }) ∧
    (4 ≤ n → q.ovf = false → q.buf.getD 0 0#8 ≠ q.unit → exec .rrxEnd s =
      .next { s with
        blk := { s.blk with
          crc := c
          rrx := { q with st := .done, res := .rtuAddrMismatch, fcrc := f } }
        resp := some (0x1300#16 ++ (0#7 ++ q.plen)) }) ∧
    (4 ≤ n → q.ovf = false → q.buf.getD 0 0#8 = q.unit → c ≠ f → exec .rrxEnd s =
      .next { s with
        blk := { s.blk with
          crc := c
          rrx := { q with st := .done, res := .rtuCrcMismatch, fcrc := f } }
        resp := some (0x1400#16 ++ (0#7 ++ q.plen)) }) ∧
    (4 ≤ n → n ≤ 256 → q.ovf = false → q.buf.getD 0 0#8 = q.unit → c = f → exec .rrxEnd s =
      .next { s with
        blk := { s.blk with
          crc := c
          rrx := { q with
            st := .done, res := .ok, fcrc := f, plen := BitVec.ofNat 9 (n - 3)
            exc := (q.buf.getD 1 0#8).getLsbD 7 } }
        resp := some (0x0000#16 ++ BitVec.ofNat 16 (n - 3)) }))

/-- R31, R37: whatever is offered after RRX_BEGIN, the buffer holds the first 256 bytes and RR_OVF tells whether a byte was discarded. -/
def Obligations.ReceptionKeepsTheFirst256Bytes : Prop :=
  ∀ (s : State) (u : Byte) (bs : List Byte) (l : List Instr),
    onlyUnit .rrx l = .rrxBegin u :: bs.map Instr.rrxByte →
    ∃ t log, execAll l s = .next (t, log) ∧ t.blk.rrx.st = .opened ∧ t.blk.rrx.unit = u ∧
      t.blk.rrx.buf = bs.take 256 ∧ t.blk.rrx.ovf = decide (256 < bs.length) ∧
      responsesOf .rrx log =
        List.replicate (1 + min bs.length 256) (some 0x00000000#32) ++
          List.replicate (bs.length - 256) (some 0x03000000#32)

/-- R37: RR_OVF is set by an RRX_BYTE offered while 256 bytes are held and cleared by RRX_BEGIN; RR_EXC is what an RRX_END in OPEN finds (a valid frame whose function code has bit 7 set) and is cleared by RRX_BEGIN; no other command writes either; reset clears both. That an RRX_END in OPEN that fails leaves RR_EXC 0 uses the invariant (log entry 7). -/
def Obligations.OnlyTheseCommandsWriteTheFlags : Prop :=
  (∀ (s t : State) (i : Instr), State.Inv s → exec i s = .next t →
    t.blk.rrx.ovf =
      (match i with
        | .rrxBegin _ => false
        | .rrxByte _ => s.blk.rrx.ovf || decide (s.blk.rrx.st = .opened ∧ s.blk.rrx.buf.length = 256)
        | _ => s.blk.rrx.ovf) ∧
    t.blk.rrx.exc =
      (match i with
        | .rrxBegin _ => false
        | .rrxEnd =>
          if s.blk.rrx.st = .opened then
            decide (t.blk.rrx.res = .ok) && (s.blk.rrx.buf.getD 1 0#8).getLsbD 7
          else s.blk.rrx.exc
        | _ => s.blk.rrx.exc)) ∧
  State.reset.blk.rrx.ovf = false ∧ State.reset.blk.rrx.exc = false

/-- R140, R105: RRX_END accepts exactly the frames of 4 bytes or more, with no overrun, whose byte 0 is the expected unit and whose CRC over all bytes is 0x0000. -/
def Obligations.AcceptedFramesAreTheResidueFrames : Prop :=
  ∀ s t : State, s.blk.rrx.st = .opened → exec .rrxEnd s = .next t →
    (t.blk.rrx.res = .ok ↔
      4 ≤ s.blk.rrx.buf.length ∧ s.blk.rrx.ovf = false ∧
        s.blk.rrx.buf.head? = some s.blk.rrx.unit ∧ crc16 s.blk.rrx.buf = 0x0000#16)

/-- R147: deframing a framed PDU gives the PDU back, with no other RRX command in between. -/
def Obligations.RtuRoundTrip : Prop :=
  ∀ (s : State) (u : Byte) (p : List Byte) (l : List Instr),
    1 ≤ p.length → p.length ≤ 253 →
    onlyUnit .rrx l = .rrxBegin u :: (rtuFrame u p).map Instr.rrxByte ++ [.rrxEnd] →
    ∃ t log, execAll l s = .next (t, log) ∧
      responsesOf .rrx log =
        List.replicate (p.length + 4) (some 0x00000000#32) ++
          [some (0x0000#16 ++ BitVec.ofNat 16 p.length)] ∧
      t.blk.rrx.st = .done ∧ t.blk.rrx.res = .ok ∧ t.blk.rrx.plen.toNat = p.length ∧
      (t.blk.rrx.buf.drop 1).take p.length = p ∧
      t.blk.rrx.exc = (p.getD 0 0#8).getLsbD 7

/-! ### MBAP framer -/

/-- R160: MTX_BEGIN, in every state; every word with its OP is one. -/
def Obligations.MtxBeginResult : Prop :=
  (∀ w : Word, w.extractLsb' 24 8 = 0x20#8 →
    decode w = some (.mtxBegin (w.extractLsb' 16 8) (w.extractLsb' 0 16))) ∧
  (∀ (s : State) (u : Byte) (h : Half), exec (.mtxBegin u h) s =
    .next { s with
      blk := { s.blk with mtx := { st := .opened, tid := h, unit := u, pdu := [], frame := [] } }
      resp := some 0x00000000#32 })

/-- R161: MTX_BYTE appends in OPEN, aborts on the 254th byte keeping MT_TID and MT_UNIT, and is refused otherwise. -/
def Obligations.MtxByteResult : Prop :=
  (∀ w : Word, w.extractLsb' 24 8 = 0x21#8 →
    decode w = if w.extractLsb' 8 16 = 0x0000#16 then some (.mtxByte (w.extractLsb' 0 8)) else none) ∧
  (∀ (s : State) (b : Byte), s.blk.mtx.st = .opened → s.blk.mtx.pdu.length ≠ 253 →
    exec (.mtxByte b) s =
      .next { s with blk := { s.blk with mtx := { s.blk.mtx with pdu := s.blk.mtx.pdu ++ [b] } },
                     resp := some 0x00000000#32 }) ∧
  (∀ (s : State) (b : Byte), s.blk.mtx.st = .opened → s.blk.mtx.pdu.length = 253 →
    exec (.mtxByte b) s =
      .next { s with blk := { s.blk with mtx := { s.blk.mtx with st := .idle, pdu := [] } },
                     resp := some 0x03000000#32 }) ∧
  (∀ (s : State) (b : Byte), s.blk.mtx.st ≠ .opened →
    exec (.mtxByte b) s = .next { s with resp := some 0x02000000#32 })

/-- R162: MTX_END builds the frame, the length 16 bits and big-endian, aborts an empty PDU, and is refused outside OPEN. -/
def Obligations.MtxEndResult : Prop :=
  (∀ w : Word, w.extractLsb' 24 8 = 0x22#8 →
    decode w = if w.extractLsb' 0 24 = 0x000000#24 then some .mtxEnd else none) ∧
  (∀ s : State, s.blk.mtx.st = .opened → s.blk.mtx.pdu.length ≠ 0 →
    let q := s.blk.mtx
    let len := BitVec.ofNat 16 (1 + q.pdu.length)
    exec .mtxEnd s =
      .next { s with
        blk := { s.blk with
          mtx := { q with
            st := .done
            frame := [q.tid.extractLsb' 8 8, q.tid.extractLsb' 0 8, 0x00#8, 0x00#8,
              len.extractLsb' 8 8, len.extractLsb' 0 8, q.unit] ++ q.pdu } }
        resp := some (0x0000#16 ++ BitVec.ofNat 16 (7 + q.pdu.length)) }) ∧
  (∀ s : State, s.blk.mtx.st = .opened → s.blk.mtx.pdu.length = 0 →
    exec .mtxEnd s =
      .next { s with blk := { s.blk with mtx := { s.blk.mtx with st := .idle } },
                     resp := some 0x05000000#32 }) ∧
  (∀ s : State, s.blk.mtx.st ≠ .opened →
    exec .mtxEnd s = .next { s with resp := some 0x02000000#32 })

/-- R163: MTX_BEGIN, MTX_BYTE of each PDU byte and MTX_END, with no other MTX command in between, answer OK and build the MBAP frame. -/
def Obligations.MbapFrameIsBuilt : Prop :=
  ∀ (s : State) (u : Byte) (h : Half) (p : List Byte) (l : List Instr),
    1 ≤ p.length → p.length ≤ 253 →
    onlyUnit .mtx l = .mtxBegin u h :: p.map Instr.mtxByte ++ [.mtxEnd] →
    ∃ t log, execAll l s = .next (t, log) ∧
      responsesOf .mtx log =
        List.replicate (p.length + 1) (some 0x00000000#32) ++
          [some (0x0000#16 ++ BitVec.ofNat 16 (7 + p.length))] ∧
      t.blk.mtx.st = .done ∧
      t.blk.mtx.frame =
        [h.extractLsb' 8 8, h.extractLsb' 0 8, 0x00#8, 0x00#8,
          (BitVec.ofNat 16 (1 + p.length)).extractLsb' 8 8,
          (BitVec.ofNat 16 (1 + p.length)).extractLsb' 0 8, u] ++ p

/-! ### MBAP deframer -/

/-- R180: MRX_BEGIN, in every state; the value is the new MR_ST. -/
def Obligations.MrxBeginResult : Prop :=
  (∀ w : Word, w.extractLsb' 24 8 = 0x28#8 →
    decode w = if w.extractLsb' 0 24 = 0x000000#24 then some .mrxBegin else none) ∧
  (∀ s : State, exec .mrxBegin s =
    .next { s with
      blk := { s.blk with
        mrx := { st := .header, hdr := [], tid := 0#16, proto := 0#16, lenf := 0#16, unit := 0#8,
                 res := .none, pdu := [] } }
      resp := some 0x00000001#32 })

/-- R181, R182: MRX_BYTE. In HEADER, before the seventh byte it only collects; at the seventh it latches the fields, checks the protocol id and then the length. In PDU the last byte ends the frame. In IDLE, DONE and ERROR it is refused and the byte is not consumed. The value is always the new MR_ST. -/
def Obligations.MrxByteResult : Prop :=
  (∀ w : Word, w.extractLsb' 24 8 = 0x29#8 →
    decode w = if w.extractLsb' 8 16 = 0x0000#16 then some (.mrxByte (w.extractLsb' 0 8)) else none) ∧
  (∀ (s : State) (b : Byte), s.blk.mrx.st = .header → s.blk.mrx.hdr.length ≠ 6 →
    exec (.mrxByte b) s =
      .next { s with blk := { s.blk with mrx := { s.blk.mrx with hdr := s.blk.mrx.hdr ++ [b] } },
                     resp := some 0x00000001#32 }) ∧
  (∀ (s : State) (b h0 h1 h2 h3 h4 h5 : Byte),
    s.blk.mrx.st = .header → s.blk.mrx.hdr = [h0, h1, h2, h3, h4, h5] →
    let q := { s.blk.mrx with
      hdr := [h0, h1, h2, h3, h4, h5, b], tid := h0 ++ h1, proto := h2 ++ h3, lenf := h4 ++ h5, unit := b }
    let len := (h4 ++ h5 : Half).toNat
    ((h2 ++ h3 : Half) ≠ 0x0000#16 → exec (.mrxByte b) s =
      .next { s with blk := { s.blk with mrx := { q with st := .error, res := .mbapBadProtocol } },
                     resp := some 0x20000004#32 }) ∧
    ((h2 ++ h3 : Half) = 0x0000#16 → (len < 2 ∨ 254 < len) → exec (.mrxByte b) s =
      .next { s with blk := { s.blk with mrx := { q with st := .error, res := .mbapBadLength } },
                     resp := some 0x21000004#32 }) ∧
    ((h2 ++ h3 : Half) = 0x0000#16 → 2 ≤ len → len ≤ 254 → exec (.mrxByte b) s =
      .next { s with blk := { s.blk with mrx := { q with st := .pdu } },
                     resp := some 0x00000002#32 })) ∧
  (∀ (s : State) (b : Byte), s.blk.mrx.st = .pdu → s.blk.mrx.pdu.length + 2 ≠ s.blk.mrx.lenf.toNat →
    exec (.mrxByte b) s =
      .next { s with blk := { s.blk with mrx := { s.blk.mrx with pdu := s.blk.mrx.pdu ++ [b] } },
                     resp := some 0x00000002#32 }) ∧
  (∀ (s : State) (b : Byte), s.blk.mrx.st = .pdu → s.blk.mrx.pdu.length + 2 = s.blk.mrx.lenf.toNat →
    exec (.mrxByte b) s =
      .next { s with
        blk := { s.blk with
          mrx := { s.blk.mrx with pdu := s.blk.mrx.pdu ++ [b], st := .done, res := .ok } }
        resp := some 0x00000003#32 }) ∧
  (∀ (s : State) (b : Byte), s.blk.mrx.st = .idle →
    exec (.mrxByte b) s = .next { s with resp := some 0x02000000#32 }) ∧
  (∀ (s : State) (b : Byte), s.blk.mrx.st = .done →
    exec (.mrxByte b) s = .next { s with resp := some 0x02000003#32 }) ∧
  (∀ (s : State) (b : Byte), s.blk.mrx.st = .error →
    exec (.mrxByte b) s = .next { s with resp := some 0x02000004#32 })

/-- R183: parsing a built MBAP frame gives its fields and its PDU back, with no other MRX command in between; the responses show HEADER, PDU and DONE. -/
def Obligations.MbapRoundTrip : Prop :=
  ∀ (s : State) (u : Byte) (h : Half) (p : List Byte) (l : List Instr),
    1 ≤ p.length → p.length ≤ 253 →
    onlyUnit .mrx l = .mrxBegin :: (mbapFrame h u p).map Instr.mrxByte →
    ∃ t log, execAll l s = .next (t, log) ∧
      responsesOf .mrx log =
        List.replicate 7 (some 0x00000001#32) ++ List.replicate p.length (some 0x00000002#32) ++
          [some 0x00000003#32] ∧
      t.blk.mrx.st = .done ∧ t.blk.mrx.res = .ok ∧ t.blk.mrx.tid = h ∧ t.blk.mrx.unit = u ∧
      t.blk.mrx.proto = 0x0000#16 ∧ t.blk.mrx.lenf.toNat = 1 + p.length ∧ t.blk.mrx.pdu = p

/-- R414 with R163 and R183: a host that parses a request and frames a reply with the transaction id and unit id it read builds a reply with the request's own. -/
def Obligations.RepliesEchoTheRequestHeader : Prop :=
  ∀ (s : State) (u : Byte) (h : Half) (p q : List Byte),
    1 ≤ p.length → p.length ≤ 253 → 1 ≤ q.length → q.length ≤ 253 →
    ∃ t log v log',
      execAll (.mrxBegin :: (mbapFrame h u p).map Instr.mrxByte) s = .next (t, log) ∧
      execAll (.mtxBegin t.blk.mrx.unit t.blk.mrx.tid :: q.map Instr.mtxByte ++ [.mtxEnd]) t =
        .next (v, log') ∧
      v.blk.mtx.frame = mbapFrame h u q ∧ v.blk.mrx.pdu = p

/-! ### Readback and control -/

/-- R206: NOP. -/
def Obligations.NopResult : Prop :=
  (∀ w : Word, w.extractLsb' 24 8 = 0x00#8 →
    decode w = if w.extractLsb' 0 24 = 0x000000#24 then some .nop else none) ∧
  (∀ s : State, exec .nop s = .next { s with resp := some 0x00000000#32 })

/-- R201 with the map R28: RD_REG's value for every selector, RANGE for the reserved ones, and what each reads after reset. The bits of STATUS, selector 0x00, are `StatusRegisterShowsTheUnits`. -/
def Obligations.RegisterReadResult : Prop :=
  (∀ w : Word, w.extractLsb' 24 8 = 0x80#8 →
    decode w = if w.extractLsb' 8 16 = 0x0000#16 then some (.rdReg (w.extractLsb' 0 8)) else none) ∧
  (∀ s : State,
    exec (.rdReg 0x00#8) s = .next { s with resp := some (0x0000#16 ++ statusWord s.blk) } ∧
    exec (.rdReg 0x01#8) s = .next { s with resp := some (0x0000#16 ++ s.blk.crc) } ∧
    exec (.rdReg 0x02#8) s = .next { s with resp := some (0x0000#16 ++ BitVec.ofNat 16 s.blk.rtx.buf.length) } ∧
    exec (.rdReg 0x03#8) s = .next { s with resp := some (0x0000#16 ++ BitVec.ofNat 16 s.blk.rrx.buf.length) } ∧
    exec (.rdReg 0x04#8) s = .next { s with resp := some (0x000000#24 ++ s.blk.rrx.unit) } ∧
    exec (.rdReg 0x05#8) s = .next { s with resp := some (0x000000#24 ++ s.blk.rrx.res.code) } ∧
    exec (.rdReg 0x06#8) s = .next { s with resp := some (0#23 ++ s.blk.rrx.plen) } ∧
    exec (.rdReg 0x07#8) s = .next { s with resp := some (0x0000#16 ++ s.blk.rrx.fcrc) } ∧
    exec (.rdReg 0x08#8) s = .next { s with resp := some (0x0000#16 ++ BitVec.ofNat 16 s.blk.mtx.frame.length) } ∧
    exec (.rdReg 0x09#8) s = .next { s with resp := some (0x0000#16 ++ s.blk.mtx.tid) } ∧
    exec (.rdReg 0x0A#8) s = .next { s with resp := some (0x000000#24 ++ s.blk.mtx.unit) } ∧
    exec (.rdReg 0x0B#8) s = .next { s with resp := some (0x0000#16 ++ BitVec.ofNat 16 s.blk.mtx.pdu.length) } ∧
    exec (.rdReg 0x0C#8) s = .next { s with resp := some (0x0000#16 ++ s.blk.mrx.tid) } ∧
    exec (.rdReg 0x0D#8) s = .next { s with resp := some (0x0000#16 ++ s.blk.mrx.proto) } ∧
    exec (.rdReg 0x0E#8) s = .next { s with resp := some (0x0000#16 ++ s.blk.mrx.lenf) } ∧
    exec (.rdReg 0x0F#8) s = .next { s with resp := some (0x000000#24 ++ s.blk.mrx.unit) } ∧
    exec (.rdReg 0x10#8) s = .next { s with resp := some (0x000000#24 ++ s.blk.mrx.res.code) } ∧
    exec (.rdReg 0x11#8) s = .next { s with resp := some (0x0000#16 ++ BitVec.ofNat 16 s.blk.mrx.hdr.length) } ∧
    exec (.rdReg 0x12#8) s = .next { s with resp := some (0x0000#16 ++ BitVec.ofNat 16 s.blk.mrx.pdu.length) }) ∧
  (∀ (s : State) (sel : Byte), 0x12 < sel.toNat →
    exec (.rdReg sel) s = .next { s with resp := some 0x04000000#32 }) ∧
  (∀ sel : Byte, sel.toNat ≤ 0x12 →
    exec (.rdReg sel) State.reset =
      .next { State.reset with
        resp := some (if sel = 0x01#8 then 0x0000FFFF#32
          else if sel = 0x05#8 ∨ sel = 0x10#8 then 0x000000FF#32 else 0x00000000#32) })

/-- R27: the STATUS view, bit field by bit field, as RD_REG selector 0x00 reads it. -/
def Obligations.StatusRegisterShowsTheUnits : Prop :=
  ∀ s : State, ∃ v : Half,
    exec (.rdReg 0x00#8) s = .next { s with resp := some (0x0000#16 ++ v) } ∧
    v.extractLsb' 0 2 = (match s.blk.rtx.st with | .idle => 0#2 | .opened => 1#2 | .done => 2#2) ∧
    v.extractLsb' 2 2 = (match s.blk.rrx.st with | .idle => 0#2 | .opened => 1#2 | .done => 2#2) ∧
    v.extractLsb' 4 2 = (match s.blk.mtx.st with | .idle => 0#2 | .opened => 1#2 | .done => 2#2) ∧
    v.extractLsb' 6 3 =
      (match s.blk.mrx.st with
        | .idle => 0#3 | .header => 1#3 | .pdu => 2#3 | .done => 3#3 | .error => 4#3) ∧
    v.getLsbD 9 = s.blk.rrx.ovf ∧ v.getLsbD 10 = s.blk.rrx.exc ∧ v.extractLsb' 11 5 = 0#5

/-- R202 to R205: the four buffer reads. An index below the length answers the byte; any other answers RANGE with value 0; nothing changes. In IDLE no byte of RT_BUF can be read, and before MTX_END succeeds none of MT_FRAME. -/
def Obligations.BufferReadResult : Prop :=
  (∀ w : Word, w.extractLsb' 24 8 = 0x81#8 →
    decode w = if w.extractLsb' 16 8 = 0x00#8 then some (.rdRtxb (w.extractLsb' 0 16)) else none) ∧
  (∀ w : Word, w.extractLsb' 24 8 = 0x82#8 →
    decode w = if w.extractLsb' 16 8 = 0x00#8 then some (.rdRrxb (w.extractLsb' 0 16)) else none) ∧
  (∀ w : Word, w.extractLsb' 24 8 = 0x83#8 →
    decode w = if w.extractLsb' 16 8 = 0x00#8 then some (.rdMtxb (w.extractLsb' 0 16)) else none) ∧
  (∀ w : Word, w.extractLsb' 24 8 = 0x84#8 →
    decode w = if w.extractLsb' 16 8 = 0x00#8 then some (.rdMrxb (w.extractLsb' 0 16)) else none) ∧
  (∀ (s : State) (i : Half) (c : Instr) (buf : List Byte),
    ((c, buf) = (.rdRtxb i, s.blk.rtx.buf) ∨ (c, buf) = (.rdRrxb i, s.blk.rrx.buf) ∨
      (c, buf) = (.rdMtxb i, s.blk.mtx.frame) ∨ (c, buf) = (.rdMrxb i, s.blk.mrx.pdu)) →
    (∀ (h : i.toNat < buf.length),
      exec c s = .next { s with resp := some (0x000000#24 ++ buf[i.toNat]) }) ∧
    (buf.length ≤ i.toNat → exec c s = .next { s with resp := some 0x04000000#32 })) ∧
  (∀ (s : State) (i : Half), State.Inv s → s.blk.rtx.st = .idle →
    exec (.rdRtxb i) s = .next { s with resp := some 0x04000000#32 }) ∧
  (∀ (s : State) (i : Half), State.Inv s → s.blk.mtx.st ≠ .done →
    exec (.rdMtxb i) s = .next { s with resp := some 0x04000000#32 })

/-! ### Invariants and whole-machine rules -/

/-- R39, R40: the machine after reset satisfies the invariant. -/
def Obligations.ResetSatisfiesTheInvariant : Prop :=
  State.Inv State.reset

/-- R40 with R30 to R35, R54 and R74: every step from every state that satisfies the invariant, on any host input, leaves it satisfied. -/
def Obligations.EveryStepKeepsTheInvariant : Prop :=
  ∀ s t : State, State.Inv s → step s = .next t → State.Inv t

/-- R21: in a state that satisfies the invariant every buffer is within its capacity and RR_PLEN within 0 to 253. -/
def Obligations.InvariantBoundsEveryBuffer : Prop :=
  ∀ s : State, State.Inv s →
    Memory.wf s.blk = true ∧ s.blk.rtx.buf.length ≤ 256 ∧ s.blk.rrx.buf.length ≤ 256 ∧
      s.blk.mtx.pdu.length ≤ 253 ∧ s.blk.mtx.frame.length ≤ 260 ∧ s.blk.mrx.hdr.length ≤ 7 ∧
      s.blk.mrx.pdu.length ≤ 253 ∧ s.blk.rrx.plen.toNat ≤ 253

/-- R401, last sentence: a unit that is not IDLE returns to IDLE by a command only where RTX_BYTE or MTX_BYTE overflows or RTX_END or MTX_END finds an empty PDU; the RRX and MRX units never do. -/
def Obligations.UnitsReturnToIdleOnlyByAborting : Prop :=
  ∀ (s t : State) (i : Instr), exec i s = .next t →
    (s.blk.rtx.st ≠ .idle → t.blk.rtx.st = .idle →
      (∃ b, i = .rtxByte b ∧ t.resp = some 0x03000000#32) ∨ (i = .rtxEnd ∧ t.resp = some 0x05000000#32)) ∧
    (s.blk.mtx.st ≠ .idle → t.blk.mtx.st = .idle →
      (∃ b, i = .mtxByte b ∧ t.resp = some 0x03000000#32) ∨ (i = .mtxEnd ∧ t.resp = some 0x05000000#32)) ∧
    (s.blk.rrx.st ≠ .idle → t.blk.rrx.st ≠ .idle) ∧
    (s.blk.mrx.st ≠ .idle → t.blk.mrx.st ≠ .idle)

/-- R401: CRC_INIT and the four BEGIN commands, in any order and from any state, leave every element at its reset value except the eight named. -/
def Obligations.BeginCommandsRestoreTheBlock : Prop :=
  ∀ (s : State) (u1 u2 u3 : Byte) (h : Half) (l : List Instr),
    l.Perm [.crcInit, .rtxBegin u1, .rrxBegin u2, .mtxBegin u3 h, .mrxBegin] →
    ∃ t log, execAll l s = .next (t, log) ∧
      t.blk =
        { crc := Block.reset.crc
          rtx := { Rtx.reset with st := .opened, buf := [u1] }
          rrx := { Rrx.reset with st := .opened, unit := u2 }
          mtx := { Mtx.reset with st := .opened, unit := u3, tid := h }
          mrx := { Mrx.reset with st := .header } }

/-- R402, R422, R423: a unit that is not open (after reset, after an overflow aborted its frame, or after a frame is done or failed) refuses every byte and END command until its BEGIN, whatever else runs, and nothing of it changes. -/
def Obligations.AClosedUnitRefusesUntilItsBegin : Prop :=
  ∀ (s t : State) (l : List Instr) (log : List Exchange), execAll l s = .next (t, log) →
    (s.blk.rtx.st ≠ .opened → (∀ u, Instr.rtxBegin u ∉ l) →
      t.blk.rtx = s.blk.rtx ∧ ∀ r ∈ responsesOf .rtx log, r = some 0x02000000#32) ∧
    (s.blk.rrx.st ≠ .opened → (∀ u, Instr.rrxBegin u ∉ l) →
      t.blk.rrx = s.blk.rrx ∧ ∀ r ∈ responsesOf .rrx log, r = some 0x02000000#32) ∧
    (s.blk.mtx.st ≠ .opened → (∀ u h, Instr.mtxBegin u h ∉ l) →
      t.blk.mtx = s.blk.mtx ∧ ∀ r ∈ responsesOf .mtx log, r = some 0x02000000#32) ∧
    (s.blk.mrx.st ≠ .header → s.blk.mrx.st ≠ .pdu → Instr.mrxBegin ∉ l →
      t.blk.mrx = s.blk.mrx ∧
        ∀ r ∈ responsesOf .mrx log, r = some (0x0200#16 ++ s.blk.mrx.st.code))

/-- R410: a host that keeps the serialisation duty, starting between transactions, never has an RTX or RRX command refused with BAD_STATE. The phases are the model's reading of R410 (log entry 15). -/
def Obligations.ASerialisedHostIsNeverRefused : Prop :=
  ∀ (s t : State) (l : List Instr) (log : List Exchange),
    execAll l s = .next (t, log) → serialised .free log = true →
    ∀ x ∈ log, unitOf x.1 = .rtx ∨ unitOf x.1 = .rrx →
      ∃ w, x.2 = some w ∧ w.extractLsb' 24 8 ≠ 0x02#8

/-! ### Assembler and consumer rules -/

/-- R78: the examples of the textual form, and operands out of range. -/
def Obligations.AssemblerExamples : Prop :=
  assembleText "CRC_BYTE 0x01".toList = some [0x02000001#32] ∧
  assembleText "RTX_BEGIN 0x11".toList = some [0x10110000#32] ∧
  assembleText "MTX_BEGIN 1, 0x0001".toList = some [0x20010001#32] ∧
  assembleText "RD_REG CRC".toList = some [0x80000001#32] ∧
  assembleText "RD_RTXB 6".toList = some [0x81000006#32] ∧
  assembleText "CRC_BYTE 256".toList = none ∧
  assembleText "RD_RTXB 65536".toList = none

/-- R78: a line assembles if and only if it is well formed, the line that writes a command assembles to that command, and a line that assembles to a command writes the operands that command's own line writes. Each register name of R28, in abstract syntax and in text, stands for the selector R28 gives it. -/
def Obligations.AssemblingALine : Prop :=
  (∀ l : AsmLine, (assembleLine l).isSome = l.wellFormed) ∧
  (∀ i : Instr, assembleLine i.toAsm = some i) ∧
  (∀ (l : AsmLine) (i : Instr), assembleLine l = some i →
    l.mnemonic = i.mnemonic ∧ l.operands.map operandValue = i.toAsm.operands.map operandValue) ∧
  (∀ row ∈ ([(.status, "STATUS", 0x00#8), (.crc, "CRC", 0x01#8), (.rtxLen, "RTX_LEN", 0x02#8),
      (.rrxLen, "RRX_LEN", 0x03#8), (.rrxUnit, "RRX_UNIT", 0x04#8), (.rrxResult, "RRX_RESULT", 0x05#8),
      (.rrxPdulen, "RRX_PDULEN", 0x06#8), (.rrxFcrc, "RRX_FCRC", 0x07#8), (.mtxLen, "MTX_LEN", 0x08#8),
      (.mtxTid, "MTX_TID", 0x09#8), (.mtxUnit, "MTX_UNIT", 0x0A#8), (.mtxPlen, "MTX_PLEN", 0x0B#8),
      (.mrxTid, "MRX_TID", 0x0C#8), (.mrxProto, "MRX_PROTO", 0x0D#8), (.mrxLenf, "MRX_LENF", 0x0E#8),
      (.mrxUnit, "MRX_UNIT", 0x0F#8), (.mrxResult, "MRX_RESULT", 0x10#8), (.mrxHcnt, "MRX_HCNT", 0x11#8),
      (.mrxPcnt, "MRX_PCNT", 0x12#8)] : List (RegName × String × Byte)),
    assembleLine ⟨.rdReg, [.reg row.1]⟩ = some (.rdReg row.2.2) ∧
      assembleText ("RD_REG " ++ row.2.1).toList = some [0x800000#24 ++ row.2.2])

/-- R79: the five pseudo-commands expand to the commands the table gives. That an empty list of bytes is accepted is the model's choice (log entry 11, DESIGN CHOICE). -/
def Obligations.PseudoCommandExpansions : Prop :=
  (∀ bs : List Byte, assembleStmt (.crcBlock (bs.map BitVec.toNat)) =
    some (.crcInit :: bs.map Instr.crcByte)) ∧
  (∀ (u : Byte) (p : List Byte), assembleStmt (.rtxFrame u.toNat (p.map BitVec.toNat)) =
    some (.rtxBegin u :: p.map Instr.rtxByte ++ [.rtxEnd])) ∧
  (∀ (u : Byte) (f : List Byte), assembleStmt (.rrxFrame u.toNat (f.map BitVec.toNat)) =
    some (.rrxBegin u :: f.map Instr.rrxByte ++ [.rrxEnd])) ∧
  (∀ (u : Byte) (h : Half) (p : List Byte),
    assembleStmt (.mtxFrame u.toNat h.toNat (p.map BitVec.toNat)) =
      some (.mtxBegin u h :: p.map Instr.mtxByte ++ [.mtxEnd])) ∧
  (∀ f : List Byte, assembleStmt (.mrxFeed (f.map BitVec.toNat)) = some (f.map Instr.mrxByte))

/-- R321: whatever RRX_END answers in OPEN, the host's controller has a reply PDU: the frame's PDU on OK, and the exception PDU with code 0x0B on every failure. -/
def Obligations.EveryReceptionHasAReply : Prop :=
  ∀ (s t : State) (fc : Byte) (pdu : List Byte), s.blk.rrx.st = .opened → exec .rrxEnd s = .next t →
    rtuReplyPdu fc pdu t.blk.rrx.res =
      some (if t.blk.rrx.res = .ok then pdu else [fc ||| 0x80#8, 0x0B#8])

/-- R86: the codec's bit fields. Unpacking a packed field gives the bits back and then only zeros, fewer than 8; the field is the ceiling of an eighth of the quantity. -/
def Obligations.PackedBitsUnpack : Prop :=
  ∀ bits : List Bool,
    (packBits bits).length = (bits.length + 7) / 8 ∧
      unpackBits (packBits bits) =
        bits ++ List.replicate (8 * ((bits.length + 7) / 8) - bits.length) false

/-- R87 over the layouts of R86: every PDU the codec's bounds allow has 1 to 252 bytes, both bounds are used up to 252, and that is within PDU_MAX. The clauses on responses rest on the model's reading that a response's bounds are its request's and that it holds the bits or registers asked for without padding (log entry 17, DEDUCED). -/
def Obligations.CodecPdusFit : Prop :=
  (∀ r : CodecRequest, r.inBounds = true → 1 ≤ (requestPdu r).length ∧ (requestPdu r).length ≤ 252) ∧
  (∀ r : CodecResponse, r.inBounds = true → 1 ≤ (responsePdu r).length ∧ (responsePdu r).length ≤ 252) ∧
  (∃ r : CodecRequest, r.inBounds = true ∧ (requestPdu r).length = 252) ∧
  (∃ r : CodecResponse, r.inBounds = true ∧ (responsePdu r).length = 252) ∧
  252 ≤ Config.pduMax
end

