-- ==== Sys2Proof/Laws/Decode.lean ====
section
/-! SUPPORT. The opcode map as data (30_encoding R71, R75), the fields of a command word (R70), and the operands' ranges (R78). -/

namespace Sys2Proof

/-- No OP stands in two rows. -/
theorem opcodeTable_ops_distinct : (opcodeTable.map (fun row => row.op)).Nodup := by decide

/-- No word fits two rows: their patterns differ in a bit both masks cover. -/
theorem opcodeTable_disjoint :
    opcodeTable.Pairwise (fun a b => a.pattern &&& b.mask ≠ b.pattern &&& a.mask) := by decide

/-- Every row's match is its OP in [31:24] and zero elsewhere (R73). -/
theorem opcodeTable_pattern : ∀ row ∈ opcodeTable, row.pattern = row.op ++ 0x000000#24 := by decide

/-- Every row's mask is its format's (R71). -/
theorem opcodeTable_mask : ∀ row ∈ opcodeTable, row.mask = row.mnemonic.format.mask := by decide

/-- 19 OP values are listed (R75), so 237 are not (R76). -/
theorem opcodeTable_length : opcodeTable.length = 19 := rfl

@[simp] theorem opField_commandWord (op u : Byte) (d : Half) : opField (commandWord op u d) = op := by
  unfold opField commandWord
  ext i hi
  simp only [BitVec.getElem_extractLsb', BitVec.getLsbD_append]
  have : ¬ 24 + i < 16 := by omega
  have : ¬ 24 + i - 16 < 8 := by omega
  have : 24 + i - 16 - 8 = i := by omega
  simp [*]

@[simp] theorem uField_commandWord (op u : Byte) (d : Half) : uField (commandWord op u d) = u := by
  unfold uField commandWord
  ext i hi
  simp only [BitVec.getElem_extractLsb', BitVec.getLsbD_append]
  have : ¬ 16 + i < 16 := by omega
  have : 16 + i - 16 = i := by omega
  simp [*]

@[simp] theorem dField_commandWord (op u : Byte) (d : Half) : dField (commandWord op u d) = d := by
  unfold dField commandWord
  ext i hi
  simp only [BitVec.getElem_extractLsb', BitVec.getLsbD_append, Nat.zero_add, hi, if_true]
  exact BitVec.getLsbD_eq_getElem hi

/-- A command word is its three fields (R70). -/
theorem commandWord_fields (w : Word) : commandWord (opField w) (uField w) (dField w) = w := by
  unfold commandWord opField uField dField
  ext i hi
  simp only [BitVec.getElem_append, BitVec.getElem_extractLsb']
  split
  · simp [BitVec.getLsbD_eq_getElem hi]
  · split <;> rw [← BitVec.getLsbD_eq_getElem hi] <;> congr 1 <;> omega

@[simp] theorem byteInD_low (b : Byte) : (byteInD b).extractLsb' 0 8 = b := by
  unfold byteInD
  ext i hi
  simp only [BitVec.getElem_extractLsb', BitVec.getLsbD_append, Nat.zero_add, hi, if_true]
  exact BitVec.getLsbD_eq_getElem hi

/-! ### Decoding by a word's OP, one lemma for all rows -/

/-- The decoder uses the row that has the word's OP (R73). -/
theorem decode_row {w : Word} {row : OpcodeRow} (h : row ∈ opcodeTable) (hop : opField w = row.op) :
    decode w =
      if w &&& row.mask = row.pattern then some (row.mnemonic.build (uField w) (dField w)) else none := by
  have key : ∀ r ∈ opcodeTable, opcodeTable.find? (fun x => x.op == r.op) = some r := by decide
  have hf : findRow w = some row := by
    unfold findRow
    rw [hop]
    exact key row h
  simp [decode, hf]

/-- A word with no row's OP is illegal (R73). -/
theorem decode_unlisted {w : Word} (h : ∀ row ∈ opcodeTable, row.op ≠ opField w) : decode w = none := by
  have hf : findRow w = none := by
    unfold findRow
    rw [List.find?_eq_none]
    intro r hr
    simpa using h r hr
  simp [decode, hf]

theorem commandWord_and (op u : Byte) (d : Half) (a b : Byte) (c : Half) :
    commandWord op u d &&& commandWord a b c = commandWord (op &&& a) (u &&& b) (d &&& c) := by
  unfold commandWord
  rw [← BitVec.and_append, ← BitVec.and_append]

theorem commandWord_inj {op u a b : Byte} {d c : Half} :
    commandWord op u d = commandWord a b c ↔ op = a ∧ u = b ∧ d = c := by
  constructor
  · intro h
    exact ⟨by simpa using congrArg opField h, by simpa using congrArg uField h,
      by simpa using congrArg dField h⟩
  · rintro ⟨rfl, rfl, rfl⟩
    rfl

/-- A half-word is its two bytes. -/
theorem half_bytes (d : Half) : (d.extractLsb' 8 8 ++ d.extractLsb' 0 8 : Half) = d := by
  ext i hi
  simp only [BitVec.getElem_append, BitVec.getElem_extractLsb']
  split
  · simp [BitVec.getLsbD_eq_getElem hi]
  · rw [← BitVec.getLsbD_eq_getElem hi]
    congr 1
    omega

/-- Two half-words are equal when their bytes are. -/
theorem half_ext {d e : Half} (hh : d.extractLsb' 8 8 = e.extractLsb' 8 8)
    (hl : d.extractLsb' 0 8 = e.extractLsb' 0 8) : d = e := by
  rw [← half_bytes d, ← half_bytes e, hh, hl]

/-- `D[15:8]` is zero exactly when masking it gives zero (formats B and S). -/
theorem half_high_zero (d : Half) : d &&& 0xFF00#16 = 0#16 ↔ d.extractLsb' 8 8 = 0#8 := by
  have hh : (d &&& 0xFF00#16).extractLsb' 8 8 = d.extractLsb' 8 8 := by
    rw [BitVec.extractLsb'_and]
    exact BitVec.and_allOnes
  have hl : (d &&& 0xFF00#16).extractLsb' 0 8 = 0#8 := by
    rw [BitVec.extractLsb'_and]
    exact BitVec.and_zero
  constructor
  · intro h
    rw [← hh, h]
    rfl
  · intro h
    exact half_ext (hh.trans h) hl

/-- The bits a format leaves to its operands are the only ones that may be set (R71). -/
def Format.fits (u : Byte) (d : Half) : Format → Prop
  | .n => u = 0#8 ∧ d = 0#16
  | .b | .s => u = 0#8 ∧ d.extractLsb' 8 8 = 0#8
  | .u => d = 0#16
  | .uh => True
  | .i => u = 0#8

/-- The masked comparison of R73 says that the must-be-zero bits of the format are zero. -/
theorem mask_iff_fits (f : Format) (op u : Byte) (d : Half) :
    commandWord op u d &&& f.mask = op ++ 0x000000#24 ↔ f.fits u d := by
  have hp : (op ++ 0x000000#24 : Word) = commandWord op 0#8 0#16 := by
    have : (0x000000#24) = (0#8 ++ 0#16 : BitVec 24) := by decide
    unfold commandWord
    rw [this]
    exact (BitVec.append_assoc (x₁ := op) (x₂ := 0#8) (x₃ := 0#16)).symm
  have hmask : f.mask = commandWord 0xFF#8 (opField (f.mask <<< 8)) (dField f.mask) := by
    cases f <;> decide
  have hones : op &&& 0xFF#8 = op := BitVec.and_allOnes
  have hu : u &&& 0xFF#8 = u := BitVec.and_allOnes
  have hd : d &&& 0xFFFF#16 = d := BitVec.and_allOnes
  rw [hp, hmask, commandWord_and, commandWord_inj, hones]
  cases f <;>
    simp [Format.fits, Format.mask, opField, dField, hu, hd, half_high_zero]

/-- A word whose must-be-zero bits are zero decodes to the command its fields build (R73). -/
theorem decode_fits {row : OpcodeRow} {u : Byte} {d : Half} (h : row ∈ opcodeTable)
    (hf : row.mnemonic.format.fits u d) :
    decode (commandWord row.op u d) = some (row.mnemonic.build u d) := by
  rw [decode_row h (opField_commandWord _ _ _), opcodeTable_mask row h, opcodeTable_pattern row h,
    if_pos ((mask_iff_fits _ _ _ _).mpr hf), uField_commandWord, dField_commandWord]

/-- A word with a must-be-zero bit set is illegal (R73). -/
theorem decode_misfits {row : OpcodeRow} {u : Byte} {d : Half} (h : row ∈ opcodeTable)
    (hf : ¬ row.mnemonic.format.fits u d) : decode (commandWord row.op u d) = none := by
  rw [decode_row h (opField_commandWord _ _ _), opcodeTable_mask row h, opcodeTable_pattern row h,
    if_neg (mt (mask_iff_fits _ _ _ _).mp hf)]

/-! ### Wider fields of a word as its three fields -/

/-- A field is zero exactly when each of its bits is. -/
theorem field_zero (w : Word) (lo n : Nat) :
    w.extractLsb' lo n = 0#n ↔ ∀ i, i < n → w.getLsbD (lo + i) = false := by
  constructor
  · intro h i hi
    have := congrArg (fun x => x.getLsbD i) h
    simpa [hi] using this
  · intro h
    ext i hi
    simpa using h i hi

/-- The bits of `D[7:0]` and `D[15:8]` are the word's. -/
theorem dField_byte (w : Word) (k : Nat) (hk : k + 8 ≤ 16) :
    (dField w).extractLsb' k 8 = w.extractLsb' k 8 := by
  unfold dField
  ext i hi
  have : k + i < 16 := by omega
  simp [this]

/-- `w[23:0]` is zero exactly when `U` and `D` are (format N). -/
theorem low24_zero (w : Word) : w.extractLsb' 0 24 = 0#24 ↔ uField w = 0#8 ∧ dField w = 0#16 := by
  unfold uField dField
  simp only [field_zero]
  constructor
  · intro h
    exact ⟨fun i hi => by simpa [← Nat.add_assoc] using h (16 + i) (by omega),
      fun i hi => h i (by omega)⟩
  · rintro ⟨hu, hd⟩ i hi
    by_cases h : i < 16
    · exact hd i h
    · have := hu (i - 16) (by omega)
      rwa [show 16 + (i - 16) = 0 + i by omega] at this

/-- `w[23:8]` is zero exactly when `U` and `D[15:8]` are (formats B and S). -/
theorem mid16_zero (w : Word) :
    w.extractLsb' 8 16 = 0#16 ↔ uField w = 0#8 ∧ (dField w).extractLsb' 8 8 = 0#8 := by
  rw [dField_byte w 8 (by omega)]
  unfold uField
  simp only [field_zero]
  constructor
  · intro h
    exact ⟨fun i hi => by simpa [← Nat.add_assoc] using h (8 + i) (by omega),
      fun i hi => h i (by omega)⟩
  · rintro ⟨hu, hd⟩ i hi
    by_cases h : i < 8
    · exact hd i h
    · have := hu (i - 8) (by omega)
      rwa [show 16 + (i - 8) = 8 + i by omega] at this

/-- Every command is well formed: its operand types are the ranges of R72. -/
theorem Laws.instr_wellFormed (i : Instr) : i.wellFormed = true := by
  cases i <;>
    simp [Instr.wellFormed, AsmLine.wellFormed, Instr.toAsm, Instr.mnemonic, Mnemonic.format,
      Format.accepts, AsmOperand.isByte, AsmOperand.isUnit, AsmOperand.isHalf, AsmOperand.isSelector] <;>
    omega

end Sys2Proof
end

