-- ==== Sys2Proof/Laws/State.lean ====
section
/-! SUPPORT. The writes to a unit, field by field: one lemma per field per update, so that no proof unfolds a record update. -/

namespace Sys2Proof.Machine

@[simp] theorem withCrc_crc (s : State) (c : Half) : (s.withCrc c).blk.crc = c := rfl
@[simp] theorem withCrc_rtx (s : State) (c : Half) : (s.withCrc c).blk.rtx = s.blk.rtx := rfl
@[simp] theorem withCrc_rrx (s : State) (c : Half) : (s.withCrc c).blk.rrx = s.blk.rrx := rfl
@[simp] theorem withCrc_mtx (s : State) (c : Half) : (s.withCrc c).blk.mtx = s.blk.mtx := rfl
@[simp] theorem withCrc_mrx (s : State) (c : Half) : (s.withCrc c).blk.mrx = s.blk.mrx := rfl
@[simp] theorem withCrc_pending (s : State) (c : Half) : (s.withCrc c).pending = s.pending := rfl
@[simp] theorem withCrc_resp (s : State) (c : Half) : (s.withCrc c).resp = s.resp := rfl

@[simp] theorem withRtx_crc (s : State) (u : Rtx) : (s.withRtx u).blk.crc = s.blk.crc := rfl
@[simp] theorem withRtx_rtx (s : State) (u : Rtx) : (s.withRtx u).blk.rtx = u := rfl
@[simp] theorem withRtx_rrx (s : State) (u : Rtx) : (s.withRtx u).blk.rrx = s.blk.rrx := rfl
@[simp] theorem withRtx_mtx (s : State) (u : Rtx) : (s.withRtx u).blk.mtx = s.blk.mtx := rfl
@[simp] theorem withRtx_mrx (s : State) (u : Rtx) : (s.withRtx u).blk.mrx = s.blk.mrx := rfl
@[simp] theorem withRtx_pending (s : State) (u : Rtx) : (s.withRtx u).pending = s.pending := rfl
@[simp] theorem withRtx_resp (s : State) (u : Rtx) : (s.withRtx u).resp = s.resp := rfl

@[simp] theorem withRrx_crc (s : State) (u : Rrx) : (s.withRrx u).blk.crc = s.blk.crc := rfl
@[simp] theorem withRrx_rtx (s : State) (u : Rrx) : (s.withRrx u).blk.rtx = s.blk.rtx := rfl
@[simp] theorem withRrx_rrx (s : State) (u : Rrx) : (s.withRrx u).blk.rrx = u := rfl
@[simp] theorem withRrx_mtx (s : State) (u : Rrx) : (s.withRrx u).blk.mtx = s.blk.mtx := rfl
@[simp] theorem withRrx_mrx (s : State) (u : Rrx) : (s.withRrx u).blk.mrx = s.blk.mrx := rfl
@[simp] theorem withRrx_pending (s : State) (u : Rrx) : (s.withRrx u).pending = s.pending := rfl
@[simp] theorem withRrx_resp (s : State) (u : Rrx) : (s.withRrx u).resp = s.resp := rfl

@[simp] theorem withMtx_crc (s : State) (u : Mtx) : (s.withMtx u).blk.crc = s.blk.crc := rfl
@[simp] theorem withMtx_rtx (s : State) (u : Mtx) : (s.withMtx u).blk.rtx = s.blk.rtx := rfl
@[simp] theorem withMtx_rrx (s : State) (u : Mtx) : (s.withMtx u).blk.rrx = s.blk.rrx := rfl
@[simp] theorem withMtx_mtx (s : State) (u : Mtx) : (s.withMtx u).blk.mtx = u := rfl
@[simp] theorem withMtx_mrx (s : State) (u : Mtx) : (s.withMtx u).blk.mrx = s.blk.mrx := rfl
@[simp] theorem withMtx_pending (s : State) (u : Mtx) : (s.withMtx u).pending = s.pending := rfl
@[simp] theorem withMtx_resp (s : State) (u : Mtx) : (s.withMtx u).resp = s.resp := rfl

@[simp] theorem withMrx_crc (s : State) (u : Mrx) : (s.withMrx u).blk.crc = s.blk.crc := rfl
@[simp] theorem withMrx_rtx (s : State) (u : Mrx) : (s.withMrx u).blk.rtx = s.blk.rtx := rfl
@[simp] theorem withMrx_rrx (s : State) (u : Mrx) : (s.withMrx u).blk.rrx = s.blk.rrx := rfl
@[simp] theorem withMrx_mtx (s : State) (u : Mrx) : (s.withMrx u).blk.mtx = s.blk.mtx := rfl
@[simp] theorem withMrx_mrx (s : State) (u : Mrx) : (s.withMrx u).blk.mrx = u := rfl
@[simp] theorem withMrx_pending (s : State) (u : Mrx) : (s.withMrx u).pending = s.pending := rfl
@[simp] theorem withMrx_resp (s : State) (u : Mrx) : (s.withMrx u).resp = s.resp := rfl

@[simp] theorem withCrc_withRtx_blk (s : State) (c : Half) (u : Rtx) :
    ((s.withCrc c).withRtx u).blk = { s.blk with crc := c, rtx := u } := rfl

end Sys2Proof.Machine
end

