-- ==== Sys2Proof/Laws/Ops.lean ====
section
/-! SUPPORT. What each shared operation can do, said once: how a command ends, the response word's fields, the byte splits, the CRC functions and the buffers. -/

namespace Sys2Proof.Machine

/-! ### How a command ends -/

/-- `respond` always answers a next state: the one given, with the response word set. -/
theorem respond_eq (s : State) (r : ResultCode) (v : Half) :
    respond s r v = .next { s with resp := some (responseWord r v) } := rfl

/-- If `respond` answers `t`, then `t` is the state given with the response word set. -/
theorem respond_next {s t : State} {r : ResultCode} {v : Half} (h : respond s r v = .next t) :
    t = { s with resp := some (responseWord r v) } := by
  rw [respond_eq] at h
  exact (Host.Outcome.next.inj h).symm

/-- `raise` answers a next state that differs in the response word only. -/
theorem raise_eq (s : State) (r : ResultCode) :
    raise s r = .next { s with resp := some (responseWord r 0#16) } := rfl

/-- If `raise` answers `t`, nothing but the response word has changed. -/
theorem raise_next {s t : State} {r : ResultCode} (h : raise s r = .next t) :
    t = { s with resp := some (responseWord r 0#16) } := respond_next h

/-- A read ends with the datum, or with RANGE and value 0; nothing else changes. -/
theorem respondRead_next {s t : State} {o : Option Half} (h : respondRead s o = .next t) :
    (∃ v, o = some v ∧ t = { s with resp := some (responseWord .ok v) }) ∨
      (o = none ∧ t = { s with resp := some (responseWord .range 0#16) }) := by
  cases o with
  | none => exact .inr ⟨rfl, raise_next h⟩
  | some v => exact .inl ⟨v, rfl, respond_next h⟩

/-- The end of a received frame: RRX is DONE with the result, which is also the response's code. -/
theorem finishRrx_eq (s : State) (u : Rrx) (r : ResultCode) :
    finishRrx s u r =
      .next { s.withRrx { u with st := .done, res := r } with
        resp := some (responseWord r (u.plen.setWidth 16)) } := rfl

/-- Every end of MRX_BYTE writes the MRX unit and answers with its state. -/
theorem answerMrx_eq (s : State) (u : Mrx) (r : ResultCode) :
    answerMrx s u r = .next { s.withMrx u with resp := some (responseWord r u.st.code) } := rfl

/-! ### The response word (R74) -/

@[simp] theorem responseWord_result (r : ResultCode) (v : Half) :
    (responseWord r v).extractLsb' 24 8 = r.code := by
  unfold responseWord
  ext i hi
  simp only [BitVec.getElem_extractLsb', BitVec.getLsbD_append]
  have : ¬ 24 + i < 16 := by omega
  have : ¬ 24 + i - 16 < 8 := by omega
  have : 24 + i - 16 - 8 = i := by omega
  simp [*]

@[simp] theorem responseWord_zero (r : ResultCode) (v : Half) :
    (responseWord r v).extractLsb' 16 8 = 0#8 := by
  unfold responseWord
  ext i hi
  simp only [BitVec.getElem_extractLsb', BitVec.getLsbD_append]
  have : ¬ 16 + i < 16 := by omega
  have : 16 + i - 16 = i := by omega
  simp [*]

@[simp] theorem responseWord_value (r : ResultCode) (v : Half) :
    (responseWord r v).extractLsb' 0 16 = v := by
  unfold responseWord
  ext i hi
  simp only [BitVec.getElem_extractLsb', BitVec.getLsbD_append, Nat.zero_add, hi, if_true]
  exact BitVec.getLsbD_eq_getElem hi

/-- No two results have one code (R300). -/
theorem code_injective : ∀ r r' : ResultCode, r.code = r'.code → r = r' := by
  intro r r'
  cases r <;> cases r' <;> decide

/-! ### Byte splits (R11) -/

@[simp] theorem be16_hi8_lo8 (h : Half) : be16 (hi8 h) (lo8 h) = h := by
  unfold be16 hi8 lo8
  ext i hi
  simp only [BitVec.getElem_append, BitVec.getElem_extractLsb']
  split
  · simp [BitVec.getLsbD_eq_getElem hi]
  · rw [← BitVec.getLsbD_eq_getElem hi]
    congr 1
    omega

@[simp] theorem le16_lo8_hi8 (h : Half) : le16 (lo8 h) (hi8 h) = h := be16_hi8_lo8 h

/-! ### CRC functions -/

@[simp] theorem crcShift_zero : crcShift 0#16 = 0#16 := by decide

@[simp] theorem crcShifts_zero (n : Nat) : crcShifts n 0#16 = 0#16 := by
  induction n with
  | zero => rfl
  | succ n ih => simp [crcShifts, ih]

/-- The bit shifted out decides bit 15 of the shifted register: the generator has it set. -/
theorem crcShift_msb (c : Half) : (crcShift c).getLsbD 15 = c.getLsbD 0 := by
  unfold crcShift
  cases h : c.getLsbD 0 <;> simp [Config.crcGenerator, BitVec.getLsbD_of_ge]

/-- A shift loses nothing: the register before it can be read back. -/
theorem crcShift_injective {c d : Half} (h : crcShift c = crcShift d) : c = d := by
  have h0 : c.getLsbD 0 = d.getLsbD 0 := by rw [← crcShift_msb, ← crcShift_msb, h]
  have hs : c >>> 1 = d >>> 1 := by
    unfold crcShift at h
    rw [h0] at h
    split at h
    · exact (BitVec.xor_left_inj _).mp h
    · exact h
  ext i hi
  rw [← BitVec.getLsbD_eq_getElem, ← BitVec.getLsbD_eq_getElem]
  cases i with
  | zero => exact h0
  | succ i =>
    have := congrArg (fun x => x.getLsbD i) hs
    simpa [Nat.add_comm] using this

theorem crcShifts_injective (n : Nat) {c d : Half} (h : crcShifts n c = crcShifts n d) : c = d := by
  induction n generalizing c d with
  | zero => exact h
  | succ n ih => exact crcShift_injective (ih h)

/-- A byte in the high half comes down unchanged in 8 shifts: no bit shifted out is 1. -/
theorem crcShifts_high : ∀ b : Byte, crcShifts 8 (b ++ 0#8 : Half) = b.setWidth 16 := by decide

@[simp] theorem crc16_nil : crc16 [] = 0xFFFF#16 := rfl

theorem crc16_append (as bs : List Byte) : crc16 (as ++ bs) = bs.foldl crcStep (crc16 as) := by
  simp [crc16, List.foldl_append]

/-! ### Buffers -/

/-- A byte appended to a buffer below its capacity leaves it within its capacity. -/
theorem append_within {cap : Nat} {l : List Byte} (b : Byte) (h : l.length < cap) :
    (l ++ [b]).length ≤ cap := by
  simp
  omega

/-- Memory after reset has its canonical form: every buffer within its capacity. -/
theorem reset_memory_wf : Memory.wf State.reset.blk = true := by decide

/-- The canonical form of the block's memory, buffer by buffer. -/
theorem memory_wf_iff (b : Block) : Memory.wf b = true ↔
    b.rtx.buf.length ≤ 256 ∧ b.rrx.buf.length ≤ 256 ∧ b.mtx.pdu.length ≤ 253 ∧
      b.mtx.frame.length ≤ 260 ∧ b.mrx.hdr.length ≤ 7 ∧ b.mrx.pdu.length ≤ 253 := by
  simp only [Memory.wf, Bool.and_eq_true, decide_eq_true_eq, and_assoc]
  rfl

/-- Writing the RTX unit keeps the canonical form if the new buffer is within its capacity. -/
theorem withRtx_memory_wf {s : State} {u : Rtx} (h : Memory.wf s.blk = true) (hu : u.buf.length ≤ 256) :
    Memory.wf (s.withRtx u).blk = true := by
  rw [memory_wf_iff] at h ⊢
  exact ⟨hu, h.2⟩

/-- Writing the RRX unit keeps the canonical form if the new buffer is within its capacity. -/
theorem withRrx_memory_wf {s : State} {u : Rrx} (h : Memory.wf s.blk = true) (hu : u.buf.length ≤ 256) :
    Memory.wf (s.withRrx u).blk = true := by
  rw [memory_wf_iff] at h ⊢
  exact ⟨h.1, hu, h.2.2⟩

/-- Writing the MTX unit keeps the canonical form if the new buffers are within their capacities. -/
theorem withMtx_memory_wf {s : State} {u : Mtx} (h : Memory.wf s.blk = true) (hp : u.pdu.length ≤ 253)
    (hf : u.frame.length ≤ 260) : Memory.wf (s.withMtx u).blk = true := by
  rw [memory_wf_iff] at h ⊢
  exact ⟨h.1, h.2.1, hp, hf, h.2.2.2.2⟩

/-- Writing the MRX unit keeps the canonical form if the new buffers are within their capacities. -/
theorem withMrx_memory_wf {s : State} {u : Mrx} (h : Memory.wf s.blk = true) (hh : u.hdr.length ≤ 7)
    (hp : u.pdu.length ≤ 253) : Memory.wf (s.withMrx u).blk = true := by
  rw [memory_wf_iff] at h ⊢
  exact ⟨h.1, h.2.1, h.2.2.1, h.2.2.2.1, hh, hp⟩

/-- Writing the CRC register leaves the memory alone. -/
theorem withCrc_memory_wf {s : State} (c : Half) (h : Memory.wf s.blk = true) :
    Memory.wf (s.withCrc c).blk = true := by
  rw [memory_wf_iff] at h ⊢
  exact h

@[simp] theorem mbapHeader_length (h len : Half) (u : Byte) : (mbapHeader h len u).length = 7 := rfl

@[simp] theorem mbapFrame_length (h : Half) (u : Byte) (p : List Byte) :
    (mbapFrame h u p).length = 7 + p.length := by
  simp [mbapFrame]

@[simp] theorem rtuFrame_length (u : Byte) (p : List Byte) :
    (rtuFrame u p).length = p.length + 3 := by
  simp [rtuFrame, crcTrailer]

/-- A buffer read below the length gives the byte, zero-extended. -/
theorem readBuffer_below {buf : List Byte} {i : Half} (h : i.toNat < buf.length) :
    readBuffer buf i = some (buf[i.toNat].setWidth 16) := by
  simp [readBuffer, h]

/-- A buffer read at or past the length gives nothing. -/
theorem readBuffer_past {buf : List Byte} {i : Half} (h : buf.length ≤ i.toNat) :
    readBuffer buf i = none := by
  simp [readBuffer, h]

end Sys2Proof.Machine
end

