-- ==== Sys2Proof/Laws/Exec.lean ====
section
/-! SUPPORT. One inversion lemma per command with cases: if it answers `t`, then one of the listed cases holds, guards included. The provers cite these instead of unfolding a meaning. -/

namespace Sys2Proof.Machine

/-- The response word set in a state: how every command ends. -/
def answered (s : State) (r : ResultCode) (v : Half) : State :=
  { s with resp := some (responseWord r v) }

@[simp] theorem answered_blk (s : State) (r : ResultCode) (v : Half) : (answered s r v).blk = s.blk := rfl
@[simp] theorem answered_pending (s : State) (r : ResultCode) (v : Half) :
    (answered s r v).pending = s.pending := rfl
@[simp] theorem answered_resp (s : State) (r : ResultCode) (v : Half) :
    (answered s r v).resp = some (responseWord r v) := rfl

theorem respond_answered (s : State) (r : ResultCode) (v : Half) : respond s r v = .next (answered s r v) := rfl
theorem raise_answered (s : State) (r : ResultCode) : raise s r = .next (answered s r 0#16) := rfl

/-- RTX_BYTE refuses, aborts on overflow, or appends (R121). -/
theorem execRtxByte_cases {s t : State} {b : Byte} (h : execRtxByte b s = .next t) :
    (s.blk.rtx.st ≠ .opened ∧ t = answered s .badState 0#16) ∨
    (s.blk.rtx.st = .opened ∧ s.blk.rtx.buf.length = 254 ∧
      t = answered (s.withRtx ⟨.idle, []⟩) .overflow 0#16) ∨
    (s.blk.rtx.st = .opened ∧ s.blk.rtx.buf.length ≠ 254 ∧
      t = answered (s.withRtx ⟨.opened, s.blk.rtx.buf ++ [b]⟩) .ok 0#16) := by
  unfold execRtxByte at h
  split at h
  · exact .inl ⟨‹_›, raise_next h⟩
  · rename_i ho
    have ho := not_not.mp ho
    split at h
    · exact .inr (.inl ⟨ho, ‹_›, respond_next h⟩)
    · exact .inr (.inr ⟨ho, ‹_›, by rw [← ho]; exact respond_next h⟩)

/-- RTX_END refuses, aborts an empty PDU, or closes the frame (R122). -/
theorem execRtxEnd_cases {s t : State} (h : execRtxEnd s = .next t) :
    (s.blk.rtx.st ≠ .opened ∧ t = answered s .badState 0#16) ∨
    (s.blk.rtx.st = .opened ∧ s.blk.rtx.buf.length < 2 ∧
      t = answered (s.withRtx ⟨.idle, []⟩) .empty 0#16) ∨
    (s.blk.rtx.st = .opened ∧ 2 ≤ s.blk.rtx.buf.length ∧
      t = answered ((s.withCrc (crc16 s.blk.rtx.buf)).withRtx
        ⟨.done, s.blk.rtx.buf ++ crcTrailer (crc16 s.blk.rtx.buf)⟩) .ok (crc16 s.blk.rtx.buf)) := by
  unfold execRtxEnd at h
  split at h
  · exact .inl ⟨‹_›, raise_next h⟩
  · rename_i ho
    have ho := not_not.mp ho
    split at h
    · exact .inr (.inl ⟨ho, ‹_›, respond_next h⟩)
    · exact .inr (.inr ⟨ho, by omega, respond_next h⟩)

/-- RRX_BYTE refuses, discards the byte and sets RR_OVF, or appends (R145). -/
theorem execRrxByte_cases {s t : State} {b : Byte} (h : execRrxByte b s = .next t) :
    (s.blk.rrx.st ≠ .opened ∧ t = answered s .badState 0#16) ∨
    (s.blk.rrx.st = .opened ∧ s.blk.rrx.buf.length = 256 ∧
      t = answered (s.withRrx { s.blk.rrx with ovf := true }) .overflow 0#16) ∨
    (s.blk.rrx.st = .opened ∧ s.blk.rrx.buf.length ≠ 256 ∧
      t = answered (s.withRrx { s.blk.rrx with buf := s.blk.rrx.buf ++ [b] }) .ok 0#16) := by
  unfold execRrxByte at h
  split at h
  · exact .inl ⟨‹_›, raise_next h⟩
  · rename_i ho
    have ho := not_not.mp ho
    split at h
    · exact .inr (.inl ⟨ho, ‹_›, respond_next h⟩)
    · exact .inr (.inr ⟨ho, ‹_›, respond_next h⟩)

/-- The content checks end in an address mismatch, a CRC mismatch, or an accepted frame (R146). -/
theorem checkFrame_cases {s t : State} (h : checkFrame s = .next t) :
    (byteAt s.blk.rrx.buf 0 ≠ s.blk.rrx.unit ∧
      t = answered ((s.withCrc (receivedCrc s.blk.rrx.buf)).withRrx
        { s.blk.rrx with st := .done, res := .rtuAddrMismatch, fcrc := carriedCrc s.blk.rrx.buf })
        .rtuAddrMismatch (s.blk.rrx.plen.setWidth 16)) ∨
    (byteAt s.blk.rrx.buf 0 = s.blk.rrx.unit ∧ receivedCrc s.blk.rrx.buf ≠ carriedCrc s.blk.rrx.buf ∧
      t = answered ((s.withCrc (receivedCrc s.blk.rrx.buf)).withRrx
        { s.blk.rrx with st := .done, res := .rtuCrcMismatch, fcrc := carriedCrc s.blk.rrx.buf })
        .rtuCrcMismatch (s.blk.rrx.plen.setWidth 16)) ∨
    (byteAt s.blk.rrx.buf 0 = s.blk.rrx.unit ∧ receivedCrc s.blk.rrx.buf = carriedCrc s.blk.rrx.buf ∧
      t = answered ((s.withCrc (receivedCrc s.blk.rrx.buf)).withRrx
        { s.blk.rrx with
          st := .done, res := .ok, fcrc := carriedCrc s.blk.rrx.buf
          plen := BitVec.ofNat 9 (s.blk.rrx.buf.length - 3)
          exc := isExceptionCode (byteAt s.blk.rrx.buf 1) })
        .ok ((BitVec.ofNat 9 (s.blk.rrx.buf.length - 3)).setWidth 16)) := by
  unfold checkFrame at h
  dsimp only at h
  split at h
  · exact .inl ⟨‹_›, respond_next h⟩
  · rename_i ha
    have ha := not_not.mp ha
    split at h
    · exact .inr (.inl ⟨ha, ‹_›, respond_next h⟩)
    · rename_i hc
      exact .inr (.inr ⟨ha, not_not.mp hc, respond_next h⟩)

/-- RRX_END refuses, fails a size check, or goes on to the content checks (R146). -/
theorem execRrxEnd_cases {s t : State} (h : execRrxEnd s = .next t) :
    (s.blk.rrx.st ≠ .opened ∧ t = answered s .badState 0#16) ∨
    (s.blk.rrx.st = .opened ∧
      ((s.blk.rrx.buf.length = 0 ∧
        t = answered (s.withRrx { s.blk.rrx with st := .done, res := .rtuNoReply })
          .rtuNoReply (s.blk.rrx.plen.setWidth 16)) ∨
      (s.blk.rrx.buf.length ≠ 0 ∧ s.blk.rrx.ovf = true ∧
        t = answered (s.withRrx { s.blk.rrx with st := .done, res := .rtuOverrun })
          .rtuOverrun (s.blk.rrx.plen.setWidth 16)) ∨
      (s.blk.rrx.buf.length ≠ 0 ∧ s.blk.rrx.ovf = false ∧ s.blk.rrx.buf.length < 4 ∧
        t = answered (s.withRrx { s.blk.rrx with st := .done, res := .rtuShort })
          .rtuShort (s.blk.rrx.plen.setWidth 16)) ∨
      (s.blk.rrx.ovf = false ∧ 4 ≤ s.blk.rrx.buf.length ∧ checkFrame s = .next t))) := by
  unfold execRrxEnd at h
  split at h
  · exact .inl ⟨‹_›, raise_next h⟩
  · rename_i ho
    refine .inr ⟨not_not.mp ho, ?_⟩
    split at h
    · exact .inl ⟨‹_›, respond_next h⟩
    · split at h
      · exact .inr (.inl ⟨‹_›, ‹_›, respond_next h⟩)
      · rename_i hov
        have hov : s.blk.rrx.ovf = false := by simpa using hov
        split at h
        · exact .inr (.inr (.inl ⟨‹_›, hov, ‹_›, respond_next h⟩))
        · rename_i hl
          exact .inr (.inr (.inr ⟨hov, Nat.not_lt.mp hl, h⟩))

/-- MTX_BYTE refuses, aborts on overflow, or appends (R161). -/
theorem execMtxByte_cases {s t : State} {b : Byte} (h : execMtxByte b s = .next t) :
    (s.blk.mtx.st ≠ .opened ∧ t = answered s .badState 0#16) ∨
    (s.blk.mtx.st = .opened ∧ s.blk.mtx.pdu.length = 253 ∧
      t = answered (s.withMtx { s.blk.mtx with st := .idle, pdu := [] }) .overflow 0#16) ∨
    (s.blk.mtx.st = .opened ∧ s.blk.mtx.pdu.length ≠ 253 ∧
      t = answered (s.withMtx { s.blk.mtx with pdu := s.blk.mtx.pdu ++ [b] }) .ok 0#16) := by
  unfold execMtxByte at h
  split at h
  · exact .inl ⟨‹_›, raise_next h⟩
  · rename_i ho
    have ho := not_not.mp ho
    split at h
    · exact .inr (.inl ⟨ho, ‹_›, respond_next h⟩)
    · exact .inr (.inr ⟨ho, ‹_›, respond_next h⟩)

/-- MTX_END refuses, aborts an empty PDU, or builds the frame (R162). -/
theorem execMtxEnd_cases {s t : State} (h : execMtxEnd s = .next t) :
    (s.blk.mtx.st ≠ .opened ∧ t = answered s .badState 0#16) ∨
    (s.blk.mtx.st = .opened ∧ s.blk.mtx.pdu.length = 0 ∧
      t = answered (s.withMtx { s.blk.mtx with st := .idle }) .empty 0#16) ∨
    (s.blk.mtx.st = .opened ∧ s.blk.mtx.pdu.length ≠ 0 ∧
      t = answered (s.withMtx
        { s.blk.mtx with
          st := .done
          frame := mbapFrame s.blk.mtx.tid s.blk.mtx.unit s.blk.mtx.pdu })
        .ok (BitVec.ofNat 16 (7 + s.blk.mtx.pdu.length))) := by
  unfold execMtxEnd at h
  split at h
  · exact .inl ⟨‹_›, raise_next h⟩
  · rename_i ho
    have ho := not_not.mp ho
    split at h
    · exact .inr (.inl ⟨ho, ‹_›, respond_next h⟩)
    · exact .inr (.inr ⟨ho, ‹_›, respond_next h⟩)

/-- The header checks end in a bad protocol, a bad length, or the PDU state (R181, R182). -/
theorem checkHeader_cases {s t : State} {u : Mrx} (h : checkHeader s u = .next t) :
    (u.proto ≠ 0#16 ∧
      t = answered (s.withMrx { u with st := .error, res := .mbapBadProtocol }) .mbapBadProtocol 4#16) ∨
    (u.proto = 0#16 ∧ (u.lenf.toNat < 2 ∨ 254 < u.lenf.toNat) ∧
      t = answered (s.withMrx { u with st := .error, res := .mbapBadLength }) .mbapBadLength 4#16) ∨
    (u.proto = 0#16 ∧ 2 ≤ u.lenf.toNat ∧ u.lenf.toNat ≤ 254 ∧
      t = answered (s.withMrx { u with st := .pdu }) .ok 2#16) := by
  unfold checkHeader at h
  split at h
  · exact .inl ⟨‹_›, respond_next h⟩
  · rename_i hp
    have hp := not_not.mp hp
    split at h
    · exact .inr (.inl ⟨hp, ‹_›, respond_next h⟩)
    · rename_i hl
      simp only [not_or, Nat.not_lt] at hl
      exact .inr (.inr ⟨hp, hl.1, hl.2, respond_next h⟩)

/-- MRX_BYTE refuses, collects a header byte, goes on to the header checks, collects a PDU byte, or ends the frame (R181). -/
theorem execMrxByte_cases {s t : State} {b : Byte} (h : execMrxByte b s = .next t) :
    (s.blk.mrx.st ≠ .header ∧ s.blk.mrx.st ≠ .pdu ∧ t = answered s .badState s.blk.mrx.st.code) ∨
    (s.blk.mrx.st = .header ∧ s.blk.mrx.hdr.length ≠ 6 ∧
      t = answered (s.withMrx { s.blk.mrx with hdr := s.blk.mrx.hdr ++ [b] }) .ok 1#16) ∨
    (s.blk.mrx.st = .header ∧ s.blk.mrx.hdr.length = 6 ∧
      checkHeader s (latchHeader s.blk.mrx (s.blk.mrx.hdr ++ [b])) = .next t) ∨
    (s.blk.mrx.st = .pdu ∧ s.blk.mrx.pdu.length + 2 ≠ s.blk.mrx.lenf.toNat ∧
      t = answered (s.withMrx { s.blk.mrx with pdu := s.blk.mrx.pdu ++ [b] }) .ok 2#16) ∨
    (s.blk.mrx.st = .pdu ∧ s.blk.mrx.pdu.length + 2 = s.blk.mrx.lenf.toNat ∧
      t = answered (s.withMrx { s.blk.mrx with pdu := s.blk.mrx.pdu ++ [b], st := .done, res := .ok })
        .ok 3#16) := by
  unfold execMrxByte at h
  split at h <;> rename_i hs
  · unfold mrxHeaderByte at h
    simp only [List.length_append, List.length_singleton, Config.mbapHeaderLen] at h
    split at h
    · exact .inr (.inr (.inl ⟨hs, by omega, h⟩))
    · refine .inr (.inl ⟨hs, by omega, ?_⟩)
      rw [respond_next h]
      simp [answered, hs, ParseSt.code]
  · unfold mrxPduByte at h
    simp only [List.length_append, List.length_singleton] at h
    split at h
    · exact .inr (.inr (.inr (.inr ⟨hs, by omega, respond_next h⟩)))
    · refine .inr (.inr (.inr (.inl ⟨hs, by omega, ?_⟩)))
      rw [respond_next h]
      simp [answered, hs, ParseSt.code]
  all_goals exact .inl ⟨by rw [hs]; decide, by rw [hs]; decide, respond_next h⟩

end Sys2Proof.Machine
end

