-- ==== Sys2Proof/Laws/PerInstr.lean ====
section
/-! SUPPORT. Statements for all commands, one lemma per constructor. -/

namespace Sys2Proof.Laws.EncodesInItsRow

/-- The word of a command lies in the opcode-map row of its mnemonic, the row the decoder finds by its OP, and the word's operand fields build the command again (R72, R73, R75). -/
def Statement (i : Instr) : Prop :=
  ∃ row, findRow (encode i) = some row ∧ row.mnemonic = i.mnemonic ∧
    row.mnemonic.build (uField (encode i)) (dField (encode i)) = i

theorem nop : Statement .nop := ⟨_, rfl, rfl, rfl⟩
theorem crcInit : Statement .crcInit := ⟨_, rfl, rfl, rfl⟩
theorem rtxEnd : Statement .rtxEnd := ⟨_, rfl, rfl, rfl⟩
theorem rrxEnd : Statement .rrxEnd := ⟨_, rfl, rfl, rfl⟩
theorem mtxEnd : Statement .mtxEnd := ⟨_, rfl, rfl, rfl⟩
theorem mrxBegin : Statement .mrxBegin := ⟨_, rfl, rfl, rfl⟩

theorem crcByte (b : Byte) : Statement (.crcByte b) :=
  ⟨_, by simp only [findRow, encode, opField_commandWord]; rfl, rfl, by simp [encode, Mnemonic.build]⟩
theorem rtxBegin (u : Byte) : Statement (.rtxBegin u) :=
  ⟨_, by simp only [findRow, encode, opField_commandWord]; rfl, rfl, by simp [encode, Mnemonic.build]⟩
theorem rtxByte (b : Byte) : Statement (.rtxByte b) :=
  ⟨_, by simp only [findRow, encode, opField_commandWord]; rfl, rfl, by simp [encode, Mnemonic.build]⟩
theorem rrxBegin (u : Byte) : Statement (.rrxBegin u) :=
  ⟨_, by simp only [findRow, encode, opField_commandWord]; rfl, rfl, by simp [encode, Mnemonic.build]⟩
theorem rrxByte (b : Byte) : Statement (.rrxByte b) :=
  ⟨_, by simp only [findRow, encode, opField_commandWord]; rfl, rfl, by simp [encode, Mnemonic.build]⟩
theorem mtxBegin (u : Byte) (h : Half) : Statement (.mtxBegin u h) :=
  ⟨_, by simp only [findRow, encode, opField_commandWord]; rfl, rfl, by simp [encode, Mnemonic.build]⟩
theorem mtxByte (b : Byte) : Statement (.mtxByte b) :=
  ⟨_, by simp only [findRow, encode, opField_commandWord]; rfl, rfl, by simp [encode, Mnemonic.build]⟩
theorem mrxByte (b : Byte) : Statement (.mrxByte b) :=
  ⟨_, by simp only [findRow, encode, opField_commandWord]; rfl, rfl, by simp [encode, Mnemonic.build]⟩
theorem rdReg (s : Byte) : Statement (.rdReg s) :=
  ⟨_, by simp only [findRow, encode, opField_commandWord]; rfl, rfl, by simp [encode, Mnemonic.build]⟩
theorem rdRtxb (i : Half) : Statement (.rdRtxb i) :=
  ⟨_, by simp only [findRow, encode, opField_commandWord]; rfl, rfl, by simp [encode, Mnemonic.build]⟩
theorem rdRrxb (i : Half) : Statement (.rdRrxb i) :=
  ⟨_, by simp only [findRow, encode, opField_commandWord]; rfl, rfl, by simp [encode, Mnemonic.build]⟩
theorem rdMtxb (i : Half) : Statement (.rdMtxb i) :=
  ⟨_, by simp only [findRow, encode, opField_commandWord]; rfl, rfl, by simp [encode, Mnemonic.build]⟩
theorem rdMrxb (i : Half) : Statement (.rdMrxb i) :=
  ⟨_, by simp only [findRow, encode, opField_commandWord]; rfl, rfl, by simp [encode, Mnemonic.build]⟩

end Sys2Proof.Laws.EncodesInItsRow
end

