-- ==== Sys2Proof/Tests/Slice0.lean ====
section
/-! SUPPORT. The model's own tests. Expected words and values are the spec's: the examples under each command's rule, the encodings of R70, R71 and R75, and the vectors of 95_test_vectors (named in each comment). The last part shows, for every statement with hypotheses, inputs that meet them. -/

namespace Sys2Proof.Tests

open Sys2Proof.Machine

/-! ### Helpers -/

/-- The response of a command, if it completes. -/
def replyOf (o : Host.Outcome State Fault Refusal) : Option Word :=
  match o with
  | .next t => t.resp
  | .fault _ | .refused _ => none

/-- The block after a command, if it completes. -/
def blockOf (o : Host.Outcome State Fault Refusal) : Option Block :=
  match o with
  | .next t => some t.blk
  | .fault _ | .refused _ => none

/-- The refusal of a step, if it is refused. -/
def refusalOf (o : Host.Outcome State Fault Refusal) : Option Refusal :=
  match o with
  | .refused r => some r
  | .next _ | .fault _ => none

/-- Whether an outcome is a next state. -/
def completes {σ : Type} (o : Host.Outcome σ Fault Refusal) : Bool :=
  match o with
  | .next _ => true
  | .fault _ | .refused _ => false

theorem next_of_completes {σ : Type} {o : Host.Outcome σ Fault Refusal} (h : completes o = true) :
    ∃ t, o = .next t := by
  cases o with
  | next t => exact ⟨t, rfl⟩
  | fault _ => cases h
  | refused _ => cases h

/-- A command whose block after it is known answers a next state with that block. -/
theorem next_of_blockOf {o : Host.Outcome State Fault Refusal} {b : Block} (h : blockOf o = some b) :
    ∃ t, o = .next t ∧ t.blk = b := by
  cases o with
  | next t => exact ⟨t, rfl, Option.some.inj h⟩
  | fault _ => cases h
  | refused _ => cases h

/-- The machine after reset with inputs pending. -/
def presenting (l : List HostInput) : State := { State.reset with pending := l }

/-- The machine after reset but for its RTX unit. -/
def rtxAt (st : FrameSt) (buf : List Byte) : State := State.reset.withRtx ⟨st, buf⟩

/-- The machine after reset but for its RRX unit, receiving for unit 1. -/
def receiving (buf : List Byte) (ovf : Bool) : State :=
  State.reset.withRrx ⟨.opened, buf, 0x01#8, .none, ovf, false, 0#9, 0#16⟩

/-- The machine after reset but for its MTX unit, framing for unit 1 and transaction 0x0001. -/
def mtxAt (st : FrameSt) (pdu frame : List Byte) : State :=
  State.reset.withMtx ⟨st, 0x0001#16, 0x01#8, pdu, frame⟩

/-- The machine after reset but for its MRX unit, collecting a header. -/
def header (hdr : List Byte) : State :=
  State.reset.withMrx ⟨.header, hdr, 0#16, 0#16, 0#16, 0#8, .none, []⟩

/-- The machine after reset but for its MRX unit, collecting the PDU of the header `00 01 00 00 00 06 01`. -/
def parsing (pdu : List Byte) : State :=
  State.reset.withMrx
    ⟨.pdu, [0x00#8, 0x01#8, 0x00#8, 0x00#8, 0x00#8, 0x06#8, 0x01#8], 0x0001#16, 0#16, 0x0006#16,
      0x01#8, .none, pdu⟩

/-- The MRX unit at rest, in the state given. -/
def mrxAt (st : ParseSt) : State := State.reset.withMrx { Mrx.reset with st := st }

/-- `01 03 04 12 34 56 78 81 07`, the reply of vector RRX-1. -/
def reply : List Byte :=
  [0x01#8, 0x03#8, 0x04#8, 0x12#8, 0x34#8, 0x56#8, 0x78#8, 0x81#8, 0x07#8]

/-! ### Decoding: one word of every command, written out from R70, R71 and R75 -/

theorem test_decode_nop : decode 0x00000000#32 = some .nop := by decide
theorem test_decode_crc_init : decode 0x01000000#32 = some .crcInit := by decide
/-- R78. -/
theorem test_decode_crc_byte : decode 0x02000001#32 = some (.crcByte 0x01#8) := by decide
/-- R78. -/
theorem test_decode_rtx_begin : decode 0x10110000#32 = some (.rtxBegin 0x11#8) := by decide
theorem test_decode_rtx_byte : decode 0x110000A5#32 = some (.rtxByte 0xA5#8) := by decide
theorem test_decode_rtx_end : decode 0x12000000#32 = some .rtxEnd := by decide
theorem test_decode_rrx_begin : decode 0x18F70000#32 = some (.rrxBegin 0xF7#8) := by decide
theorem test_decode_rrx_byte : decode 0x190000F1#32 = some (.rrxByte 0xF1#8) := by decide
theorem test_decode_rrx_end : decode 0x1A000000#32 = some .rrxEnd := by decide
/-- R160's example, with a transaction id whose bytes differ. -/
theorem test_decode_mtx_begin : decode 0x2001ABCD#32 = some (.mtxBegin 0x01#8 0xABCD#16) := by decide
theorem test_decode_mtx_byte : decode 0x21000083#32 = some (.mtxByte 0x83#8) := by decide
theorem test_decode_mtx_end : decode 0x22000000#32 = some .mtxEnd := by decide
theorem test_decode_mrx_begin : decode 0x28000000#32 = some .mrxBegin := by decide
theorem test_decode_mrx_byte : decode 0x290000FE#32 = some (.mrxByte 0xFE#8) := by decide
theorem test_decode_rd_reg : decode 0x80000010#32 = some (.rdReg 0x10#8) := by decide
/-- Vector RD-2. -/
theorem test_decode_rd_rtxb : decode 0x8100FFFF#32 = some (.rdRtxb 0xFFFF#16) := by decide
theorem test_decode_rd_rrxb : decode 0x82000109#32 = some (.rdRrxb 0x0109#16) := by decide
theorem test_decode_rd_mtxb : decode 0x83000005#32 = some (.rdMtxb 0x0005#16) := by decide
theorem test_decode_rd_mrxb : decode 0x84000004#32 = some (.rdMrxb 0x0004#16) := by decide

/-- Vector DEC-1: must-be-zero bits, unlisted OP values, all ones. -/
theorem test_decode_illegal :
    decode 0x00000001#32 = none ∧ decode 0x80000100#32 = none ∧ decode 0x81010000#32 = none ∧
      decode 0x03000000#32 = none ∧ decode 0x2A000000#32 = none ∧ decode 0xFFFFFFFF#32 = none := by
  decide

/-- Vectors CRC-4 and RTX-8: must-be-zero bits in U and in D. -/
theorem test_decode_reserved_bits :
    decode 0x01000001#32 = none ∧ decode 0x02000101#32 = none ∧ decode 0x02010001#32 = none ∧
      decode 0x10010001#32 = none ∧ decode 0x11010003#32 = none ∧ decode 0x12000001#32 = none := by
  decide

/-- R160's words have no must-be-zero bit: vector DEC-1. -/
theorem test_decode_mtx_begin_all_ones :
    decode 0x20FFFFFF#32 = some (.mtxBegin 0xFF#8 0xFFFF#16) := by decide

/-- No two rows of the opcode map share an OP (R75). -/
theorem test_rows_distinct : opcodeTable.Pairwise (fun a b => a.op ≠ b.op) := by decide

/-- The mask of every row is its format's, and its match is its OP alone (R71, R75). -/
theorem test_masks_from_formats :
    ∀ row ∈ opcodeTable, row.mask = row.mnemonic.format.mask ∧ row.pattern = row.op ++ 0#24 := by
  decide

/-! ### WellFormed refuses (R78: an operand out of its range is an assembly error) -/

theorem test_refuses_byte_256 : (AsmLine.mk .crcByte [.num 256]).wellFormed = false := by decide
theorem test_refuses_unit_256 : (AsmLine.mk .rtxBegin [.num 256]).wellFormed = false := by decide
theorem test_refuses_half_65536 : (AsmLine.mk .mtxBegin [.num 1, .num 65536]).wellFormed = false := by decide
theorem test_refuses_unit_of_uh : (AsmLine.mk .mtxBegin [.num 256, .num 1]).wellFormed = false := by decide
theorem test_refuses_index_65536 : (AsmLine.mk .rdRtxb [.num 65536]).wellFormed = false := by decide
theorem test_refuses_selector_256 : (AsmLine.mk .rdReg [.num 256]).wellFormed = false := by decide
theorem test_refuses_name_as_byte : (AsmLine.mk .crcByte [.reg .crc]).wellFormed = false := by decide
theorem test_refuses_name_as_unit : (AsmLine.mk .rrxBegin [.reg .crc]).wellFormed = false := by decide
theorem test_refuses_name_as_index : (AsmLine.mk .rdMrxb [.reg .crc]).wellFormed = false := by decide
theorem test_refuses_operand_of_n : (AsmLine.mk .rtxEnd [.num 0]).wellFormed = false := by decide
theorem test_refuses_missing_operand : (AsmLine.mk .mtxBegin [.num 1]).wellFormed = false := by decide
theorem test_refuses_crc_block : (AsmStmt.crcBlock [0, 256]).wellFormed = false := by decide
theorem test_refuses_rtx_frame :
    (AsmStmt.rtxFrame 256 []).wellFormed = false ∧ (AsmStmt.rtxFrame 1 [256]).wellFormed = false := by decide
theorem test_refuses_rrx_frame :
    (AsmStmt.rrxFrame 256 []).wellFormed = false ∧ (AsmStmt.rrxFrame 1 [256]).wellFormed = false := by decide
theorem test_refuses_mtx_frame :
    (AsmStmt.mtxFrame 256 0 []).wellFormed = false ∧ (AsmStmt.mtxFrame 1 65536 []).wellFormed = false ∧
      (AsmStmt.mtxFrame 1 1 [256]).wellFormed = false := by decide
theorem test_refuses_mrx_feed : (AsmStmt.mrxFeed [256]).wellFormed = false := by decide

/-! ### Commands, one step each -/

/-- R206. -/
theorem test_nop : replyOf (exec .nop State.reset) = some 0x00000000#32 := by decide

/-- R102, from `S.CRC = 0x1234`. -/
theorem test_crc_init :
    replyOf (exec .crcInit (State.reset.withCrc 0x1234#16)) = some 0x0000FFFF#32 := by decide

/-- R103. -/
theorem test_crc_byte : replyOf (exec (.crcByte 0x01#8) State.reset) = some 0x0000807E#32 := by decide

/-- Vector CRC-2. -/
theorem test_crc_step_no_preset :
    replyOf (exec (.crcByte 0xC5#8) (State.reset.withCrc 0xCDC5#16)) = some 0x000000CD#32 := by decide

/-- Vector CRC-1: the check value of "123456789". -/
theorem test_crc16_check_value :
    crc16 [0x31#8, 0x32#8, 0x33#8, 0x34#8, 0x35#8, 0x36#8, 0x37#8, 0x38#8, 0x39#8] = 0x4B37#16 := by
  decide +kernel

/-- R120. -/
theorem test_rtx_begin :
    blockOf (exec (.rtxBegin 0x02#8) (rtxAt .done [0x01#8, 0x03#8, 0x40#8, 0x21#8])) =
      some (rtxAt .opened [0x02#8]).blk := by decide

/-- R121. -/
theorem test_rtx_byte :
    blockOf (exec (.rtxByte 0x03#8) (rtxAt .opened [0x01#8])) =
      some (rtxAt .opened [0x01#8, 0x03#8]).blk := by decide

/-- Vector RTX-4: the 254th PDU byte. -/
theorem test_rtx_byte_overflow :
    replyOf (exec (.rtxByte 0x00#8) (rtxAt .opened (List.replicate 254 0x00#8))) =
      some 0x03000000#32 := by decide +kernel

/-- R122, vector V1. -/
theorem test_rtx_end :
    blockOf (exec .rtxEnd (rtxAt .opened [0x01#8, 0x03#8, 0x00#8, 0x00#8, 0x00#8, 0x0A#8])) =
      some ((rtxAt .done
        [0x01#8, 0x03#8, 0x00#8, 0x00#8, 0x00#8, 0x0A#8, 0xC5#8, 0xCD#8]).withCrc 0xCDC5#16).blk := by
  decide +kernel

/-- Vector RTX-5. -/
theorem test_rtx_end_empty :
    replyOf (exec .rtxEnd (rtxAt .opened [0x01#8])) = some 0x05000000#32 := by decide

/-- R141. -/
theorem test_rrx_begin :
    blockOf (exec (.rrxBegin 0x01#8) State.reset) = some (receiving [] false).blk := by decide

/-- R145. -/
theorem test_rrx_byte :
    blockOf (exec (.rrxByte 0x01#8) (receiving [] false)) = some (receiving [0x01#8] false).blk := by
  decide

/-- Vector RRX-11: the 257th byte is discarded and reception goes on. -/
theorem test_rrx_byte_overflow :
    blockOf (exec (.rrxByte 0x55#8) (receiving (List.replicate 256 0x00#8) false)) =
      some (receiving (List.replicate 256 0x00#8) true).blk := by decide +kernel

/-- R146, vector RRX-1. -/
theorem test_rrx_end :
    blockOf (exec .rrxEnd (receiving reply false)) =
      some ((State.reset.withCrc 0x0781#16).withRrx
        ⟨.done, reply, 0x01#8, .ok, false, false, 6#9, 0x0781#16⟩).blk := by decide +kernel

/-- Vector RRX-10: wrong unit and wrong CRC, the address check is first. -/
theorem test_rrx_end_address_first :
    replyOf (exec .rrxEnd (receiving
      [0x02#8, 0x01#8, 0x00#8, 0x00#8, 0x00#8, 0x08#8, 0x00#8, 0x00#8] false)) =
      some 0x13000000#32 := by decide +kernel

/-- R160. -/
theorem test_mtx_begin :
    blockOf (exec (.mtxBegin 0x01#8 0x0001#16) State.reset) = some (mtxAt .opened [] []).blk := by decide

/-- R161. -/
theorem test_mtx_byte :
    blockOf (exec (.mtxByte 0x03#8) (mtxAt .opened [] [])) = some (mtxAt .opened [0x03#8] []).blk := by
  decide

/-- Vector MTX-5: the 254th byte; the transaction id and unit are kept. -/
theorem test_mtx_byte_overflow :
    blockOf (exec (.mtxByte 0x00#8) (mtxAt .opened (List.replicate 253 0x00#8) [])) =
      some (mtxAt .idle [] []).blk := by decide +kernel

/-- R162, vector MTX-1. -/
theorem test_mtx_end :
    blockOf (exec .mtxEnd (mtxAt .opened [0x03#8, 0x04#8, 0x12#8, 0x34#8, 0x56#8, 0x78#8] [])) =
      some (mtxAt .done [0x03#8, 0x04#8, 0x12#8, 0x34#8, 0x56#8, 0x78#8]
        [0x00#8, 0x01#8, 0x00#8, 0x00#8, 0x00#8, 0x07#8, 0x01#8, 0x03#8, 0x04#8, 0x12#8, 0x34#8,
          0x56#8, 0x78#8]).blk := by decide

/-- Vector MTX-4: the response of the largest frame. -/
theorem test_mtx_end_largest :
    replyOf (exec .mtxEnd (mtxAt .opened (List.replicate 253 0x00#8) [])) = some 0x00000104#32 := by
  decide +kernel

/-- R180. -/
theorem test_mrx_begin :
    blockOf (exec .mrxBegin (parsing [0x03#8])) = some (header []).blk := by decide

/-- R181's example: the seventh header byte, and then the last PDU byte of `00 01 00 00 00 06 01 03 00 00 00 02`. -/
theorem test_mrx_byte :
    blockOf (exec (.mrxByte 0x01#8) (header [0x00#8, 0x01#8, 0x00#8, 0x00#8, 0x00#8, 0x06#8])) =
        some (parsing []).blk ∧
      replyOf (exec (.mrxByte 0x02#8) (parsing [0x03#8, 0x00#8, 0x00#8, 0x00#8])) =
        some 0x00000003#32 := by decide

/-- Vector MRX-4: protocol and length both bad is BAD_PROTOCOL; length 255 is BAD_LENGTH. -/
theorem test_mrx_byte_bad_header :
    replyOf (exec (.mrxByte 0x01#8) (header [0x00#8, 0x01#8, 0x12#8, 0x34#8, 0x00#8, 0x00#8])) =
        some 0x20000004#32 ∧
      replyOf (exec (.mrxByte 0x01#8) (header [0x00#8, 0x01#8, 0x00#8, 0x00#8, 0x00#8, 0xFF#8])) =
        some 0x21000004#32 := by decide

/-- R201 and vector RD-1. -/
theorem test_rd_reg_after_reset :
    replyOf (exec (.rdReg 0x01#8) State.reset) = some 0x0000FFFF#32 ∧
      replyOf (exec (.rdReg 0x10#8) State.reset) = some 0x000000FF#32 ∧
      replyOf (exec (.rdReg 0x13#8) State.reset) = some 0x04000000#32 := by decide

/-- The STATUS of vectors RRX-2 (DONE with an exception) and RRX-11 (OPEN with an overrun). -/
theorem test_rd_reg_status :
    replyOf (exec (.rdReg 0x00#8)
        (State.reset.withRrx ⟨.done, [], 0x01#8, .ok, false, true, 2#9, 0#16⟩)) = some 0x00000408#32 ∧
      replyOf (exec (.rdReg 0x00#8) (receiving [] true)) = some 0x00000204#32 := by decide

/-- R202 and vector RD-2: at 6 and at the length. -/
theorem test_rd_rtxb :
    replyOf (exec (.rdRtxb 6#16)
        (rtxAt .done [0x01#8, 0x03#8, 0x00#8, 0x00#8, 0x00#8, 0x0A#8, 0xC5#8, 0xCD#8])) =
        some 0x000000C5#32 ∧
      replyOf (exec (.rdRtxb 8#16)
        (rtxAt .done [0x01#8, 0x03#8, 0x00#8, 0x00#8, 0x00#8, 0x0A#8, 0xC5#8, 0xCD#8])) =
        some 0x04000000#32 := by decide

/-- R203. -/
theorem test_rd_rrxb :
    replyOf (exec (.rdRrxb 1#16) (receiving reply false)) = some 0x00000003#32 ∧
      replyOf (exec (.rdRrxb 9#16) (receiving reply false)) = some 0x04000000#32 := by decide

/-- R204: the window is the frame, not the PDU. -/
theorem test_rd_mtxb :
    replyOf (exec (.rdMtxb 5#16) (mtxAt .done [0x11#8]
      [0x00#8, 0x01#8, 0x00#8, 0x00#8, 0x00#8, 0x07#8, 0x01#8])) = some 0x00000007#32 := by decide

/-- R205: the window is the PDU, not the header. -/
theorem test_rd_mrxb :
    replyOf (exec (.rdMrxb 4#16) (parsing [0x03#8, 0x00#8, 0x00#8, 0x00#8, 0x02#8])) =
      some 0x00000002#32 := by decide

/-! ### Steps of the port -/

/-- Vector CRC-4: an illegal word, through the port. -/
theorem test_step_illegal_word :
    replyOf (step (presenting [.command 0x01000001#32])) = some 0x01000000#32 ∧
      blockOf (step (presenting [.command 0x01000001#32])) = some Block.reset := by decide

/-- A word placed by `withFetchWord` is the next to run. -/
theorem test_fetch_word :
    replyOf (step (State.reset.withFetchWord 32 0x02000001)) = some 0x0000807E#32 := by decide

/-- R400. -/
theorem test_reset_input :
    blockOf (step { rtxAt .opened [0x01#8] with pending := [.reset] }) = some Block.reset := by decide

/-- R78: the spec's own text examples. -/
theorem test_assemble_mtx_begin :
    assembleText "MTX_BEGIN 1, 0x0001".toList = some [0x20010001#32] := by decide

/-- R75: every mnemonic as assembler text, with the word of its OP and an operand 1 where it takes one. -/
theorem test_assemble_mnemonics :
    ∀ row ∈ ([("NOP", 0x00000000#32), ("CRC_INIT", 0x01000000#32), ("CRC_BYTE 1", 0x02000001#32),
        ("RTX_BEGIN 1", 0x10010000#32), ("RTX_BYTE 1", 0x11000001#32), ("RTX_END", 0x12000000#32),
        ("RRX_BEGIN 1", 0x18010000#32), ("RRX_BYTE 1", 0x19000001#32), ("RRX_END", 0x1A000000#32),
        ("MTX_BEGIN 1, 2", 0x20010002#32), ("MTX_BYTE 1", 0x21000001#32), ("MTX_END", 0x22000000#32),
        ("MRX_BEGIN", 0x28000000#32), ("MRX_BYTE 1", 0x29000001#32), ("RD_REG 1", 0x80000001#32),
        ("RD_RTXB 1", 0x81000001#32), ("RD_RRXB 1", 0x82000001#32), ("RD_MTXB 1", 0x83000001#32),
        ("RD_MRXB 1", 0x84000001#32)] : List (String × Word)),
      assembleText row.1.toList = some [row.2] := by decide +kernel

/-- R79: `RRX_FRAME 0x01, 0x01` is RRX_BEGIN, RRX_BYTE, RRX_END. -/
theorem test_assemble_rrx_frame :
    assembleText "RRX_FRAME 0x01, 0x01".toList =
      some [0x18010000#32, 0x19000001#32, 0x1A000000#32] := by decide

/-- Vector V2: the bits `1,0,1,1,0,0,0,1` pack into 0x8D, and unpack again. -/
theorem test_pack_bits :
    packBits [true, false, true, true, false, false, false, true] = [0x8D#8] ∧
      unpackBits [0x8D#8] = [true, false, true, true, false, false, false, true] := by decide

/-- Vector V6: the request `03 00 00 00 02` and the reply `03 04 12 34 56 78`. -/
theorem test_codec_pdus :
    requestPdu (.readHoldingRegisters 0x0000#16 0x0002#16) = [0x03#8, 0x00#8, 0x00#8, 0x00#8, 0x02#8] ∧
      responsePdu (.readHoldingRegisters [0x1234#16, 0x5678#16]) =
        [0x03#8, 0x04#8, 0x12#8, 0x34#8, 0x56#8, 0x78#8] := by decide

/-- R84, R321: the reply PDU `83 0B` for a request with function code 03 that got no reply. -/
theorem test_no_reply_pdu : rtuReplyPdu 0x03#8 [] .rtuNoReply = some [0x83#8, 0x0B#8] := by decide

/-! ### Witnesses: inputs that meet the hypotheses of the statements, one part per clause, at boundary values -/

theorem witness_DecodeInvertsEncode : (Instr.mtxBegin 0xFF#8 0xFFFF#16).wellFormed = true := by decide

theorem witness_OnlyTheEncodingDecodes : decode 0x20FFFFFF#32 = some (.mtxBegin 0xFF#8 0xFFFF#16) := by
  decide

theorem witness_DecodingIsTotal :
    (∀ row ∈ opcodeTable, row.op ≠ (0x85000000#32 : Word).extractLsb' 24 8) ∧
    (∃ row ∈ opcodeTable, row.op = (0x02000100#32 : Word).extractLsb' 24 8 ∧
      0x02000100#32 &&& row.mask ≠ row.pattern) ∧
    (∃ row ∈ opcodeTable, row.op = (0x020000FF#32 : Word).extractLsb' 24 8 ∧
      0x020000FF#32 &&& row.mask = row.pattern) ∧
    (presenting [.command 0x00000001#32]).pending = [.command 0x00000001#32] ∧
    decode 0x00000001#32 = none := by decide

theorem witness_StepRunsTheDecodedCommand :
    (presenting [.command 0x18010000#32, .reset]).pending = [.command 0x18010000#32, .reset] ∧
      decode 0x18010000#32 = some (.rrxBegin 0x01#8) := by decide

theorem witness_NothingHappensWithoutTheHost : State.reset.pending = [] := rfl

theorem witness_ResetSetsEveryElement :
    (presenting [.reset]).pending = [.reset] ∧
      (presenting [.commandDuringReset 0x00000000#32]).pending = [.commandDuringReset 0x00000000#32] :=
  ⟨rfl, rfl⟩

/-- The step on a command that overlaps reset is refused (R400). -/
theorem test_command_during_reset_refused :
    refusalOf (step (presenting [.commandDuringReset 0x00000000#32])) = some .commandDuringReset := by
  decide

theorem witness_SimultaneousCommandsAreRefused :
    (presenting [.concurrentCommands 0x01000000#32 0x02000001#32 []]).pending =
      [.concurrentCommands 0x01000000#32 0x02000001#32 []] := rfl

theorem witness_AnOrderlyHostIsNeverStopped :
    (presenting [.command 0xFFFFFFFF#32, .reset, .command 0x12000000#32]).orderly = true := by decide

/-- The three answers of R301: ILLEGAL, BAD_STATE (its value 0, and MRX_BYTE's its MR_ST in IDLE, DONE and ERROR) and RANGE. -/
theorem witness_RefusedCommandsChangeNothing :
    (∃ t, step (presenting [.command 0x00000001#32]) = .next t ∧ t.resp = some 0x01000000#32) ∧
    (∃ t, step (presenting [.command 0x19000001#32]) = .next t ∧ t.resp = some 0x02000000#32) ∧
    decode 0x29000000#32 = some (.mrxByte 0x00#8) ∧
    (∃ t, step (presenting [.command 0x29000000#32]) = .next t ∧ t.resp = some 0x02000000#32) ∧
    (∃ t, step { mrxAt .done with pending := [.command 0x29000000#32] } = .next t ∧
      t.resp = some 0x02000003#32) ∧
    (∃ t, step { mrxAt .error with pending := [.command 0x29000000#32] } = .next t ∧
      t.resp = some 0x02000004#32) ∧
    (∃ t, step (presenting [.command 0x80000013#32]) = .next t ∧ t.resp = some 0x04000000#32) :=
  ⟨⟨_, rfl, rfl⟩, ⟨_, rfl, rfl⟩, by decide, ⟨_, rfl, rfl⟩, ⟨_, rfl, rfl⟩, ⟨_, rfl, rfl⟩, ⟨_, rfl, rfl⟩⟩

/-- A command of every unit completes; each drives no unit but its own. -/
theorem witness_CommandsLeaveOtherUnitsAlone :
    (∃ t, exec .crcInit State.reset = .next t ∧ unitOf .crcInit ≠ .rtx) ∧
    (∃ t, exec (.rtxByte 0x03#8) (rtxAt .opened [0x01#8]) = .next t ∧ unitOf (.rtxByte 0x03#8) ≠ .rrx) ∧
    (∃ t, exec .rrxEnd (receiving [] false) = .next t ∧ unitOf .rrxEnd ≠ .mtx) ∧
    (∃ t, exec .mtxEnd (mtxAt .opened [] []) = .next t ∧ unitOf .mtxEnd ≠ .mrx) ∧
    (∃ t, exec (.mrxByte 0x00#8) (header []) = .next t ∧ unitOf (.mrxByte 0x00#8) ≠ .rtx) :=
  ⟨⟨_, rfl, by decide⟩, ⟨_, rfl, by decide⟩, ⟨_, rfl, by decide⟩, ⟨_, rfl, by decide⟩, ⟨_, rfl, by decide⟩⟩

/-- Each latched value does change: RR_UNIT, RR_RES on a failure, MT_TID and MT_UNIT, the MR fields, MR_RES on a bad header and on the last byte. -/
theorem witness_LatchedValuesChangeOnlyByTheirCommands :
    (∃ t, exec (.rrxBegin 0xFF#8) State.reset = .next t ∧ t.blk.rrx.unit ≠ State.reset.blk.rrx.unit) ∧
    (∃ t, exec .rrxEnd (receiving [] false) = .next t ∧ t.blk.rrx.res ≠ ResultCode.none) ∧
    (∃ t, exec (.mtxBegin 0x00#8 0xFFFF#16) State.reset = .next t ∧
      (t.blk.mtx.tid, t.blk.mtx.unit) ≠ (0#16, 0#8)) ∧
    (∃ t, exec (.mrxByte 0x01#8) (header [0x00#8, 0x01#8, 0x00#8, 0x00#8, 0x00#8, 0x06#8]) = .next t ∧
      (t.blk.mrx.tid, t.blk.mrx.proto, t.blk.mrx.lenf, t.blk.mrx.unit) ≠ (0#16, 0#16, 0#16, 0#8)) ∧
    (∃ t, exec (.mrxByte 0x01#8) (header [0x00#8, 0x01#8, 0x00#8, 0x00#8, 0x00#8, 0xFF#8]) = .next t ∧
      t.blk.mrx.res ≠ ResultCode.none) ∧
    (∃ t, exec (.mrxByte 0x02#8) (parsing [0x03#8, 0x00#8, 0x00#8, 0x00#8]) = .next t ∧
      t.blk.mrx.res ≠ ResultCode.none) :=
  ⟨⟨_, rfl, by decide⟩, ⟨_, rfl, by decide⟩, ⟨_, rfl, by decide⟩, ⟨_, rfl, by decide⟩,
    ⟨_, rfl, by decide⟩, ⟨_, rfl, by decide⟩⟩

/-- RR_PLEN and RR_FCRC change by the RRX_END of vector RRX-1. -/
theorem witness_LatchedValuesChangeOnlyByTheirCommands_accepted :
    ∃ t, exec .rrxEnd (receiving reply false) = .next t ∧
      t.blk.rrx.plen ≠ (receiving reply false).blk.rrx.plen ∧
      t.blk.rrx.fcrc ≠ (receiving reply false).blk.rrx.fcrc := by
  obtain ⟨t, ht, hb⟩ := next_of_blockOf test_rrx_end
  refine ⟨t, ht, ?_⟩
  rw [hb]
  decide

/-- A read, a BEGIN, and the three ENDs from OPEN. -/
theorem witness_RepeatingACommand :
    (∃ t, exec (.rdReg 0x01#8) State.reset = .next t ∧ unitOf (.rdReg 0x01#8) = .none) ∧
    (∃ t, exec (.mtxBegin 0x01#8 0x0001#16) State.reset = .next t) ∧
    (∃ t, exec .rtxEnd (rtxAt .opened [0x01#8, 0x03#8]) = .next t) ∧
    (∃ t, exec .rrxEnd (receiving [] false) = .next t) ∧
    (∃ t, exec .mtxEnd (mtxAt .opened [0x03#8] []) = .next t) :=
  ⟨⟨_, rfl, rfl⟩, ⟨_, rfl⟩, ⟨_, rfl⟩, ⟨_, rfl⟩, ⟨_, rfl⟩⟩

/-- A word with the OP of every result statement. -/
theorem witness_result_words :
    (0x01000000#32 : Word).extractLsb' 24 8 = 0x01#8 ∧ (0x020000FF#32 : Word).extractLsb' 24 8 = 0x02#8 ∧
    (0x10FF0000#32 : Word).extractLsb' 24 8 = 0x10#8 ∧ (0x110000FF#32 : Word).extractLsb' 24 8 = 0x11#8 ∧
    (0x12000000#32 : Word).extractLsb' 24 8 = 0x12#8 ∧ (0x18FF0000#32 : Word).extractLsb' 24 8 = 0x18#8 ∧
    (0x190000FF#32 : Word).extractLsb' 24 8 = 0x19#8 ∧ (0x1A000000#32 : Word).extractLsb' 24 8 = 0x1A#8 ∧
    (0x20FFFFFF#32 : Word).extractLsb' 24 8 = 0x20#8 ∧ (0x210000FF#32 : Word).extractLsb' 24 8 = 0x21#8 ∧
    (0x22000000#32 : Word).extractLsb' 24 8 = 0x22#8 ∧ (0x28000000#32 : Word).extractLsb' 24 8 = 0x28#8 ∧
    (0x290000FF#32 : Word).extractLsb' 24 8 = 0x29#8 ∧ (0x00000000#32 : Word).extractLsb' 24 8 = 0x00#8 ∧
    (0x80000012#32 : Word).extractLsb' 24 8 = 0x80#8 ∧ (0x8100FFFF#32 : Word).extractLsb' 24 8 = 0x81#8 ∧
    (0x8200FFFF#32 : Word).extractLsb' 24 8 = 0x82#8 ∧ (0x8300FFFF#32 : Word).extractLsb' 24 8 = 0x83#8 ∧
    (0x8400FFFF#32 : Word).extractLsb' 24 8 = 0x84#8 := by decide

theorem witness_CrcInitResult : (0x01000000#32 : Word).extractLsb' 24 8 = 0x01#8 := witness_result_words.1
theorem witness_CrcByteResult : (0x020000FF#32 : Word).extractLsb' 24 8 = 0x02#8 := witness_result_words.2.1
theorem witness_RtxBeginResult : (0x10FF0000#32 : Word).extractLsb' 24 8 = 0x10#8 :=
  witness_result_words.2.2.1
theorem witness_RrxBeginResult : (0x18FF0000#32 : Word).extractLsb' 24 8 = 0x18#8 := by decide
theorem witness_MtxBeginResult : (0x20FFFFFF#32 : Word).extractLsb' 24 8 = 0x20#8 := by decide
theorem witness_MrxBeginResult : (0x28000000#32 : Word).extractLsb' 24 8 = 0x28#8 := by decide
theorem witness_NopResult : (0x00000001#32 : Word).extractLsb' 24 8 = 0x00#8 := by decide

theorem witness_OnlyTheseCommandsWriteTheCrc :
    (receiving reply false).blk.rrx.buf.length ≤ 256 ∧
      ∃ t, exec .rrxEnd (receiving reply false) = .next t :=
  ⟨by decide, next_of_completes (by decide +kernel)⟩

theorem witness_StreamedCrcIsCrc16 :
    [Instr.crcByte 0x01#8, .rtxBegin 0x01#8, .mrxByte 0x00#8, .rdReg 0x01#8, .crcByte 0x03#8].all keepsCrc =
      true := by decide

/-- A machine whose RTX frame `01 03` is ready for its CRC. -/
def framed : State := rtxAt .opened [0x01#8, 0x03#8]

/-- Two machines that differ in the CRC register run a frame to its CRC. -/
theorem witness_CrcRegisterDoesNotLeakIntoFrames :
    SameButCrc framed (framed.withCrc 0x1234#16) ∧ [Instr.rtxEnd, .rdReg 0x02#8].all hidesCrc = true ∧
    (∃ r, execAll [.rtxEnd, .rdReg 0x02#8] framed = .next r) ∧
    (∃ r, execAll [.rtxEnd, .rdReg 0x02#8] (framed.withCrc 0x1234#16) = .next r) := by
  refine ⟨⟨rfl, rfl, rfl, rfl, rfl⟩, by decide, ?_, ?_⟩
  · apply next_of_completes
    decide +kernel
  · apply next_of_completes
    decide +kernel

theorem witness_RtxByteResult :
    ((rtxAt .opened (List.replicate 253 0x00#8)).blk.rtx.st = .opened ∧
      (rtxAt .opened (List.replicate 253 0x00#8)).blk.rtx.buf.length ≠ 254) ∧
    (rtxAt .opened (List.replicate 254 0x00#8)).blk.rtx.buf.length = 254 ∧
    (rtxAt .done []).blk.rtx.st ≠ .opened := by decide +kernel

theorem witness_RtxEndResult :
    ((rtxAt .opened [0x01#8, 0x03#8]).blk.rtx.st = .opened ∧
      2 ≤ (rtxAt .opened [0x01#8, 0x03#8]).blk.rtx.buf.length) ∧
    (rtxAt .opened [0x01#8]).blk.rtx.buf.length < 2 ∧ (rtxAt .done []).blk.rtx.st ≠ .opened := by decide

/-- The frame's commands, with commands of other units between them. -/
theorem witness_RtuFrameIsBuilt :
    1 ≤ [0x03#8].length ∧ [0x03#8].length ≤ 253 ∧
    onlyUnit .rtx [.rtxBegin 0x01#8, .crcByte 0x31#8, .rtxByte 0x03#8, .rrxBegin 0x01#8, .rtxEnd, .nop] =
      .rtxBegin 0x01#8 :: [0x03#8].map Instr.rtxByte ++ [.rtxEnd] := by decide

theorem witness_RrxByteResult :
    ((receiving (List.replicate 255 0x00#8) false).blk.rrx.st = .opened ∧
      (receiving (List.replicate 255 0x00#8) false).blk.rrx.buf.length ≠ 256) ∧
    (receiving (List.replicate 256 0x00#8) false).blk.rrx.buf.length = 256 ∧
    State.reset.blk.rrx.st ≠ .opened := by decide +kernel

/-- A unit in OPEN that satisfies its invariant, for the clause on RR_PLEN. -/
theorem witness_RrxEndResult_invariant :
    (receiving [] false).blk.rrx.Inv ∧ (receiving [] false).blk.rrx.st = .opened :=
  ⟨⟨by simp [receiving, State.withRrx], by decide, by simp [receiving, State.withRrx],
    by simp [receiving, State.withRrx], by simp [receiving, State.withRrx], fun _ => rfl⟩, rfl⟩

/-- The seven clauses of RRX_END: not open, no byte, overrun, 3 bytes, wrong unit, wrong CRC, and OK at 4 bytes. -/
theorem witness_RrxEndResult :
    State.reset.blk.rrx.st ≠ .opened ∧
    (receiving [] false).blk.rrx.buf.length = 0 ∧
    ((receiving [0x01#8] true).blk.rrx.buf.length ≠ 0 ∧ (receiving [0x01#8] true).blk.rrx.ovf = true) ∧
    (receiving [0x01#8, 0x03#8, 0x40#8] false).blk.rrx.buf.length = 3 ∧
    ([0x02#8, 0x03#8, 0x40#8, 0x21#8].length = 4 ∧
      [0x02#8, 0x03#8, 0x40#8, 0x21#8].getD 0 0#8 ≠ (receiving [] false).blk.rrx.unit) ∧
    ([0x01#8, 0x03#8, 0x21#8, 0x40#8].getD 0 0#8 = (receiving [] false).blk.rrx.unit ∧
      crc16 [0x01#8, 0x03#8] ≠ (0x40#8 ++ 0x21#8 : Half)) ∧
    crc16 [0x01#8, 0x03#8] = (0x21#8 ++ 0x40#8 : Half) := by decide +kernel

theorem witness_ReceptionKeepsTheFirst256Bytes :
    onlyUnit .rrx [.rrxBegin 0x01#8, .nop, .rrxByte 0x01#8, .crcInit] =
      .rrxBegin 0x01#8 :: [0x01#8].map Instr.rrxByte := by decide

theorem witness_AcceptedFramesAreTheResidueFrames :
    (receiving reply false).blk.rrx.st = .opened ∧
      ∃ t, exec .rrxEnd (receiving reply false) = .next t :=
  ⟨rfl, next_of_completes (by decide +kernel)⟩

/-- The RTU frame of unit 1 and PDU `03`, with commands of other units between the bytes. -/
theorem witness_RtuRoundTrip :
    1 ≤ [0x03#8].length ∧ [0x03#8].length ≤ 253 ∧
    onlyUnit .rrx [.rrxBegin 0x01#8, .rrxByte 0x01#8, .mrxBegin, .rrxByte 0x03#8, .rrxByte 0x40#8,
      .crcInit, .rrxByte 0x21#8, .rrxEnd] =
      .rrxBegin 0x01#8 :: (rtuFrame 0x01#8 [0x03#8]).map Instr.rrxByte ++ [.rrxEnd] := by decide +kernel

theorem witness_MtxByteResult :
    ((mtxAt .opened (List.replicate 252 0x00#8) []).blk.mtx.st = .opened ∧
      (mtxAt .opened (List.replicate 252 0x00#8) []).blk.mtx.pdu.length ≠ 253) ∧
    (mtxAt .opened (List.replicate 253 0x00#8) []).blk.mtx.pdu.length = 253 ∧
    (mtxAt .done [] []).blk.mtx.st ≠ .opened := by decide +kernel

theorem witness_MtxEndResult :
    ((mtxAt .opened [0x03#8] []).blk.mtx.st = .opened ∧ (mtxAt .opened [0x03#8] []).blk.mtx.pdu.length ≠ 0) ∧
    (mtxAt .opened [] []).blk.mtx.pdu.length = 0 ∧ (mtxAt .idle [] []).blk.mtx.st ≠ .opened := by decide

theorem witness_MbapFrameIsBuilt :
    1 ≤ [0x03#8].length ∧ [0x03#8].length ≤ 253 ∧
    onlyUnit .mtx [.mtxBegin 0x01#8 0x0001#16, .mrxBegin, .mtxByte 0x03#8, .rtxEnd, .mtxEnd] =
      .mtxBegin 0x01#8 0x0001#16 :: [0x03#8].map Instr.mtxByte ++ [.mtxEnd] := by decide

/-- The clauses of MRX_BYTE: collecting, the seventh byte with its three checks at lengths 1, 2, 254 and 255, a PDU byte, the last one, and the three refusals. -/
theorem witness_MrxByteResult :
    ((header []).blk.mrx.st = .header ∧ (header []).blk.mrx.hdr.length ≠ 6) ∧
    (header [0x00#8, 0x01#8, 0x00#8, 0x00#8, 0x00#8, 0x06#8]).blk.mrx.hdr =
      [0x00#8, 0x01#8, 0x00#8, 0x00#8, 0x00#8, 0x06#8] ∧
    ((0x00#8 ++ 0x01#8 : Half) ≠ 0x0000#16 ∧ (0x00#8 ++ 0x00#8 : Half) = 0x0000#16) ∧
    ((0x00#8 ++ 0x01#8 : Half).toNat < 2 ∧ 254 < (0x00#8 ++ 0xFF#8 : Half).toNat) ∧
    (2 ≤ (0x00#8 ++ 0x02#8 : Half).toNat ∧ (0x00#8 ++ 0xFE#8 : Half).toNat ≤ 254) ∧
    ((parsing []).blk.mrx.st = .pdu ∧
      (parsing []).blk.mrx.pdu.length + 2 ≠ (parsing []).blk.mrx.lenf.toNat) ∧
    (parsing [0x03#8, 0x00#8, 0x00#8, 0x00#8]).blk.mrx.pdu.length + 2 =
      (parsing [0x03#8, 0x00#8, 0x00#8, 0x00#8]).blk.mrx.lenf.toNat ∧
    (mrxAt .idle).blk.mrx.st = .idle ∧ (mrxAt .done).blk.mrx.st = .done ∧
    (mrxAt .error).blk.mrx.st = .error := by decide

theorem witness_MbapRoundTrip :
    1 ≤ [0x07#8].length ∧ [0x07#8].length ≤ 253 ∧
    onlyUnit .mrx [.mrxBegin, .mrxByte 0x00#8, .mrxByte 0x01#8, .mrxByte 0x00#8, .nop, .mrxByte 0x00#8,
      .mrxByte 0x00#8, .mrxByte 0x02#8, .mrxByte 0x01#8, .mtxEnd, .mrxByte 0x07#8] =
      .mrxBegin :: (mbapFrame 0x0001#16 0x01#8 [0x07#8]).map Instr.mrxByte := by decide

theorem witness_RepliesEchoTheRequestHeader :
    1 ≤ [0x03#8].length ∧ [0x03#8].length ≤ 253 ∧ 1 ≤ (List.replicate 253 0x00#8).length ∧
      (List.replicate 253 0x00#8).length ≤ 253 := by decide +kernel

theorem witness_RegisterReadResult :
    (0x80000012#32 : Word).extractLsb' 24 8 = 0x80#8 ∧ 0x12 < (0x13#8 : Byte).toNat ∧
      (0x12#8 : Byte).toNat ≤ 0x12 := by decide

/-- Each window at its last index and at its length. -/
theorem witness_BufferReadResult :
    ((0x8100FFFF#32 : Word).extractLsb' 24 8 = 0x81#8 ∧ (0x8200FFFF#32 : Word).extractLsb' 24 8 = 0x82#8 ∧
      (0x8300FFFF#32 : Word).extractLsb' 24 8 = 0x83#8 ∧ (0x8400FFFF#32 : Word).extractLsb' 24 8 = 0x84#8) ∧
    ((Instr.rdRtxb 0#16, [0x01#8]) = (.rdRtxb 0#16, (rtxAt .opened [0x01#8]).blk.rtx.buf) ∧
      (0#16 : Half).toNat < [0x01#8].length ∧ [0x01#8].length ≤ (1#16 : Half).toNat) ∧
    (Instr.rdRrxb 1#16, [0x01#8]) = (.rdRrxb 1#16, (receiving [0x01#8] false).blk.rrx.buf) ∧
    (Instr.rdMtxb 0#16, [0x01#8]) = (.rdMtxb 0#16, (mtxAt .done [] [0x01#8]).blk.mtx.frame) ∧
    (Instr.rdMrxb 0#16, [0x03#8]) = (.rdMrxb 0#16, (parsing [0x03#8]).blk.mrx.pdu) := by decide

/-- The machine after reset satisfies the invariant, and with a command pending it steps. -/
theorem witness_EveryStepKeepsTheInvariant :
    (presenting [.command 0x10010000#32]).Inv ∧
      ∃ t, step (presenting [.command 0x10010000#32]) = .next t := by
  refine ⟨⟨⟨⟨?_, ?_, ?_⟩, ⟨?_, ?_, ?_, ?_, ?_, ?_⟩, ⟨?_, ?_, ?_, ?_, ?_⟩, ⟨?_, ?_, ?_, ?_, ?_, ?_, ?_⟩⟩, ?_⟩, _, rfl⟩ <;>
    simp [presenting, State.reset, Block.reset, Rtx.reset, Rrx.reset, Mtx.reset, Mrx.reset]

/-- The two clauses on windows that cannot be read: RTX in IDLE and MTX not DONE, in a state with the invariant. -/
theorem witness_BufferReadResult_closed :
    (presenting [.command 0x10010000#32]).Inv ∧ (presenting [.command 0x10010000#32]).blk.rtx.st = .idle ∧
      (presenting [.command 0x10010000#32]).blk.mtx.st ≠ .done :=
  ⟨witness_EveryStepKeepsTheInvariant.1, rfl, by decide⟩

/-- RRX_BEGIN, RRX_BYTE and RRX_END complete in a state with the invariant. -/
theorem witness_OnlyTheseCommandsWriteTheFlags :
    (presenting []).Inv ∧ (∃ t, exec (.rrxBegin 0x01#8) (presenting []) = .next t) ∧
      (∃ t, exec (.rrxByte 0x01#8) (presenting []) = .next t) ∧ ∃ t, exec .rrxEnd (presenting []) = .next t :=
  ⟨⟨witness_EveryStepKeepsTheInvariant.1.blk, by simp [presenting, State.reset]⟩, ⟨_, rfl⟩, ⟨_, rfl⟩, ⟨_, rfl⟩⟩

theorem witness_InvariantBoundsEveryBuffer : (presenting [.command 0x10010000#32]).Inv :=
  witness_EveryStepKeepsTheInvariant.1

/-- Units that return to IDLE, and units that do not. -/
theorem witness_UnitsReturnToIdleOnlyByAborting :
    (∃ t, exec .rtxEnd (rtxAt .opened [0x01#8]) = .next t ∧
      (rtxAt .opened [0x01#8]).blk.rtx.st ≠ .idle ∧ t.blk.rtx.st = .idle) ∧
    (∃ t, exec .mtxEnd (mtxAt .opened [] []) = .next t ∧
      (mtxAt .opened [] []).blk.mtx.st ≠ .idle ∧ t.blk.mtx.st = .idle) ∧
    (∃ t, exec .rrxEnd (receiving [] false) = .next t ∧ (receiving [] false).blk.rrx.st ≠ .idle) ∧
    (∃ t, exec (.mrxByte 0x00#8) (mrxAt .error) = .next t ∧ (mrxAt .error).blk.mrx.st ≠ .idle) :=
  ⟨⟨_, rfl, by decide, rfl⟩, ⟨_, rfl, by decide, rfl⟩, ⟨_, rfl, by decide⟩, ⟨_, rfl, by decide⟩⟩

theorem witness_BeginCommandsRestoreTheBlock :
    [Instr.mrxBegin, .mtxBegin 0x01#8 0x0001#16, .rrxBegin 0x01#8, .rtxBegin 0x01#8, .crcInit].Perm
      [.crcInit, .rtxBegin 0x01#8, .rrxBegin 0x01#8, .mtxBegin 0x01#8 0x0001#16, .mrxBegin] := by
  decide

/-- Each unit closed, with commands it refuses. -/
theorem witness_AClosedUnitRefusesUntilItsBegin :
    (∃ t log, execAll [.rtxByte 0x00#8, .rrxEnd, .mtxByte 0x00#8, .mrxByte 0x00#8] State.reset =
      .next (t, log)) ∧
    (State.reset.blk.rtx.st ≠ .opened ∧ State.reset.blk.rrx.st ≠ .opened ∧
      State.reset.blk.mtx.st ≠ .opened ∧ State.reset.blk.mrx.st ≠ .header ∧
      State.reset.blk.mrx.st ≠ .pdu) ∧
    (∀ u, Instr.rtxBegin u ∉ [.rtxByte 0x00#8, .rrxEnd, .mtxByte 0x00#8, .mrxByte 0x00#8]) ∧
    (∀ u, Instr.rrxBegin u ∉ [.rtxByte 0x00#8, .rrxEnd, .mtxByte 0x00#8, .mrxByte 0x00#8]) ∧
    (∀ u h, Instr.mtxBegin u h ∉ [.rtxByte 0x00#8, .rrxEnd, .mtxByte 0x00#8, .mrxByte 0x00#8]) ∧
    Instr.mrxBegin ∉ [.rtxByte 0x00#8, .rrxEnd, .mtxByte 0x00#8, .mrxByte 0x00#8] :=
  ⟨⟨_, _, rfl⟩, by decide, by simp, by simp, by simp, by decide⟩

/-- One whole transaction keeps the duty. -/
theorem witness_ASerialisedHostIsNeverRefused :
    ∃ t log, execAll [.rtxBegin 0x01#8, .rtxByte 0x03#8, .crcInit, .rtxEnd, .rrxBegin 0x01#8,
        .rrxByte 0x01#8, .rrxEnd, .rtxBegin 0x02#8] State.reset = .next (t, log) ∧
      serialised .free log = true :=
  ⟨_, _, rfl, by decide +kernel⟩

theorem witness_AssemblingALine : assembleLine ⟨.rdReg, [.reg .mrxPcnt]⟩ = some (.rdReg 0x12#8) := by decide

theorem witness_EveryReceptionHasAReply :
    ∃ t, (receiving [] false).blk.rrx.st = .opened ∧ exec .rrxEnd (receiving [] false) = .next t :=
  ⟨_, rfl, rfl⟩

theorem witness_CodecPdusFit :
    (CodecRequest.writeMultipleCoils 0x0000#16 (List.replicate 1968 true)).inBounds = true ∧
      (CodecResponse.readHoldingRegisters (List.replicate 125 0xFFFF#16)).inBounds = true := by
  decide +kernel

end Sys2Proof.Tests
end

section
/-! SUPPORT. What one step does with the head of the port (R9, R60): the rules later proofs cite instead of unfolding `step`. -/

namespace Sys2Proof.Machine

/-- A step with nothing pending is the idle step. -/
theorem step_of_pending_nil {s : State} (h : s.pending = []) : step s = idleStep s := by
  simp only [step, servePort, h]

/-- A step serves the first pending input, with the others left in place. -/
theorem step_of_pending_cons {s : State} {p : HostInput} {rest : List HostInput}
    (h : s.pending = p :: rest) : step s = serveInput p { s with pending := rest } := by
  simp only [step, servePort, h]

theorem serveInput_command (w : Word) (s : State) : serveInput (.command w) s = serveWord w s := rfl

/-- A word that decodes is executed (R73). -/
theorem serveWord_of_decode_some {w : Word} {i : Instr} (h : decode w = some i) (s : State) :
    serveWord w s = exec i s := by
  simp only [serveWord, h]

end Sys2Proof.Machine
end

section
/-! The scope statements: the block acts only on what the host presents (00_scope R9). -/

namespace Sys2Proof.Proofs
open Sys2Proof.Machine

/-- Settles O5: the step serves the word at the head of the port, and a word that decodes is executed. -/
theorem stepRunsTheDecodedCommand : Obligations.StepRunsTheDecodedCommand := by
  intro s w rest i hpending hdecode
  calc step s = serveInput (.command w) { s with pending := rest } := step_of_pending_cons hpending
    _ = serveWord w { s with pending := rest } := serveInput_command w _
    _ = exec i { s with pending := rest } := serveWord_of_decode_some hdecode _

/-- Settles O6: with nothing pending the step is the idle step, which is the state itself (log entry 4). -/
theorem nothingHappensWithoutTheHost : Obligations.NothingHappensWithoutTheHost := by
  intro s hpending
  rw [step_of_pending_nil hpending, idleStep]

end Sys2Proof.Proofs
end

section
/-! SUPPORT. What a command may write, said once for all 19 (10_state R22, R24): the frame facts and the interleaving of units are derived from it. -/

namespace Sys2Proof.Machine

/-- `w` is `s` with no more changed than a command of the unit may write (R22, R24): the unit's own elements, and the CRC register for CRC, RTX and RRX. -/
def WritesUnit (s w : State) : UnitName → Prop
  | .none => w = s
  | .crc => ∃ c, w = s.withCrc c
  | .rtx => ∃ c u, w = (s.withCrc c).withRtx u
  | .rrx => ∃ c u, w = (s.withCrc c).withRrx u
  | .mtx => ∃ u, w = s.withMtx u
  | .mrx => ∃ u, w = s.withMrx u

theorem WritesUnit.rtx_only (s : State) (u : Rtx) : WritesUnit s (s.withRtx u) .rtx := ⟨s.blk.crc, u, rfl⟩
theorem WritesUnit.rrx_only (s : State) (u : Rrx) : WritesUnit s (s.withRrx u) .rrx := ⟨s.blk.crc, u, rfl⟩

/-- Writing nothing is within what any unit may write. -/
theorem WritesUnit.refl (s : State) : ∀ n, WritesUnit s s n
  | .none => rfl
  | .crc => ⟨s.blk.crc, rfl⟩
  | .rtx => ⟨s.blk.crc, s.blk.rtx, rfl⟩
  | .rrx => ⟨s.blk.crc, s.blk.rrx, rfl⟩
  | .mtx => ⟨s.blk.mtx, rfl⟩
  | .mrx => ⟨s.blk.mrx, rfl⟩

/-- A read changes nothing but the response word. -/
theorem respondRead_answered {s t : State} {o : Option Half} (h : respondRead s o = .next t) :
    ∃ r v, t = answered s r v := by
  obtain ⟨v, -, ht⟩ | ⟨-, ht⟩ := respondRead_next h
  · exact ⟨.ok, v, ht⟩
  · exact ⟨.range, 0#16, ht⟩

/-- RRX_END writes the RRX unit and the CRC register at most. -/
theorem execRrxEnd_writes {s t : State} (h : execRrxEnd s = .next t) :
    ∃ w r v, WritesUnit s w .rrx ∧ t = answered w r v := by
  obtain ⟨-, ht⟩ | ⟨-, ⟨-, ht⟩ | ⟨-, -, ht⟩ | ⟨-, -, -, ht⟩ | ⟨-, -, hc⟩⟩ := execRrxEnd_cases h
  · exact ⟨_, _, _, .refl s _, ht⟩
  · exact ⟨_, _, _, .rrx_only s _, ht⟩
  · exact ⟨_, _, _, .rrx_only s _, ht⟩
  · exact ⟨_, _, _, .rrx_only s _, ht⟩
  · obtain ⟨-, ht⟩ | ⟨-, -, ht⟩ | ⟨-, -, ht⟩ := checkFrame_cases hc <;>
      exact ⟨_, _, _, ⟨_, _, rfl⟩, ht⟩

/-- MRX_BYTE writes the MRX unit at most. -/
theorem execMrxByte_writes {s t : State} {b : Byte} (h : execMrxByte b s = .next t) :
    ∃ w r v, WritesUnit s w .mrx ∧ t = answered w r v := by
  obtain ⟨-, -, ht⟩ | ⟨-, -, ht⟩ | ⟨-, -, hc⟩ | ⟨-, -, ht⟩ | ⟨-, -, ht⟩ := execMrxByte_cases h
  · exact ⟨_, _, _, .refl s _, ht⟩
  · exact ⟨_, _, _, ⟨_, rfl⟩, ht⟩
  · obtain ⟨-, ht⟩ | ⟨-, -, ht⟩ | ⟨-, -, -, ht⟩ := checkHeader_cases hc <;>
      exact ⟨_, _, _, ⟨_, rfl⟩, ht⟩
  · exact ⟨_, _, _, ⟨_, rfl⟩, ht⟩
  · exact ⟨_, _, _, ⟨_, rfl⟩, ht⟩

/-- Every command answers, and writes its own unit at most, with the CRC register if it is one of CRC, RTX and RRX. -/
theorem exec_writes {s t : State} {i : Instr} (h : exec i s = .next t) :
    ∃ w r v, WritesUnit s w (unitOf i) ∧ t = answered w r v := by
  cases i with
  | nop => exact ⟨_, _, _, rfl, respond_next h⟩
  | crcInit | crcByte => exact ⟨_, _, _, ⟨_, rfl⟩, respond_next h⟩
  | rtxBegin => exact ⟨_, _, _, .rtx_only s _, respond_next h⟩
  | rtxByte =>
    obtain ⟨-, ht⟩ | ⟨-, -, ht⟩ | ⟨-, -, ht⟩ := execRtxByte_cases h
    · exact ⟨_, _, _, .refl s _, ht⟩
    · exact ⟨_, _, _, .rtx_only s _, ht⟩
    · exact ⟨_, _, _, .rtx_only s _, ht⟩
  | rtxEnd =>
    obtain ⟨-, ht⟩ | ⟨-, -, ht⟩ | ⟨-, -, ht⟩ := execRtxEnd_cases h
    · exact ⟨_, _, _, .refl s _, ht⟩
    · exact ⟨_, _, _, .rtx_only s _, ht⟩
    · exact ⟨_, _, _, ⟨_, _, rfl⟩, ht⟩
  | rrxBegin => exact ⟨_, _, _, .rrx_only s _, respond_next h⟩
  | rrxByte =>
    obtain ⟨-, ht⟩ | ⟨-, -, ht⟩ | ⟨-, -, ht⟩ := execRrxByte_cases h
    · exact ⟨_, _, _, .refl s _, ht⟩
    · exact ⟨_, _, _, .rrx_only s _, ht⟩
    · exact ⟨_, _, _, .rrx_only s _, ht⟩
  | rrxEnd => exact execRrxEnd_writes h
  | mtxBegin | mrxBegin => exact ⟨_, _, _, ⟨_, rfl⟩, respond_next h⟩
  | mtxByte =>
    obtain ⟨-, ht⟩ | ⟨-, -, ht⟩ | ⟨-, -, ht⟩ := execMtxByte_cases h
    · exact ⟨_, _, _, .refl s _, ht⟩
    · exact ⟨_, _, _, ⟨_, rfl⟩, ht⟩
    · exact ⟨_, _, _, ⟨_, rfl⟩, ht⟩
  | mtxEnd =>
    obtain ⟨-, ht⟩ | ⟨-, -, ht⟩ | ⟨-, -, ht⟩ := execMtxEnd_cases h
    · exact ⟨_, _, _, .refl s _, ht⟩
    · exact ⟨_, _, _, ⟨_, rfl⟩, ht⟩
    · exact ⟨_, _, _, ⟨_, rfl⟩, ht⟩
  | mrxByte => exact execMrxByte_writes h
  | rdReg | rdRtxb | rdRrxb | rdMtxb | rdMrxb =>
    obtain ⟨r, v, ht⟩ := respondRead_answered h
    exact ⟨s, r, v, rfl, ht⟩

/-- The elements of one of the four framing units are the same in two states; of the other unit names nothing is said. -/
def UnitKept (s t : State) : UnitName → Prop
  | .rtx => t.blk.rtx = s.blk.rtx
  | .rrx => t.blk.rrx = s.blk.rrx
  | .mtx => t.blk.mtx = s.blk.mtx
  | .mrx => t.blk.mrx = s.blk.mrx
  | .crc | .none => True

/-- A command's writes leave every other framing unit as it was (R24). -/
theorem WritesUnit.keeps {s w : State} {n m : UnitName} (h : WritesUnit s w n) (hn : n ≠ m) :
    UnitKept s w m := by
  cases n with
  | none => obtain rfl := h; cases m <;> simp [UnitKept]
  | crc => obtain ⟨c, rfl⟩ := h; cases m <;> simp [UnitKept]
  | rtx => obtain ⟨c, u, rfl⟩ := h; cases m <;> simp [UnitKept] at hn ⊢
  | rrx => obtain ⟨c, u, rfl⟩ := h; cases m <;> simp [UnitKept] at hn ⊢
  | mtx => obtain ⟨u, rfl⟩ := h; cases m <;> simp [UnitKept] at hn ⊢
  | mrx => obtain ⟨u, rfl⟩ := h; cases m <;> simp [UnitKept] at hn ⊢

/-- A command leaves every framing unit it does not drive as it was (R24). -/
theorem exec_keeps_unit {s t : State} {i : Instr} {n : UnitName} (h : exec i s = .next t)
    (hn : unitOf i ≠ n) : UnitKept s t n := by
  obtain ⟨w, r, v, hw, rfl⟩ := exec_writes h
  exact hw.keeps hn

/-- A command's writes leave the port's pending inputs alone. -/
theorem WritesUnit.pending_eq {s w : State} {n : UnitName} (h : WritesUnit s w n) : w.pending = s.pending := by
  cases n with
  | none => rw [h]
  | crc => obtain ⟨c, rfl⟩ := h; rfl
  | rtx | rrx => obtain ⟨c, u, rfl⟩ := h; rfl
  | mtx | mrx => obtain ⟨u, rfl⟩ := h; rfl

/-- A command takes nothing from the port (R50). -/
theorem exec_keeps_pending {s t : State} {i : Instr} (h : exec i s = .next t) : t.pending = s.pending := by
  obtain ⟨w, r, v, hw, rfl⟩ := exec_writes h
  exact hw.pending_eq

/-- The CRC register is written by the commands of CRC, RTX and RRX at most (R22). -/
theorem WritesUnit.crc_eq {s w : State} {n : UnitName} (h : WritesUnit s w n)
    (hn : n = .none ∨ n = .mtx ∨ n = .mrx) : w.blk.crc = s.blk.crc := by
  obtain rfl | rfl | rfl := hn
  · rw [h]
  · obtain ⟨u, rfl⟩ := h; rfl
  · obtain ⟨u, rfl⟩ := h; rfl

theorem exec_keeps_crc {s t : State} {i : Instr} (h : exec i s = .next t)
    (hn : unitOf i = .none ∨ unitOf i = .mtx ∨ unitOf i = .mrx) : t.blk.crc = s.blk.crc := by
  obtain ⟨w, r, v, hw, rfl⟩ := exec_writes h
  exact hw.crc_eq hn

end Sys2Proof.Machine
end

section
/-! SUPPORT. The commands of each framing unit, and that each keeps its unit's invariant (10_state R30 to R35, R40). -/

namespace Sys2Proof.Machine

/-! ### The commands of a unit -/

theorem unitOf_eq_rtx {i : Instr} (h : unitOf i = .rtx) :
    (∃ u, i = .rtxBegin u) ∨ (∃ b, i = .rtxByte b) ∨ i = .rtxEnd := by
  cases i <;> simp [unitOf] at h ⊢

theorem unitOf_eq_rrx {i : Instr} (h : unitOf i = .rrx) :
    (∃ u, i = .rrxBegin u) ∨ (∃ b, i = .rrxByte b) ∨ i = .rrxEnd := by
  cases i <;> simp [unitOf] at h ⊢

theorem unitOf_eq_mtx {i : Instr} (h : unitOf i = .mtx) :
    (∃ u d, i = .mtxBegin u d) ∨ (∃ b, i = .mtxByte b) ∨ i = .mtxEnd := by
  cases i <;> simp [unitOf] at h ⊢

theorem unitOf_eq_mrx {i : Instr} (h : unitOf i = .mrx) : i = .mrxBegin ∨ ∃ b, i = .mrxByte b := by
  cases i <;> simp [unitOf] at h ⊢

/-! ### The BEGIN commands, as `answered` states -/

theorem execRtxBegin_next {s t : State} {u : Byte} (h : execRtxBegin u s = .next t) :
    t = answered (s.withRtx ⟨.opened, [u]⟩) .ok 0#16 := respond_next h

theorem execRrxBegin_next {s t : State} {u : Byte} (h : execRrxBegin u s = .next t) :
    t = answered (s.withRrx ⟨.opened, [], u, .none, false, false, 0#9, 0#16⟩) .ok 0#16 := respond_next h

theorem execMtxBegin_next {s t : State} {u : Byte} {d : Half} (h : execMtxBegin u d s = .next t) :
    t = answered (s.withMtx ⟨.opened, d, u, [], []⟩) .ok 0#16 := respond_next h

theorem execMrxBegin_next {s t : State} (h : execMrxBegin s = .next t) :
    t = answered (s.withMrx ⟨.header, [], 0#16, 0#16, 0#16, 0#8, .none, []⟩) .ok 1#16 := respond_next h

/-! ### The CRC residue (R101, R105): a frame closed with its own CRC has CRC 0 -/

/-- Feeding a register its own low byte moves the high byte down. -/
theorem crcStep_lo8 (c : Half) : crcStep c (lo8 c) = (hi8 c).setWidth 16 := by
  have hlo : (lo8 c).setWidth 16 = (0#8 ++ lo8 c : Half) := BitVec.setWidth_eq_append (by decide)
  have hx : c ^^^ (lo8 c).setWidth 16 = (hi8 c ++ 0#8 : Half) :=
    calc c ^^^ (lo8 c).setWidth 16 = (hi8 c ++ lo8 c) ^^^ (0#8 ++ lo8 c) := by
          rw [hlo]
          exact congrArg (· ^^^ (0#8 ++ lo8 c : Half)) (be16_hi8_lo8 c).symm
      _ = hi8 c ++ 0#8 := by rw [BitVec.xor_append, BitVec.xor_zero, BitVec.xor_self]
  rw [crcStep, hx, crcShifts_high]

@[simp] theorem crc16_append_crcTrailer (l : List Byte) : crc16 (l ++ crcTrailer (crc16 l)) = 0#16 := by
  rw [crc16_append, crcTrailer, List.foldl_cons, crcStep_lo8, List.foldl_cons, List.foldl_nil, crcStep,
    BitVec.xor_self, crcShifts_zero]

@[simp] theorem crcTrailer_length (c : Half) : (crcTrailer c).length = 2 := rfl

/-! ### RTX (R30) -/

theorem Rtx.Inv.idle_empty : Rtx.Inv ⟨.idle, []⟩ := ⟨fun _ => rfl, nofun, nofun⟩

/-- An open buffer of 1 to 254 bytes meets the invariant. -/
theorem Rtx.Inv.of_opened {l : List Byte} (h1 : 1 ≤ l.length) (h2 : l.length ≤ 254) :
    Rtx.Inv ⟨.opened, l⟩ := ⟨nofun, fun _ => ⟨h1, h2⟩, nofun⟩

/-- A buffer closed by RTX_END meets the invariant: its CRC residue is 0. -/
theorem Rtx.Inv.of_closed {l : List Byte} (h1 : 2 ≤ l.length) (h2 : l.length ≤ 254) :
    Rtx.Inv ⟨.done, l ++ crcTrailer (crc16 l)⟩ :=
  ⟨nofun, nofun, fun _ => ⟨by simp; omega, by simp; omega, crc16_append_crcTrailer l⟩⟩

theorem exec_keeps_rtx_inv {s t : State} {i : Instr} (hi : s.blk.rtx.Inv) (h : exec i s = .next t) :
    t.blk.rtx.Inv := by
  by_cases hu : unitOf i = .rtx
  · obtain ⟨u, rfl⟩ | ⟨b, rfl⟩ | rfl := unitOf_eq_rtx hu
    · rw [execRtxBegin_next h]
      exact .of_opened (by simp) (by simp)
    · obtain ⟨-, rfl⟩ | ⟨-, -, rfl⟩ | ⟨ho, hl, rfl⟩ := execRtxByte_cases h
      · exact hi
      · exact .idle_empty
      · obtain ⟨-, hle⟩ := hi.opened ho
        exact .of_opened (by simp) (append_within b (by omega))
    · obtain ⟨-, rfl⟩ | ⟨-, -, rfl⟩ | ⟨ho, hl, rfl⟩ := execRtxEnd_cases h
      · exact hi
      · exact .idle_empty
      · exact .of_closed hl (hi.opened ho).2
  · have hk : t.blk.rtx = s.blk.rtx := exec_keeps_unit h hu
    rwa [hk]

/-! ### RRX (R31, R37) -/

theorem Rrx.Inv.of_begin (u : Byte) : Rrx.Inv ⟨.opened, [], u, .none, false, false, 0#9, 0#16⟩ :=
  ⟨nofun, Nat.zero_le _, nofun, nofun, nofun, fun _ => rfl⟩

/-- While a frame is received no result stands: RR_RES is not OK, RR_EXC is 0 and RR_PLEN is 0. -/
theorem Rrx.Inv.of_opened {u : Rrx} (hi : u.Inv) (ho : u.st = .opened) :
    u.res ≠ .ok ∧ u.exc = false ∧ u.plen = 0#9 := by
  have hres : u.res ≠ .ok := fun hok => by simpa [ho] using (hi.accepted hok).1
  exact ⟨hres, Bool.eq_false_iff.mpr (mt hi.exception hres), hi.rejected hres⟩

/-- RRX_BYTE on a full buffer. -/
theorem Rrx.Inv.overflow {u : Rrx} (hi : u.Inv) (hl : u.buf.length = 256) :
    Rrx.Inv { u with ovf := true } :=
  { hi with overrun := fun _ => hl }

/-- RRX_BYTE on a buffer with room. -/
theorem Rrx.Inv.append {u : Rrx} (hi : u.Inv) (ho : u.st = .opened) (hl : u.buf.length ≠ 256) (b : Byte) :
    Rrx.Inv { u with buf := u.buf ++ [b] } := by
  obtain ⟨hres, hexc, hplen⟩ := hi.of_opened ho
  have hcap := hi.capacity
  exact
    { idle := fun h => by simp [ho] at h
      capacity := append_within b (by omega)
      overrun := fun h => absurd (hi.overrun h) hl
      accepted := fun h => absurd h hres
      exception := fun h => by simp [hexc] at h
      rejected := fun _ => hplen }

/-- RRX_END with a result that is not OK: the fields an accepted frame has keep their BEGIN values. -/
theorem Rrx.Inv.reject {u : Rrx} (hi : u.Inv) (ho : u.st = .opened) {r : ResultCode} (hr : r ≠ .ok)
    (f : Half) : Rrx.Inv { u with st := .done, res := r, fcrc := f } := by
  obtain ⟨-, hexc, hplen⟩ := hi.of_opened ho
  exact
    { idle := nofun
      capacity := hi.capacity
      overrun := hi.overrun
      accepted := fun h => absurd h hr
      exception := fun h => by simp [hexc] at h
      rejected := fun _ => hplen }

/-- RRX_END on a frame that passes every check of R146. -/
theorem Rrx.Inv.accept {u : Rrx} (hi : u.Inv) (hl : 4 ≤ u.buf.length) (ha : byteAt u.buf 0 = u.unit)
    (hc : receivedCrc u.buf = carriedCrc u.buf) :
    Rrx.Inv
      { u with
        st := .done, res := .ok, fcrc := carriedCrc u.buf
        plen := BitVec.ofNat 9 (u.buf.length - 3)
        exc := isExceptionCode (byteAt u.buf 1) } := by
  have hcap := hi.capacity
  have hplen : (BitVec.ofNat 9 (u.buf.length - 3)).toNat = u.buf.length - 3 := by
    rw [BitVec.toNat_ofNat]
    exact Nat.mod_eq_of_lt (by omega)
  exact
    { idle := nofun
      capacity := hcap
      overrun := hi.overrun
      accepted := fun _ => ⟨rfl, hl, hplen, ha, rfl, hc.symm, rfl⟩
      exception := fun _ => rfl
      rejected := fun h => absurd rfl h }

theorem execRrxEnd_keeps_inv {s t : State} (hi : s.blk.rrx.Inv) (h : execRrxEnd s = .next t) :
    t.blk.rrx.Inv := by
  obtain ⟨-, rfl⟩ | ⟨ho, ⟨-, rfl⟩ | ⟨-, -, rfl⟩ | ⟨-, -, -, rfl⟩ | ⟨-, hl, hc⟩⟩ := execRrxEnd_cases h
  · exact hi
  · exact hi.reject ho (by decide) _
  · exact hi.reject ho (by decide) _
  · exact hi.reject ho (by decide) _
  · obtain ⟨-, rfl⟩ | ⟨-, -, rfl⟩ | ⟨ha, hcrc, rfl⟩ := checkFrame_cases hc
    · exact hi.reject ho (by decide) _
    · exact hi.reject ho (by decide) _
    · exact hi.accept hl ha hcrc

theorem exec_keeps_rrx_inv {s t : State} {i : Instr} (hi : s.blk.rrx.Inv) (h : exec i s = .next t) :
    t.blk.rrx.Inv := by
  by_cases hu : unitOf i = .rrx
  · obtain ⟨u, rfl⟩ | ⟨b, rfl⟩ | rfl := unitOf_eq_rrx hu
    · rw [execRrxBegin_next h]
      exact .of_begin u
    · obtain ⟨-, rfl⟩ | ⟨-, hl, rfl⟩ | ⟨ho, hl, rfl⟩ := execRrxByte_cases h
      · exact hi
      · exact hi.overflow hl
      · exact hi.append ho hl b
    · exact execRrxEnd_keeps_inv hi h
  · have hk : t.blk.rrx = s.blk.rrx := exec_keeps_unit h hu
    rwa [hk]

/-! ### MTX (R32, R33) -/

/-- An MTX unit that is not DONE, with no frame, and no PDU in IDLE. -/
theorem Mtx.Inv.of_unfinished {u : Mtx} (hd : u.st ≠ .done) (hidle : u.st = .idle → u.pdu = [])
    (hcap : u.pdu.length ≤ 253) (hframe : u.frame.length = 0) : u.Inv :=
  ⟨fun h => ⟨by simp [hidle h], hframe⟩, fun _ => hframe, fun h => absurd h hd, hcap, fun h => absurd h hd⟩

/-- MTX_END on a PDU of at least one byte. -/
theorem Mtx.Inv.finish {u : Mtx} (hi : u.Inv) (hl : u.pdu.length ≠ 0) :
    Mtx.Inv { u with st := .done, frame := mbapFrame u.tid u.unit u.pdu } :=
  ⟨nofun, nofun, fun _ => ⟨mbapFrame_length _ _ _, Nat.pos_of_ne_zero hl, hi.capacity⟩, hi.capacity,
    fun _ => rfl⟩

theorem exec_keeps_mtx_inv {s t : State} {i : Instr} (hi : s.blk.mtx.Inv) (h : exec i s = .next t) :
    t.blk.mtx.Inv := by
  by_cases hu : unitOf i = .mtx
  · obtain ⟨u, d, rfl⟩ | ⟨b, rfl⟩ | rfl := unitOf_eq_mtx hu
    · rw [execMtxBegin_next h]
      exact .of_unfinished nofun nofun (Nat.zero_le _) rfl
    · obtain ⟨-, rfl⟩ | ⟨ho, -, rfl⟩ | ⟨ho, hl, rfl⟩ := execMtxByte_cases h
      · exact hi
      · exact .of_unfinished nofun (fun _ => rfl) (Nat.zero_le _) (hi.opened ho)
      · have hcap := hi.capacity
        exact .of_unfinished (by simp [ho]) (by simp [ho]) (append_within b (by omega)) (hi.opened ho)
    · obtain ⟨-, rfl⟩ | ⟨ho, hl, rfl⟩ | ⟨-, hl, rfl⟩ := execMtxEnd_cases h
      · exact hi
      · exact .of_unfinished nofun (fun _ => List.length_eq_zero_iff.mp hl) hi.capacity (hi.opened ho)
      · exact hi.finish hl
  · have hk : t.blk.mtx = s.blk.mtx := exec_keeps_unit h hu
    rwa [hk]

/-! ### MRX (R34, R35, R54) -/

theorem Mrx.Inv.of_begin : Mrx.Inv ⟨.header, [], 0#16, 0#16, 0#16, 0#8, .none, []⟩ :=
  ⟨fun _ => ⟨Nat.zero_le _, rfl⟩, fun _ => ⟨rfl, rfl, rfl, rfl, rfl⟩, nofun, nofun, nofun, nofun, nofun⟩

/-- MRX_BYTE on one of the first six header bytes. -/
theorem Mrx.Inv.appendHeader {u : Mrx} (hi : u.Inv) (hs : u.st = .header) (hl : u.hdr.length ≠ 6) (b : Byte) :
    Mrx.Inv { u with hdr := u.hdr ++ [b] } := by
  obtain ⟨hle, hpdu⟩ := hi.collecting (.inr hs)
  exact
    { collecting := fun _ => ⟨append_within b (by omega), hpdu⟩
      unlatched := hi.unlatched
      latched := fun h => by simp [hs] at h
      valid := fun h => by simp [hs] at h
      pdu := fun h => by simp [hs] at h
      done := fun h => by simp [hs] at h
      error := fun h => by simp [hs] at h }

/-- The seventh header byte, when a check fails. -/
theorem Mrx.Inv.latchError {u : Mrx} (hpdu : u.pdu.length = 0) {hd : List Byte} (hl : hd.length = 7)
    {r : ResultCode} (hr : r = .mbapBadProtocol ∨ r = .mbapBadLength) :
    Mrx.Inv { latchHeader u hd with st := .error, res := r } :=
  { collecting := nofun
    unlatched := nofun
    latched := fun _ => ⟨hl, rfl, rfl, rfl, rfl⟩
    valid := nofun
    pdu := nofun
    done := nofun
    error := fun _ => ⟨hr, hpdu⟩ }

/-- The seventh header byte, when both checks pass. -/
theorem Mrx.Inv.latchPdu {u : Mrx} (hpdu : u.pdu.length = 0) {hd : List Byte} (hl : hd.length = 7)
    (hp : (latchHeader u hd).proto = 0#16) (h2 : 2 ≤ (latchHeader u hd).lenf.toNat)
    (h254 : (latchHeader u hd).lenf.toNat ≤ 254) : Mrx.Inv { latchHeader u hd with st := .pdu } :=
  { collecting := nofun
    unlatched := nofun
    latched := fun _ => ⟨hl, rfl, rfl, rfl, rfl⟩
    valid := fun _ => ⟨hp, h2, h254⟩
    pdu := fun _ => by
      have : (latchHeader u hd).pdu.length = 0 := hpdu
      dsimp only
      omega
    done := nofun
    error := nofun }

/-- MRX_BYTE on a PDU byte that is not the last. -/
theorem Mrx.Inv.appendPdu {u : Mrx} (hi : u.Inv) (hs : u.st = .pdu) (hl : u.pdu.length + 2 ≠ u.lenf.toNat)
    (b : Byte) : Mrx.Inv { u with pdu := u.pdu ++ [b] } := by
  have hlt := hi.pdu hs
  exact
    { collecting := fun h => by simp [hs] at h
      unlatched := fun h => by simp [hs] at h
      latched := hi.latched
      valid := hi.valid
      pdu := fun _ => by
        rw [List.length_append, List.length_singleton]
        dsimp only
        omega
      done := fun h => by simp [hs] at h
      error := fun h => by simp [hs] at h }

/-- MRX_BYTE on the last PDU byte. -/
theorem Mrx.Inv.finishPdu {u : Mrx} (hi : u.Inv) (hs : u.st = .pdu) (hl : u.pdu.length + 2 = u.lenf.toNat)
    (b : Byte) : Mrx.Inv { u with pdu := u.pdu ++ [b], st := .done, res := .ok } :=
  { collecting := nofun
    unlatched := nofun
    latched := fun _ => hi.latched (.inl hs)
    valid := fun _ => hi.valid (.inl hs)
    pdu := nofun
    done := fun _ => ⟨by rw [List.length_append, List.length_singleton]; dsimp only; omega, rfl⟩
    error := nofun }

theorem execMrxByte_keeps_inv {s t : State} {b : Byte} (hi : s.blk.mrx.Inv) (h : execMrxByte b s = .next t) :
    t.blk.mrx.Inv := by
  obtain ⟨-, -, rfl⟩ | ⟨hs, hl, rfl⟩ | ⟨hs, hl, hc⟩ | ⟨hs, hl, rfl⟩ | ⟨hs, hl, rfl⟩ := execMrxByte_cases h
  · exact hi
  · exact hi.appendHeader hs hl b
  · obtain ⟨-, hpdu⟩ := hi.collecting (.inr hs)
    have h7 : (s.blk.mrx.hdr ++ [b]).length = 7 := by simp [hl]
    obtain ⟨-, rfl⟩ | ⟨-, -, rfl⟩ | ⟨hp, h2, h254, rfl⟩ := checkHeader_cases hc
    · exact .latchError hpdu h7 (.inl rfl)
    · exact .latchError hpdu h7 (.inr rfl)
    · exact .latchPdu hpdu h7 hp h2 h254
  · exact hi.appendPdu hs hl b
  · exact hi.finishPdu hs hl b

theorem exec_keeps_mrx_inv {s t : State} {i : Instr} (hi : s.blk.mrx.Inv) (h : exec i s = .next t) :
    t.blk.mrx.Inv := by
  by_cases hu : unitOf i = .mrx
  · obtain rfl | ⟨b, rfl⟩ := unitOf_eq_mrx hu
    · rw [execMrxBegin_next h]
      exact .of_begin
    · exact execMrxByte_keeps_inv hi h
  · have hk : t.blk.mrx = s.blk.mrx := exec_keeps_unit h hu
    rwa [hk]

end Sys2Proof.Machine
end

section
/-! SUPPORT. The invariant of a run (10_state R40): reset has it, and every step keeps it. -/

namespace Sys2Proof.Machine

theorem Block.Inv.of_reset : Block.reset.Inv :=
  { rtx := .idle_empty
    rrx := ⟨fun _ => ⟨rfl, rfl⟩, Nat.zero_le _, nofun, nofun, nofun, fun _ => rfl⟩
    mtx := .of_unfinished nofun (fun _ => rfl) (Nat.zero_le _) rfl
    mrx := ⟨fun _ => ⟨Nat.zero_le _, rfl⟩, fun _ => ⟨rfl, rfl, rfl, rfl, rfl⟩, nofun, nofun, nofun, nofun,
      nofun⟩ }

theorem State.Inv.of_reset : State.Inv .reset := ⟨.of_reset, nofun⟩

/-- An answer keeps the invariant: the response word has bits [23:16] zero (R74). -/
theorem State.Inv.answered {s : State} (hb : s.blk.Inv) (r : ResultCode) (v : Half) :
    State.Inv (answered s r v) :=
  ⟨hb, fun w hw => by obtain rfl := Option.some.inj hw; exact responseWord_zero r v⟩

theorem exec_keeps_inv {s t : State} {i : Instr} (hi : State.Inv s) (h : exec i s = .next t) : State.Inv t := by
  obtain ⟨hrtx, hrrx, hmtx, hmrx⟩ := hi.blk
  have hb : t.blk.Inv := ⟨exec_keeps_rtx_inv hrtx h, exec_keeps_rrx_inv hrrx h, exec_keeps_mtx_inv hmtx h,
    exec_keeps_mrx_inv hmrx h⟩
  obtain ⟨w, r, v, -, rfl⟩ := exec_writes h
  exact .answered hb r v

/-- A word that decodes to nothing is answered ILLEGAL (R73, R76). -/
theorem serveWord_of_decode_none {w : Word} (h : decode w = none) (s : State) :
    serveWord w s = illegalWord s := by
  simp only [serveWord, h]

theorem serveWord_keeps_inv {s t : State} {w : Word} (hi : State.Inv s) (h : serveWord w s = .next t) :
    State.Inv t := by
  cases hd : decode w with
  | none =>
    rw [serveWord_of_decode_none hd] at h
    rw [raise_next h]
    exact .answered hi.blk .illegal 0#16
  | some i =>
    rw [serveWord_of_decode_some hd] at h
    exact exec_keeps_inv hi h

theorem serveInput_keeps_inv {s t : State} {p : HostInput} (hi : State.Inv s)
    (h : serveInput p s = .next t) : State.Inv t := by
  cases p with
  | command w => exact serveWord_keeps_inv hi h
  | reset =>
    obtain rfl := Host.Outcome.next.inj h
    exact ⟨.of_reset, nofun⟩
  | commandDuringReset w => cases h
  | concurrentCommands a b others => cases h

theorem step_keeps_inv {s t : State} (hi : State.Inv s) (h : step s = .next t) : State.Inv t := by
  cases hp : s.pending with
  | nil =>
    rw [step_of_pending_nil hp] at h
    obtain rfl := Host.Outcome.next.inj h
    exact hi
  | cons p rest =>
    rw [step_of_pending_cons hp] at h
    have hrest : State.Inv { s with pending := rest } := ⟨hi.blk, hi.resp⟩
    exact serveInput_keeps_inv hrest h

end Sys2Proof.Machine
end

section
/-! SUPPORT. What the invariant says of the buffers' lengths (10_state R21, R30 to R35), whatever state a unit is in. -/

namespace Sys2Proof.Machine

theorem Rtx.Inv.buf_length_le {u : Rtx} (hi : u.Inv) : u.buf.length ≤ 256 := by
  cases hs : u.st with
  | idle => have := hi.idle hs; omega
  | opened => have := hi.opened hs; omega
  | done => obtain ⟨-, hle, -⟩ := hi.done hs; exact hle

theorem Rrx.Inv.plen_le {u : Rrx} (hi : u.Inv) : u.plen.toNat ≤ 253 := by
  by_cases hr : u.res = .ok
  · obtain ⟨-, -, hplen, -⟩ := hi.accepted hr
    have := hi.capacity
    omega
  · rw [hi.rejected hr]
    decide

theorem Mtx.Inv.frame_length_le {u : Mtx} (hi : u.Inv) : u.frame.length ≤ 260 := by
  cases hs : u.st with
  | idle => have := hi.idle hs; omega
  | opened => have := hi.opened hs; omega
  | done => have := hi.done hs; omega

theorem Mrx.Inv.hdr_length_le {u : Mrx} (hi : u.Inv) : u.hdr.length ≤ 7 := by
  cases hs : u.st with
  | idle => have := hi.collecting (.inl hs); omega
  | header => have := hi.collecting (.inr hs); omega
  | pdu => have := (hi.latched (.inl hs)).1; omega
  | done => have := (hi.latched (.inr (.inl hs))).1; omega
  | error => have := (hi.latched (.inr (.inr hs))).1; omega

theorem Mrx.Inv.pdu_length_le {u : Mrx} (hi : u.Inv) : u.pdu.length ≤ 253 := by
  cases hs : u.st with
  | idle => have := hi.collecting (.inl hs); omega
  | header => have := hi.collecting (.inr hs); omega
  | pdu => have := hi.valid (.inl hs); have := hi.pdu hs; omega
  | done => have := hi.valid (.inr hs); have := hi.done hs; omega
  | error => have := hi.error hs; omega

end Sys2Proof.Machine
end

section
/-! The invariant and the frame of a command (10_state R21, R24, R39, R40). -/

namespace Sys2Proof.Proofs
open Sys2Proof.Machine

/-- Settles O46: each command keeps each unit's invariant, and an illegal word, reset and the idle step keep it too. -/
theorem everyStepKeepsTheInvariant : Obligations.EveryStepKeepsTheInvariant :=
  fun _ _ hi h => step_keeps_inv hi h

/-- Settles O45. -/
theorem resetSatisfiesTheInvariant : Obligations.ResetSatisfiesTheInvariant :=
  State.Inv.of_reset

/-- Settles O47: each bound is the invariant's, in whichever state the unit is. -/
theorem invariantBoundsEveryBuffer : Obligations.InvariantBoundsEveryBuffer := by
  rintro s ⟨⟨hrtx, hrrx, hmtx, hmrx⟩, -⟩
  exact ⟨(memory_wf_iff _).mpr ⟨hrtx.buf_length_le, hrrx.capacity, hmtx.capacity, hmtx.frame_length_le,
      hmrx.hdr_length_le, hmrx.pdu_length_le⟩,
    hrtx.buf_length_le, hrrx.capacity, hmtx.capacity, hmtx.frame_length_le, hmrx.hdr_length_le,
    hmrx.pdu_length_le, hrrx.plen_le⟩

/-- Settles O13: a command writes its own unit at most, and takes nothing from the port. -/
theorem commandsLeaveOtherUnitsAlone : Obligations.CommandsLeaveOtherUnitsAlone :=
  fun _ _ _ h => ⟨exec_keeps_unit (n := .rtx) h, exec_keeps_unit (n := .rrx) h, exec_keeps_unit (n := .mtx) h,
    exec_keeps_unit (n := .mrx) h, exec_keeps_pending h⟩

end Sys2Proof.Proofs
end

section
/-! SUPPORT. Bit fields of packed 16-bit values, for the STATUS view (10_state R27). -/

namespace Sys2Proof.Machine

/-- Shifting up leaves zero below. -/
theorem extractLsb'_shiftLeft_below (c : Half) {k lo n : Nat} (h : lo + n ≤ k) :
    (c <<< k).extractLsb' lo n = 0#n := by
  ext j hj
  simp only [BitVec.getElem_extractLsb', BitVec.getLsbD_shiftLeft, BitVec.getElem_zero]
  simp [show lo + j < k by omega]

/-- A value of `w` bits shifted up by `k` has nothing from bit `k + w` on. -/
theorem extractLsb'_shiftLeft_above {c : Half} {k lo n w : Nat} (hc : c.toNat < 2 ^ w) (h : k + w ≤ lo) :
    (c <<< k).extractLsb' lo n = 0#n := by
  ext j hj
  have hbit : c.getLsbD (lo + j - k) = false :=
    Nat.testBit_lt_two_pow (hc.trans_le (Nat.pow_le_pow_right (by decide) (by omega)))
  simp [hbit]

/-- The field a value was shifted to holds the value's low bits. -/
theorem extractLsb'_shiftLeft_same (c : Half) {k n : Nat} (h : k + n ≤ 16) :
    (c <<< k).extractLsb' k n = c.extractLsb' 0 n := by
  ext j hj
  simp [show k + j < 16 by omega, ← BitVec.getLsbD_eq_getElem]

theorem FrameSt.code_lt (st : FrameSt) : st.code.toNat < 2 ^ 2 := by cases st <;> decide
theorem ParseSt.code_lt (st : ParseSt) : st.code.toNat < 2 ^ 3 := by cases st <;> decide
theorem flagHalf_lt (f : Bool) : (flagHalf f).toNat < 2 ^ 1 := by cases f <;> decide

/-- A bit is a field of width 1. -/
theorem getLsbD_of_field {c : Half} {k : Nat} {f : Bool}
    (h : c.extractLsb' k 1 = (flagHalf f).extractLsb' 0 1) : c.getLsbD k = f := by
  have hb := congrArg (fun x => x.getLsbD 0) h
  cases f <;> simpa [flagHalf] using hb

/-- STATUS with every part shifted, the lowest by 0. -/
theorem statusWord_eq (b : Block) :
    statusWord b = b.rtx.st.code <<< 0 ||| b.rrx.st.code <<< 2 ||| b.mtx.st.code <<< 4 |||
      b.mrx.st.code <<< 6 ||| flagHalf b.rrx.ovf <<< 9 ||| flagHalf b.rrx.exc <<< 10 := by
  rw [BitVec.shiftLeft_zero, statusWord]

/-- The fields of STATUS (R27): at each position one part stands, and the others are zero there. -/
theorem statusWord_fields (b : Block) :
    (statusWord b).extractLsb' 0 2 = b.rtx.st.code.extractLsb' 0 2 ∧
    (statusWord b).extractLsb' 2 2 = b.rrx.st.code.extractLsb' 0 2 ∧
    (statusWord b).extractLsb' 4 2 = b.mtx.st.code.extractLsb' 0 2 ∧
    (statusWord b).extractLsb' 6 3 = b.mrx.st.code.extractLsb' 0 3 ∧
    (statusWord b).extractLsb' 9 1 = (flagHalf b.rrx.ovf).extractLsb' 0 1 ∧
    (statusWord b).extractLsb' 10 1 = (flagHalf b.rrx.exc).extractLsb' 0 1 ∧
    (statusWord b).extractLsb' 11 5 = 0#5 := by
  refine ⟨?_, ?_, ?_, ?_, ?_, ?_, ?_⟩ <;>
    simp (disch := decide) only [statusWord_eq, BitVec.extractLsb'_or, extractLsb'_shiftLeft_below,
      extractLsb'_shiftLeft_same, extractLsb'_shiftLeft_above (FrameSt.code_lt _),
      extractLsb'_shiftLeft_above (ParseSt.code_lt _), extractLsb'_shiftLeft_above (flagHalf_lt _),
      BitVec.or_zero, BitVec.zero_or]

/-- A response with result OK: its upper half is zero (R74, R300). -/
theorem responseWord_ok (v : Half) : responseWord .ok v = 0x0000#16 ++ v :=
  congrArg (· ++ v) (by decide : (0x00#8 ++ 0x00#8 : Half) = 0x0000#16)

/-- RD_REG of a selector that has a register answers its value and changes nothing else (R201). -/
theorem exec_rdReg_of_some {s : State} {sel : Byte} {v : Half} (h : readReg s.blk sel = some v) :
    exec (.rdReg sel) s = .next { s with resp := some (0x0000#16 ++ v) } := by
  rw [← responseWord_ok, ← respond_eq]
  exact congrArg (respondRead s) h

end Sys2Proof.Machine
end

section
/-! SUPPORT. Which commands write the CRC register and the RRX flags, and what (10_state R22, R37). -/

namespace Sys2Proof.Machine

/-- RTX_END writes the CRC register if it closes the frame (R122). -/
theorem execRtxEnd_crc {s t : State} (h : execRtxEnd s = .next t) :
    t.blk.crc = if s.blk.rtx.st = .opened ∧ 2 ≤ s.blk.rtx.buf.length then crc16 s.blk.rtx.buf
      else s.blk.crc := by
  obtain ⟨ho, rfl⟩ | ⟨-, hl, rfl⟩ | ⟨ho, hl, rfl⟩ := execRtxEnd_cases h
  · rw [if_neg (fun hc => ho hc.1)]; rfl
  · rw [if_neg (fun hc => by omega)]; rfl
  · rw [if_pos ⟨ho, hl⟩]; rfl

/-- The content checks write the CRC register whatever they find (R146). -/
theorem checkFrame_crc {s t : State} (h : checkFrame s = .next t) :
    t.blk.crc = receivedCrc s.blk.rrx.buf := by
  obtain ⟨-, rfl⟩ | ⟨-, -, rfl⟩ | ⟨-, -, rfl⟩ := checkFrame_cases h <;> rfl

/-- RRX_END writes the CRC register if the frame has 4 bytes or more and none overflowed (R146). -/
theorem execRrxEnd_crc {s t : State} (h : execRrxEnd s = .next t) :
    t.blk.crc =
      if s.blk.rrx.st = .opened ∧ s.blk.rrx.ovf = false ∧ 4 ≤ s.blk.rrx.buf.length then
        receivedCrc s.blk.rrx.buf
      else s.blk.crc := by
  obtain ⟨ho, rfl⟩ | ⟨ho, ⟨hl, rfl⟩ | ⟨-, hovf, rfl⟩ | ⟨-, -, hl, rfl⟩ | ⟨hovf, hl, hc⟩⟩ :=
    execRrxEnd_cases h
  · rw [if_neg (fun hc => ho hc.1)]; rfl
  · rw [if_neg (fun hc => by omega)]; rfl
  · rw [if_neg (fun hc => by simp [hovf] at hc)]; rfl
  · rw [if_neg (fun hc => by omega)]; rfl
  · rw [if_pos ⟨ho, hovf, hl⟩, checkFrame_crc hc]

theorem execRtxByte_keeps_crc {s t : State} {b : Byte} (h : execRtxByte b s = .next t) :
    t.blk.crc = s.blk.crc := by
  obtain ⟨-, rfl⟩ | ⟨-, -, rfl⟩ | ⟨-, -, rfl⟩ := execRtxByte_cases h <;> rfl

theorem execRrxByte_keeps_crc {s t : State} {b : Byte} (h : execRrxByte b s = .next t) :
    t.blk.crc = s.blk.crc := by
  obtain ⟨-, rfl⟩ | ⟨-, -, rfl⟩ | ⟨-, -, rfl⟩ := execRrxByte_cases h <;> rfl

/-- RRX_BYTE sets RR_OVF exactly when it is offered in OPEN to a full buffer; it leaves RR_EXC (R37, R145). -/
theorem execRrxByte_flags {s t : State} {b : Byte} (h : execRrxByte b s = .next t) :
    t.blk.rrx.ovf =
        (s.blk.rrx.ovf || decide (s.blk.rrx.st = .opened ∧ s.blk.rrx.buf.length = 256)) ∧
      t.blk.rrx.exc = s.blk.rrx.exc := by
  obtain ⟨ho, rfl⟩ | ⟨ho, hl, rfl⟩ | ⟨-, hl, rfl⟩ := execRrxByte_cases h
  · simp [ho]
  · simp [ho, hl]
  · simp [hl]

/-- RRX_END writes no RR_OVF (R37). -/
theorem execRrxEnd_keeps_ovf {s t : State} (h : execRrxEnd s = .next t) :
    t.blk.rrx.ovf = s.blk.rrx.ovf := by
  obtain ⟨-, rfl⟩ | ⟨-, ⟨-, rfl⟩ | ⟨-, -, rfl⟩ | ⟨-, -, -, rfl⟩ | ⟨-, -, hc⟩⟩ := execRrxEnd_cases h
  · rfl
  · rfl
  · rfl
  · rfl
  · obtain ⟨-, rfl⟩ | ⟨-, -, rfl⟩ | ⟨-, -, rfl⟩ := checkFrame_cases hc <;> rfl

/-- RR_EXC after RRX_END: outside OPEN it stands; in OPEN, where it was 0, it is bit 7 of the function code of an accepted frame (R37, R146). -/
theorem execRrxEnd_exc {s t : State} (hi : s.blk.rrx.Inv) (h : execRrxEnd s = .next t) :
    t.blk.rrx.exc =
      if s.blk.rrx.st = .opened then
        decide (t.blk.rrx.res = .ok) && (s.blk.rrx.buf.getD 1 0#8).getLsbD 7
      else s.blk.rrx.exc := by
  obtain ⟨ho, rfl⟩ | ⟨ho, hend⟩ := execRrxEnd_cases h
  · rw [if_neg ho]; rfl
  rw [if_pos ho]
  obtain ⟨-, hexc, -⟩ := hi.of_opened ho
  obtain ⟨-, rfl⟩ | ⟨-, -, rfl⟩ | ⟨-, -, -, rfl⟩ | ⟨-, -, hc⟩ := hend
  · simp [hexc]
  · simp [hexc]
  · simp [hexc]
  · obtain ⟨-, rfl⟩ | ⟨-, -, rfl⟩ | ⟨-, -, rfl⟩ := checkFrame_cases hc
    · simp [hexc]
    · simp [hexc]
    · rfl

end Sys2Proof.Machine
end

section
/-! The STATUS view, the CRC register and the RRX flags (10_state R22, R27, R37). -/

namespace Sys2Proof.Proofs
open Sys2Proof.Machine

/-- Settles O43: RD_REG 0x00 reads STATUS, whose fields are the units' codes and the two flags. -/
theorem statusRegisterShowsTheUnits : Obligations.StatusRegisterShowsTheUnits := by
  intro s
  obtain ⟨hrtx, hrrx, hmtx, hmrx, hovf, hexc, hzero⟩ := statusWord_fields s.blk
  refine ⟨statusWord s.blk, exec_rdReg_of_some rfl, hrtx.trans ?_, hrrx.trans ?_, hmtx.trans ?_,
    hmrx.trans ?_, getLsbD_of_field hovf, getLsbD_of_field hexc, hzero⟩
  · cases s.blk.rtx.st <;> rfl
  · cases s.blk.rrx.st <;> rfl
  · cases s.blk.mtx.st <;> rfl
  · cases s.blk.mrx.st <;> rfl

/-- Settles O18: RTX_END and RRX_END by their own lemmas; a read, MTX or MRX command writes no CRC at all. -/
theorem onlyTheseCommandsWriteTheCrc : Obligations.OnlyTheseCommandsWriteTheCrc := by
  refine ⟨fun s t i hcap h => ?_, fun s => exec_rdReg_of_some rfl, rfl⟩
  cases i with
  | crcInit | crcByte => rw [respond_next h]; rfl
  | rtxBegin => rw [execRtxBegin_next h]; rfl
  | rtxByte => exact execRtxByte_keeps_crc h
  | rtxEnd => exact execRtxEnd_crc h
  | rrxBegin => rw [execRrxBegin_next h]; rfl
  | rrxByte => exact execRrxByte_keeps_crc h
  | rrxEnd => simpa only [receivedCrc, hcap, and_true] using execRrxEnd_crc h
  | nop | rdReg | rdRtxb | rdRrxb | rdMtxb | rdMrxb => exact exec_keeps_crc h (.inl rfl)
  | mtxBegin | mtxByte | mtxEnd => exact exec_keeps_crc h (.inr (.inl rfl))
  | mrxBegin | mrxByte => exact exec_keeps_crc h (.inr (.inr rfl))

/-- Settles O30: a command of another unit leaves RRX as it was; RRX_END uses that RR_EXC is 0 in OPEN (log entry 7). -/
theorem onlyTheseCommandsWriteTheFlags : Obligations.OnlyTheseCommandsWriteTheFlags := by
  refine ⟨fun s t i hi h => ?_, rfl, rfl⟩
  have hother : unitOf i ≠ .rrx → t.blk.rrx = s.blk.rrx := exec_keeps_unit h
  cases i with
  | rrxBegin => rw [execRrxBegin_next h]; exact ⟨rfl, rfl⟩
  | rrxByte => exact execRrxByte_flags h
  | rrxEnd => exact ⟨execRrxEnd_keeps_ovf h, execRrxEnd_exc hi.blk.rrx h⟩
  | _ => exact ⟨congrArg Rrx.ovf (hother nofun), congrArg Rrx.exc (hother nofun)⟩

end Sys2Proof.Proofs
end

section
/-! SUPPORT. Which commands change the latched values of RRX, MTX and MRX, and in which states (10_state R24). -/

namespace Sys2Proof.Machine

theorem execRrxByte_keeps_latched {s t : State} {b : Byte} (h : execRrxByte b s = .next t) :
    t.blk.rrx.unit = s.blk.rrx.unit ∧ t.blk.rrx.res = s.blk.rrx.res ∧ t.blk.rrx.plen = s.blk.rrx.plen ∧
      t.blk.rrx.fcrc = s.blk.rrx.fcrc := by
  obtain ⟨-, rfl⟩ | ⟨-, -, rfl⟩ | ⟨-, -, rfl⟩ := execRrxByte_cases h <;> exact ⟨rfl, rfl, rfl, rfl⟩

/-- RRX_END writes RR_PLEN only with OK, and RR_FCRC only on 4 bytes or more with no overrun; outside OPEN it writes nothing (R146). -/
theorem execRrxEnd_latched {s t : State} (h : execRrxEnd s = .next t) :
    t.blk.rrx.unit = s.blk.rrx.unit ∧
      (t.blk.rrx = s.blk.rrx ∨
        s.blk.rrx.st = .opened ∧ (t.blk.rrx.plen = s.blk.rrx.plen ∨ t.blk.rrx.res = .ok) ∧
          (t.blk.rrx.fcrc = s.blk.rrx.fcrc ∨ s.blk.rrx.ovf = false ∧ 4 ≤ s.blk.rrx.buf.length)) := by
  obtain ⟨-, rfl⟩ | ⟨ho, ⟨-, rfl⟩ | ⟨-, -, rfl⟩ | ⟨-, -, -, rfl⟩ | ⟨hovf, hl, hc⟩⟩ := execRrxEnd_cases h
  · exact ⟨rfl, .inl rfl⟩
  · exact ⟨rfl, .inr ⟨ho, .inl rfl, .inl rfl⟩⟩
  · exact ⟨rfl, .inr ⟨ho, .inl rfl, .inl rfl⟩⟩
  · exact ⟨rfl, .inr ⟨ho, .inl rfl, .inl rfl⟩⟩
  · obtain ⟨-, rfl⟩ | ⟨-, -, rfl⟩ | ⟨-, -, rfl⟩ := checkFrame_cases hc
    · exact ⟨rfl, .inr ⟨ho, .inl rfl, .inr ⟨hovf, hl⟩⟩⟩
    · exact ⟨rfl, .inr ⟨ho, .inl rfl, .inr ⟨hovf, hl⟩⟩⟩
    · exact ⟨rfl, .inr ⟨ho, .inr rfl, .inr ⟨hovf, hl⟩⟩⟩

/-- How a command can change the RRX unit, as far as its latched values go. -/
theorem exec_rrx_changed {s t : State} {i : Instr} (h : exec i s = .next t) (hne : t.blk.rrx ≠ s.blk.rrx) :
    (∃ u, i = .rrxBegin u ∧ t.blk.rrx.unit = u) ∨
    (∃ b, i = .rrxByte b ∧ t.blk.rrx.unit = s.blk.rrx.unit ∧ t.blk.rrx.res = s.blk.rrx.res ∧
      t.blk.rrx.plen = s.blk.rrx.plen ∧ t.blk.rrx.fcrc = s.blk.rrx.fcrc) ∨
    (i = .rrxEnd ∧ s.blk.rrx.st = .opened ∧ t.blk.rrx.unit = s.blk.rrx.unit ∧
      (t.blk.rrx.plen = s.blk.rrx.plen ∨ t.blk.rrx.res = .ok) ∧
      (t.blk.rrx.fcrc = s.blk.rrx.fcrc ∨ s.blk.rrx.ovf = false ∧ 4 ≤ s.blk.rrx.buf.length)) := by
  have hu : unitOf i = .rrx := by_contra fun hn => hne (exec_keeps_unit (n := .rrx) h hn)
  obtain ⟨u, rfl⟩ | ⟨b, rfl⟩ | rfl := unitOf_eq_rrx hu
  · rw [execRrxBegin_next h]
    exact .inl ⟨u, rfl, rfl⟩
  · exact .inr (.inl ⟨b, rfl, execRrxByte_keeps_latched h⟩)
  · obtain ⟨hunit, hsame | ⟨ho, hplen, hfcrc⟩⟩ := execRrxEnd_latched h
    · exact absurd hsame hne
    · exact .inr (.inr ⟨rfl, ho, hunit, hplen, hfcrc⟩)

/-- The transaction and unit ids of the MTX unit (R24). -/
def Mtx.ids (u : Mtx) : Half × Byte := (u.tid, u.unit)

/-- MT_TID and MT_UNIT are written by MTX_BEGIN alone (R160 to R162). -/
theorem exec_mtx_ids_changed {s t : State} {i : Instr} (h : exec i s = .next t)
    (hne : t.blk.mtx.ids ≠ s.blk.mtx.ids) : i = .mtxBegin t.blk.mtx.unit t.blk.mtx.tid := by
  have hu : unitOf i = .mtx := by_contra fun hn =>
    hne (congrArg Mtx.ids (exec_keeps_unit (n := .mtx) h hn))
  obtain ⟨u, d, rfl⟩ | ⟨b, rfl⟩ | rfl := unitOf_eq_mtx hu
  · rw [execMtxBegin_next h]
    rfl
  · obtain ⟨-, rfl⟩ | ⟨-, -, rfl⟩ | ⟨-, -, rfl⟩ := execMtxByte_cases h <;> exact absurd rfl hne
  · obtain ⟨-, rfl⟩ | ⟨-, -, rfl⟩ | ⟨-, -, rfl⟩ := execMtxEnd_cases h <;> exact absurd rfl hne

/-- The header fields of the MRX unit (R24). -/
def Mrx.fields (u : Mrx) : Half × Half × Half × Byte := (u.tid, u.proto, u.lenf, u.unit)

/-- MRX_BYTE takes the seventh header byte, with MR_RES written only if a check fails, or it leaves the header fields, with MR_RES written only on the last PDU byte (R181). -/
theorem execMrxByte_latched {s t : State} {b : Byte} (h : execMrxByte b s = .next t) :
    (s.blk.mrx.st = .header ∧ s.blk.mrx.hdr.length = 6 ∧
      (t.blk.mrx.res = s.blk.mrx.res ∨ t.blk.mrx.st = .error)) ∨
    (t.blk.mrx.fields = s.blk.mrx.fields ∧
      (t.blk.mrx.res = s.blk.mrx.res ∨
        s.blk.mrx.st = .pdu ∧ s.blk.mrx.pdu.length + 2 = s.blk.mrx.lenf.toNat ∧
          t.blk.mrx.st = .done)) := by
  obtain ⟨-, -, rfl⟩ | ⟨-, -, rfl⟩ | ⟨hs, hl, hc⟩ | ⟨-, -, rfl⟩ | ⟨hs, hl, rfl⟩ := execMrxByte_cases h
  · exact .inr ⟨rfl, .inl rfl⟩
  · exact .inr ⟨rfl, .inl rfl⟩
  · obtain ⟨-, rfl⟩ | ⟨-, -, rfl⟩ | ⟨-, -, -, rfl⟩ := checkHeader_cases hc
    · exact .inl ⟨hs, hl, .inr rfl⟩
    · exact .inl ⟨hs, hl, .inr rfl⟩
    · exact .inl ⟨hs, hl, .inl rfl⟩
  · exact .inr ⟨rfl, .inl rfl⟩
  · exact .inr ⟨rfl, .inr ⟨hs, hl, rfl⟩⟩

/-- A change of the MRX unit is MRX_BEGIN's or MRX_BYTE's. -/
theorem exec_mrx_changed {s t : State} {i : Instr} (h : exec i s = .next t) (hne : t.blk.mrx ≠ s.blk.mrx) :
    i = .mrxBegin ∨ ∃ b, i = .mrxByte b ∧ execMrxByte b s = .next t := by
  have hu : unitOf i = .mrx := by_contra fun hn => hne (exec_keeps_unit (n := .mrx) h hn)
  obtain rfl | ⟨b, rfl⟩ := unitOf_eq_mrx hu
  · exact .inl rfl
  · exact .inr ⟨b, rfl, h⟩

theorem exec_rrx_unit_changed {s t : State} {i : Instr} (h : exec i s = .next t)
    (hne : t.blk.rrx.unit ≠ s.blk.rrx.unit) : ∃ u, i = .rrxBegin u ∧ t.blk.rrx.unit = u := by
  obtain hb | ⟨b, -, hk, -⟩ | ⟨-, -, hk, -⟩ := exec_rrx_changed h (mt (congrArg Rrx.unit) hne)
  · exact hb
  · exact absurd hk hne
  · exact absurd hk hne

theorem exec_rrx_res_changed {s t : State} {i : Instr} (h : exec i s = .next t)
    (hne : t.blk.rrx.res ≠ s.blk.rrx.res) :
    (∃ u, i = .rrxBegin u) ∨ i = .rrxEnd ∧ s.blk.rrx.st = .opened := by
  obtain ⟨u, hb, -⟩ | ⟨b, -, -, hk, -⟩ | ⟨he, ho, -⟩ := exec_rrx_changed h (mt (congrArg Rrx.res) hne)
  · exact .inl ⟨u, hb⟩
  · exact absurd hk hne
  · exact .inr ⟨he, ho⟩

theorem exec_rrx_plen_changed {s t : State} {i : Instr} (h : exec i s = .next t)
    (hne : t.blk.rrx.plen ≠ s.blk.rrx.plen) :
    (∃ u, i = .rrxBegin u) ∨ i = .rrxEnd ∧ s.blk.rrx.st = .opened ∧ t.blk.rrx.res = .ok := by
  obtain ⟨u, hb, -⟩ | ⟨b, -, -, -, hk, -⟩ | ⟨he, ho, -, hk, -⟩ :=
    exec_rrx_changed h (mt (congrArg Rrx.plen) hne)
  · exact .inl ⟨u, hb⟩
  · exact absurd hk hne
  · exact .inr ⟨he, ho, hk.resolve_left hne⟩

theorem exec_rrx_fcrc_changed {s t : State} {i : Instr} (h : exec i s = .next t)
    (hne : t.blk.rrx.fcrc ≠ s.blk.rrx.fcrc) :
    (∃ u, i = .rrxBegin u) ∨
      i = .rrxEnd ∧ s.blk.rrx.st = .opened ∧ s.blk.rrx.ovf = false ∧ 4 ≤ s.blk.rrx.buf.length := by
  obtain ⟨u, hb, -⟩ | ⟨b, -, -, -, -, hk⟩ | ⟨he, ho, -, -, hk⟩ :=
    exec_rrx_changed h (mt (congrArg Rrx.fcrc) hne)
  · exact .inl ⟨u, hb⟩
  · exact absurd hk hne
  · exact .inr ⟨he, ho, hk.resolve_left hne⟩

theorem exec_mrx_fields_changed {s t : State} {i : Instr} (h : exec i s = .next t)
    (hne : t.blk.mrx.fields ≠ s.blk.mrx.fields) :
    i = .mrxBegin ∨ ∃ b, i = .mrxByte b ∧ s.blk.mrx.st = .header ∧ s.blk.mrx.hdr.length = 6 := by
  obtain hb | ⟨b, hi, hx⟩ := exec_mrx_changed h (mt (congrArg Mrx.fields) hne)
  · exact .inl hb
  · obtain ⟨hs, hl, -⟩ | ⟨hk, -⟩ := execMrxByte_latched hx
    · exact .inr ⟨b, hi, hs, hl⟩
    · exact absurd hk hne

theorem exec_mrx_res_changed {s t : State} {i : Instr} (h : exec i s = .next t)
    (hne : t.blk.mrx.res ≠ s.blk.mrx.res) :
    i = .mrxBegin ∨ ∃ b, i = .mrxByte b ∧
      (s.blk.mrx.st = .header ∧ s.blk.mrx.hdr.length = 6 ∧ t.blk.mrx.st = .error ∨
        s.blk.mrx.st = .pdu ∧ s.blk.mrx.pdu.length + 2 = s.blk.mrx.lenf.toNat ∧ t.blk.mrx.st = .done) := by
  obtain hb | ⟨b, hi, hx⟩ := exec_mrx_changed h (mt (congrArg Mrx.res) hne)
  · exact .inl hb
  · obtain ⟨hs, hl, hr⟩ | ⟨-, hr⟩ := execMrxByte_latched hx
    · exact .inr ⟨b, hi, .inl ⟨hs, hl, hr.resolve_left hne⟩⟩
    · exact .inr ⟨b, hi, .inr (hr.resolve_left hne)⟩

end Sys2Proof.Machine
end

section
/-! SUPPORT. Runs in which a unit's commands are interleaved with others (20_memory R60, 10_state R24): such a run goes from one command of the unit to its next with the unit as it was. -/

namespace Sys2Proof.Machine

/-- Every command answers: none faults and none is refused (R304). -/
theorem exec_total (i : Instr) (s : State) : ∃ t, exec i s = .next t := by
  have hread : ∀ o, ∃ t, respondRead s o = .next t := fun o => by cases o <;> exact ⟨_, rfl⟩
  cases i with
  | nop | crcInit | crcByte | rtxBegin | rrxBegin | mtxBegin | mrxBegin => exact ⟨_, rfl⟩
  | rtxByte => unfold exec execRtxByte; split_ifs <;> exact ⟨_, rfl⟩
  | rtxEnd => unfold exec execRtxEnd; split_ifs <;> exact ⟨_, rfl⟩
  | rrxByte => unfold exec execRrxByte; split_ifs <;> exact ⟨_, rfl⟩
  | rrxEnd => unfold exec execRrxEnd checkFrame; dsimp only; split_ifs <;> exact ⟨_, rfl⟩
  | mtxByte => unfold exec execMtxByte; split_ifs <;> exact ⟨_, rfl⟩
  | mtxEnd => unfold exec execMtxEnd; split_ifs <;> exact ⟨_, rfl⟩
  | mrxByte =>
    unfold exec execMrxByte mrxHeaderByte mrxPduByte checkHeader
    dsimp only
    split
    · split_ifs <;> exact ⟨_, rfl⟩
    · split_ifs <;> exact ⟨_, rfl⟩
    · exact ⟨_, rfl⟩
    · exact ⟨_, rfl⟩
    · exact ⟨_, rfl⟩
  | rdReg | rdRtxb | rdRrxb | rdMtxb | rdMrxb => exact hread _

theorem UnitKept.refl (s : State) (n : UnitName) : UnitKept s s n := by cases n <;> simp [UnitKept]

theorem UnitKept.trans {s t r : State} {n : UnitName} (h : UnitKept s t n) (h' : UnitKept t r n) :
    UnitKept s r n := by
  cases n with
  | crc | none => trivial
  | rtx | rrx | mtx | mrx => exact Eq.trans h' h

theorem execAll_cons {s t r : State} {i : Instr} {l : List Instr} {log : List Exchange}
    (h : exec i s = .next t) (hl : execAll l t = .next (r, log)) :
    execAll (i :: l) s = .next (r, (i, t.resp) :: log) := by
  simp only [execAll, h, hl]

theorem responsesOf_cons_own {n : UnitName} {i : Instr} (hi : unitOf i = n) (w : Option Word)
    (log : List Exchange) : responsesOf n ((i, w) :: log) = w :: responsesOf n log := by
  simp [responsesOf, hi]

theorem responsesOf_cons_other {n : UnitName} {i : Instr} (hi : unitOf i ≠ n) (w : Option Word)
    (log : List Exchange) : responsesOf n ((i, w) :: log) = responsesOf n log := by
  simp [responsesOf, hi]

/-- Commands of other units before a run leave the unit as it was and add nothing to its responses. -/
theorem execAll_skip {n : UnitName} {pre : List Instr} (hpre : ∀ i ∈ pre, unitOf i ≠ n) (s : State) :
    ∃ s', UnitKept s s' n ∧ ∀ l t log, execAll l s' = .next (t, log) →
      ∃ log', execAll (pre ++ l) s = .next (t, log') ∧ responsesOf n log' = responsesOf n log := by
  induction pre generalizing s with
  | nil => exact ⟨s, .refl s n, fun l t log h => ⟨log, h, rfl⟩⟩
  | cons i pre ih =>
    have hi : unitOf i ≠ n := hpre i List.mem_cons_self
    obtain ⟨s₁, h₁⟩ := exec_total i s
    obtain ⟨s', hk, hrun⟩ := ih (fun j hj => hpre j (List.mem_cons_of_mem i hj)) s₁
    refine ⟨s', (exec_keeps_unit h₁ hi).trans hk, fun l t log h => ?_⟩
    obtain ⟨log', hl, hresp⟩ := hrun l t log h
    exact ⟨_, execAll_cons h₁ hl, (responsesOf_cons_other hi _ _).trans hresp⟩

/-- A run with no command of the unit. -/
theorem execAll_of_onlyUnit_nil {n : UnitName} {l : List Instr} (h : onlyUnit n l = []) (s : State) :
    ∃ t log, execAll l s = .next (t, log) ∧ UnitKept s t n ∧ responsesOf n log = [] := by
  have hl : ∀ i ∈ l, unitOf i ≠ n := fun i hi => by simpa using List.filter_eq_nil_iff.mp h i hi
  obtain ⟨t, hk, hrun⟩ := execAll_skip hl s
  obtain ⟨log, hl, hresp⟩ := hrun [] t [] rfl
  exact ⟨t, log, by rwa [List.append_nil] at hl, hk, hresp⟩

/-- A run up to and with the unit's first command `i`: it is executed with the unit as it was, and the rest of the run follows. -/
theorem execAll_of_onlyUnit_cons {n : UnitName} {l js : List Instr} {i : Instr}
    (h : onlyUnit n l = i :: js) (s : State) :
    ∃ s' t post, UnitKept s s' n ∧ exec i s' = .next t ∧ onlyUnit n post = js ∧
      ∀ r log, execAll post t = .next (r, log) →
        ∃ log', execAll l s = .next (r, log') ∧ responsesOf n log' = t.resp :: responsesOf n log := by
  obtain ⟨pre, post, rfl, hpre, hi, hpost⟩ := List.filter_eq_cons_iff.mp h
  obtain ⟨s', hk, hrun⟩ := execAll_skip (n := n) (fun j hj => by simpa using hpre j hj) s
  obtain ⟨t, ht⟩ := exec_total i s'
  refine ⟨s', t, post, hk, ht, hpost, fun r log hr => ?_⟩
  obtain ⟨log', hl, hresp⟩ := hrun _ _ _ (execAll_cons ht hr)
  exact ⟨log', hl, hresp.trans (responsesOf_cons_own (of_decide_eq_true hi) _ _)⟩

end Sys2Proof.Machine
end

section
/-! SUPPORT. Reception in the RRX unit (10_state R31, R37; 42_rtu_deframer R141, R145). -/

namespace Sys2Proof.Machine

/-- The RRX unit is receiving from unit `u` and has been offered the bytes `offered` since RRX_BEGIN. -/
structure Receiving (s : State) (u : Byte) (offered : List Byte) : Prop where
  opened : s.blk.rrx.st = .opened
  unit : s.blk.rrx.unit = u
  buf : s.blk.rrx.buf = offered.take 256
  ovf : s.blk.rrx.ovf = decide (256 < offered.length)

theorem Receiving.of_kept {s t : State} {u : Byte} {offered : List Byte} (h : Receiving s u offered)
    (hk : UnitKept s t .rrx) : Receiving t u offered := by
  have hk : t.blk.rrx = s.blk.rrx := hk
  exact ⟨hk ▸ h.opened, hk ▸ h.unit, hk ▸ h.buf, hk ▸ h.ovf⟩

theorem execRrxBegin_receiving {s t : State} {u : Byte} (h : execRrxBegin u s = .next t) :
    Receiving t u [] ∧ t.resp = some 0x00000000#32 := by
  rw [execRrxBegin_next h]
  exact ⟨⟨rfl, rfl, rfl, rfl⟩, rfl⟩

/-- While receiving, RRX_BYTE answers OK up to the 256th byte and OVERFLOW from then on (R145). -/
theorem Receiving.byte {s t : State} {u b : Byte} {offered : List Byte} (hr : Receiving s u offered)
    (h : execRrxByte b s = .next t) :
    Receiving t u (offered ++ [b]) ∧
      t.resp = some (if offered.length < 256 then 0x00000000#32 else 0x03000000#32) := by
  obtain ⟨ho, hu, hb, hovf⟩ := hr
  obtain ⟨hn, -⟩ | ⟨-, hl, rfl⟩ | ⟨-, hl, rfl⟩ := execRrxByte_cases h
  · exact absurd ho hn
  · have hfull : 256 ≤ offered.length := by simpa [hb] using hl
    refine ⟨⟨ho, hu, hb.trans (List.take_append_of_le_length hfull).symm, ?_⟩, ?_⟩
    · simp; omega
    · rw [if_neg (by omega)]; rfl
  · have hroom : offered.length < 256 := by
      rw [hb, List.length_take] at hl
      omega
    refine ⟨⟨ho, hu, ?_, ?_⟩, ?_⟩
    · rw [List.take_of_length_le (append_within b hroom)]
      simp [hb, List.take_of_length_le hroom.le]
    · simp [hovf]; omega
    · rw [if_pos hroom]; rfl

/-- The responses to `n` bytes offered after `m` others: OK while there is room, then OVERFLOW. -/
def byteResponses (m n : Nat) : List (Option Word) :=
  List.replicate (min n (256 - m)) (some 0x00000000#32) ++
    List.replicate (n - (256 - m)) (some 0x03000000#32)

theorem byteResponses_succ (m n : Nat) :
    byteResponses m (n + 1) =
      some (if m < 256 then 0x00000000#32 else 0x03000000#32) :: byteResponses (m + 1) n := by
  by_cases h : m < 256
  · have h₁ : min (n + 1) (256 - m) = min n (256 - (m + 1)) + 1 := by omega
    have h₂ : n + 1 - (256 - m) = n - (256 - (m + 1)) := by omega
    simp [byteResponses, h, h₁, h₂, List.replicate_succ]
  · have h₀ : 256 - m = 0 := by omega
    have h₁ : 256 - (m + 1) = 0 := by omega
    simp [byteResponses, h, h₀, h₁, List.replicate_succ]

/-- Bytes offered while receiving, with other units' commands between them. -/
theorem Receiving.run {u : Byte} {s : State} {offered bs : List Byte} {l : List Instr}
    (hr : Receiving s u offered) (hl : onlyUnit .rrx l = bs.map .rrxByte) :
    ∃ t log, execAll l s = .next (t, log) ∧ Receiving t u (offered ++ bs) ∧
      responsesOf .rrx log = byteResponses offered.length bs.length := by
  induction bs generalizing s offered l with
  | nil =>
    obtain ⟨t, log, hrun, hk, hresp⟩ := execAll_of_onlyUnit_nil hl s
    exact ⟨t, log, hrun, by simpa using hr.of_kept hk, by simp [hresp, byteResponses]⟩
  | cons b bs ih =>
    obtain ⟨s', t, post, hk, ht, hpost, hrun⟩ := execAll_of_onlyUnit_cons hl s
    obtain ⟨hr', hresp⟩ := (hr.of_kept hk).byte ht
    obtain ⟨r, log, hr, hrecv, hlog⟩ := ih hr' hpost
    obtain ⟨log', hall, hlog'⟩ := hrun r log hr
    refine ⟨r, log', hall, by simpa using hrecv, ?_⟩
    rw [hlog', hresp, hlog, List.length_append, List.length_singleton, List.length_cons, byteResponses_succ]

end Sys2Proof.Machine
end

section
/-! The latched values and reception (10_state R24, R31, R37). -/

namespace Sys2Proof.Proofs
open Sys2Proof.Machine

/-- Settles O14: a changed value is in a changed unit, so the command is the unit's, and its cases say which values it writes. -/
theorem latchedValuesChangeOnlyByTheirCommands : Obligations.LatchedValuesChangeOnlyByTheirCommands :=
  fun _ _ _ h => ⟨exec_rrx_unit_changed h, exec_rrx_res_changed h, exec_rrx_plen_changed h,
    exec_rrx_fcrc_changed h, exec_mtx_ids_changed h, exec_mrx_fields_changed h, exec_mrx_res_changed h⟩

/-- Settles O29: by induction on the bytes offered, the buffer holds the first 256 of those offered so far. -/
theorem receptionKeepsTheFirst256Bytes : Obligations.ReceptionKeepsTheFirst256Bytes := by
  intro s u bs l hl
  obtain ⟨s', t, post, -, ht, hpost, hrun⟩ := execAll_of_onlyUnit_cons hl s
  obtain ⟨hbegin, hresp⟩ := execRrxBegin_receiving ht
  obtain ⟨r, log, hr, hrecv, hlog⟩ := hbegin.run hpost
  obtain ⟨log', hall, hlog'⟩ := hrun r log hr
  refine ⟨r, log', hall, hrecv.opened, hrecv.unit, hrecv.buf, hrecv.ovf, ?_⟩
  simp [hlog', hresp, hlog, byteResponses, Nat.add_comm 1, List.replicate_succ]

end Sys2Proof.Proofs
end

section
/-! SUPPORT. The word of a command decodes to the command (30_encoding R70 to R73). -/

namespace Sys2Proof
open Laws

/-- Every command's word lies in the row of its mnemonic, and the word's fields build the command again. -/
theorem encodesInItsRow : ∀ i : Instr, EncodesInItsRow.Statement i
  | .nop => EncodesInItsRow.nop
  | .crcInit => EncodesInItsRow.crcInit
  | .crcByte b => EncodesInItsRow.crcByte b
  | .rtxBegin u => EncodesInItsRow.rtxBegin u
  | .rtxByte b => EncodesInItsRow.rtxByte b
  | .rtxEnd => EncodesInItsRow.rtxEnd
  | .rrxBegin u => EncodesInItsRow.rrxBegin u
  | .rrxByte b => EncodesInItsRow.rrxByte b
  | .rrxEnd => EncodesInItsRow.rrxEnd
  | .mtxBegin u h => EncodesInItsRow.mtxBegin u h
  | .mtxByte b => EncodesInItsRow.mtxByte b
  | .mtxEnd => EncodesInItsRow.mtxEnd
  | .mrxBegin => EncodesInItsRow.mrxBegin
  | .mrxByte b => EncodesInItsRow.mrxByte b
  | .rdReg s => EncodesInItsRow.rdReg s
  | .rdRtxb k => EncodesInItsRow.rdRtxb k
  | .rdRrxb k => EncodesInItsRow.rdRrxb k
  | .rdMtxb k => EncodesInItsRow.rdMtxb k
  | .rdMrxb k => EncodesInItsRow.rdMrxb k

/-- A byte or selector operand leaves `D[15:8]` zero (R71). -/
@[simp] theorem byteInD_high (b : Byte) : (byteInD b).extractLsb' 8 8 = 0#8 := by
  unfold byteInD
  exact BitVec.extractLsb'_append_eq_left

/-- A command's word sets no must-be-zero bit of its format (R71). -/
theorem encode_fits (i : Instr) : i.mnemonic.format.fits (uField (encode i)) (dField (encode i)) := by
  cases i <;> simp [encode, Instr.mnemonic, Mnemonic.format, Format.fits]

/-- The decoder takes a command's word back to the command (R73). -/
theorem decode_encode (i : Instr) : decode (encode i) = some i := by
  obtain ⟨row, hrow, hmnemonic, hbuild⟩ := encodesInItsRow i
  have hmem : row ∈ opcodeTable := List.mem_of_find?_eq_some hrow
  have hop : row.op = opField (encode i) := by simpa using List.find?_some hrow
  have hfits : row.mnemonic.format.fits (uField (encode i)) (dField (encode i)) := hmnemonic ▸ encode_fits i
  calc decode (encode i)
      = decode (commandWord row.op (uField (encode i)) (dField (encode i))) := by rw [hop, commandWord_fields]
    _ = some (row.mnemonic.build (uField (encode i)) (dField (encode i))) := decode_fits hmem hfits
    _ = some i := by rw [hbuild]

end Sys2Proof
end

section
/-! SUPPORT. A command reads the block alone (20_memory R50, R57), so a sequence of commands runs the same whatever waits on the port (20_memory R60). -/

namespace Sys2Proof.Machine

/-- Two states with one block are answered alike: a command reads neither the pending inputs nor the last response. -/
theorem exec_of_blk_eq {s s' t : State} {i : Instr} (hb : s'.blk = s.blk) (h : exec i s = .next t) :
    exec i s' = .next { t with pending := s'.pending } := by
  obtain ⟨b, p, w⟩ := s
  obtain ⟨b', p', w'⟩ := s'
  obtain rfl : b = b' := hb.symm
  have hread : ∀ o, respondRead ⟨b, p, w⟩ o = .next t →
      respondRead ⟨b, p', w'⟩ o = .next { t with pending := p' } := fun o h => by
    obtain ⟨v, rfl, rfl⟩ | ⟨rfl, rfl⟩ := respondRead_next h <;> rfl
  cases i with
  | nop | crcInit | crcByte | rtxBegin | rrxBegin | mtxBegin | mrxBegin => cases h; rfl
  | rtxByte => unfold exec execRtxByte at h ⊢; split_ifs at h ⊢ <;> cases h <;> rfl
  | rtxEnd => unfold exec execRtxEnd at h ⊢; split_ifs at h ⊢ <;> cases h <;> rfl
  | rrxByte => unfold exec execRrxByte at h ⊢; split_ifs at h ⊢ <;> cases h <;> rfl
  | rrxEnd => unfold exec execRrxEnd checkFrame at h ⊢; dsimp only at h ⊢; split_ifs at h ⊢ <;> cases h <;> rfl
  | mtxByte => unfold exec execMtxByte at h ⊢; split_ifs at h ⊢ <;> cases h <;> rfl
  | mtxEnd => unfold exec execMtxEnd at h ⊢; split_ifs at h ⊢ <;> cases h <;> rfl
  | mrxByte =>
    unfold exec execMrxByte mrxHeaderByte mrxPduByte checkHeader at h ⊢
    dsimp only at h ⊢
    cases hs : b.mrx.st with
    | header | pdu => simp only [hs] at h ⊢; split_ifs at h ⊢ <;> cases h <;> rfl
    | idle | done | error => simp only [hs] at h ⊢; cases h; rfl
  | rdReg | rdRtxb | rdRrxb | rdMtxb | rdMrxb => exact hread _ h

/-- A command's word, presented next, is executed by one step, which leaves the inputs after it in place (R60, R73). -/
theorem step_of_presented {s t : State} {i : Instr} (h : exec i s = .next t) (p : List HostInput) :
    step { s with pending := .command (encode i) :: p } = .next { t with pending := p } :=
  calc step { s with pending := .command (encode i) :: p }
      = serveInput (.command (encode i)) { s with pending := p } := step_of_pending_cons rfl
    _ = exec i { s with pending := p } := serveWord_of_decode_some (decode_encode i) _
    _ = .next { t with pending := p } := exec_of_blk_eq (s := s) rfl h

/-- The words of a command sequence, one host input each. -/
def wordsOf (l : List Instr) : List HostInput := l.map fun i => .command (encode i)

/-- A sequence of commands takes nothing from the port, and its words, presented before any inputs `p`, run to the same state with `p` left (R60). -/
theorem execAll_presented (l : List Instr) (s : State) :
    ∃ t log, execAll l s = .next (t, log) ∧ t.pending = s.pending ∧
      ∀ p, Host.Core.run core l.length { s with pending := wordsOf l ++ p } = .next { t with pending := p } := by
  induction l generalizing s with
  | nil => exact ⟨s, [], rfl, rfl, fun p => rfl⟩
  | cons i l ih =>
    obtain ⟨s₁, h₁⟩ := exec_total i s
    obtain ⟨t, log, hl, hp, hrun⟩ := ih s₁
    refine ⟨t, _, execAll_cons h₁ hl, hp.trans (exec_keeps_pending h₁), fun p => ?_⟩
    have hstep : core.step { s with pending := wordsOf (i :: l) ++ p } =
        .next { s₁ with pending := wordsOf l ++ p } := step_of_presented h₁ _
    simp only [List.length_cons, Host.Core.run, hstep]
    exact hrun p

end Sys2Proof.Machine
end

section
/-! SUPPORT. What a command does when it is issued again (20_memory R57). -/

namespace Sys2Proof.Machine

theorem execRtxEnd_closes {s t : State} (h : execRtxEnd s = .next t) : t.blk.rtx.st ≠ .opened := by
  obtain ⟨hs, rfl⟩ | ⟨-, -, rfl⟩ | ⟨-, -, rfl⟩ := execRtxEnd_cases h
  · exact hs
  · simp
  · simp

theorem execRrxEnd_closes {s t : State} (h : execRrxEnd s = .next t) : t.blk.rrx.st ≠ .opened := by
  obtain ⟨hs, rfl⟩ | ⟨-, ⟨-, rfl⟩ | ⟨-, -, rfl⟩ | ⟨-, -, -, rfl⟩ | ⟨-, -, hc⟩⟩ := execRrxEnd_cases h
  · exact hs
  · simp
  · simp
  · simp
  · obtain ⟨-, rfl⟩ | ⟨-, -, rfl⟩ | ⟨-, -, rfl⟩ := checkFrame_cases hc <;> simp

theorem execMtxEnd_closes {s t : State} (h : execMtxEnd s = .next t) : t.blk.mtx.st ≠ .opened := by
  obtain ⟨hs, rfl⟩ | ⟨-, -, rfl⟩ | ⟨-, -, rfl⟩ := execMtxEnd_cases h
  · exact hs
  · simp
  · simp

theorem execRtxEnd_of_closed {s : State} (h : s.blk.rtx.st ≠ .opened) :
    execRtxEnd s = .next { s with resp := some 0x02000000#32 } := if_pos h

theorem execRrxEnd_of_closed {s : State} (h : s.blk.rrx.st ≠ .opened) :
    execRrxEnd s = .next { s with resp := some 0x02000000#32 } := if_pos h

theorem execMtxEnd_of_closed {s : State} (h : s.blk.mtx.st ≠ .opened) :
    execMtxEnd s = .next { s with resp := some 0x02000000#32 } := if_pos h

/-- A command that drives no unit changes the response word alone, so it is answered the same again. -/
theorem exec_twice_of_no_unit {s t : State} {i : Instr} (h : exec i s = .next t) (hi : unitOf i = .none) :
    t.blk = s.blk ∧ exec i t = .next t := by
  obtain ⟨w, r, v, hw, rfl⟩ := exec_writes h
  obtain rfl : w = s := by rwa [hi] at hw
  exact ⟨rfl, exec_of_blk_eq rfl h⟩

/-- CRC_INIT and the BEGINs overwrite what they write whatever was there, so a second one changes nothing more (R102, R120, R141, R160, R180). -/
theorem exec_twice_of_begin {s t : State} {i : Instr} (h : exec i s = .next t)
    (hi : i = .crcInit ∨ i = .mrxBegin ∨ (∃ u, i = .rtxBegin u ∨ i = .rrxBegin u) ∨ ∃ u d, i = .mtxBegin u d) :
    exec i t = .next t := by
  obtain rfl | rfl | ⟨u, rfl | rfl⟩ | ⟨u, d, rfl⟩ := hi
  · obtain rfl := respond_next h; rfl
  · obtain rfl := execMrxBegin_next h; rfl
  · obtain rfl := execRtxBegin_next h; rfl
  · obtain rfl := execRrxBegin_next h; rfl
  · obtain rfl := execMtxBegin_next h; rfl

/-- An END leaves its unit closed, so the next one is refused. -/
theorem exec_twice_of_end {s t : State} {i : Instr} (h : exec i s = .next t)
    (hi : i = .rtxEnd ∨ i = .rrxEnd ∨ i = .mtxEnd) :
    exec i t = .next { t with resp := some 0x02000000#32 } := by
  obtain rfl | rfl | rfl := hi
  · exact execRtxEnd_of_closed (execRtxEnd_closes h)
  · exact execRrxEnd_of_closed (execRrxEnd_closes h)
  · exact execMtxEnd_of_closed (execMtxEnd_closes h)

end Sys2Proof.Machine
end

section
/-! Sequences of commands and repeated commands (20_memory R57, R60). -/

namespace Sys2Proof.Proofs
open Sys2Proof.Machine

/-- Settles O10: by induction on the commands; one step decodes the word at the head of the port to its command, which reads the block alone. -/
theorem presentedWordsRunInOrder : Obligations.PresentedWordsRunInOrder := by
  intro l s rest
  obtain ⟨t, log, hall, hpending, hrun⟩ := execAll_presented l { s with pending := rest }
  have hpending : t.pending = rest := hpending
  refine ⟨t, log, hall, hpending, (hrun rest).trans ?_⟩
  rw [← hpending]

/-- Settles O15: reads and NOP leave the block as it was, a BEGIN or CRC_INIT writes the same values in any state, and an END leaves its unit closed. -/
theorem repeatingACommand : Obligations.RepeatingACommand :=
  fun _ _ _ h => ⟨exec_twice_of_no_unit h, exec_twice_of_begin h, exec_twice_of_end h⟩

end Sys2Proof.Proofs
end

section
/-! SUPPORT. A command as its mnemonic and the two operand fields `U` and `D` (30_encoding R71, R72): a format's operands, as numbers, determine the fields, so a word that decodes is its command's word (R73, R76). -/

namespace Sys2Proof
open Laws Machine

/-- The operands a format takes from the fields `U` and `D`, as numbers in the order they are written (R72, R78). -/
def Format.values (u : Byte) (d : Half) : Format → List Nat
  | .n => []
  | .b | .s => [(d.extractLsb' 0 8).toNat]
  | .u => [u.toNat]
  | .uh => [u.toNat, d.toNat]
  | .i => [d.toNat]

/-- Where the must-be-zero bits are zero, the operands leave no bit of `U` and `D` open. -/
theorem Format.values_injective {f : Format} {u u' : Byte} {d d' : Half} (h : f.fits u d)
    (h' : f.fits u' d') (hv : f.values u d = f.values u' d') : u = u' ∧ d = d' := by
  cases f with
  | n => exact ⟨h.1.trans h'.1.symm, h.2.trans h'.2.symm⟩
  | b | s =>
    have hlow : d.extractLsb' 0 8 = d'.extractLsb' 0 8 := BitVec.eq_of_toNat_eq (List.head_eq_of_cons_eq hv)
    exact ⟨h.1.trans h'.1.symm, half_ext (h.2.trans h'.2.symm) hlow⟩
  | u => exact ⟨BitVec.eq_of_toNat_eq (List.head_eq_of_cons_eq hv), Eq.trans h (Eq.symm h')⟩
  | uh =>
    obtain ⟨hu, hd⟩ := List.cons.inj hv
    exact ⟨BitVec.eq_of_toNat_eq hu, BitVec.eq_of_toNat_eq (List.head_eq_of_cons_eq hd)⟩
  | i => exact ⟨Eq.trans h (Eq.symm h'), BitVec.eq_of_toNat_eq (List.head_eq_of_cons_eq hv)⟩

@[simp] theorem mnemonic_build (m : Mnemonic) (u : Byte) (d : Half) : (m.build u d).mnemonic = m := by
  cases m <;> rfl

/-- The numbers a command's own line writes (R78). -/
def Instr.values (i : Instr) : List Nat := i.toAsm.operands.map operandValue

@[simp] theorem values_build (m : Mnemonic) (u : Byte) (d : Half) :
    (m.build u d).values = m.format.values u d := by
  cases m <;> rfl

/-- The fields of a command's word build the command, with its own mnemonic. -/
theorem build_encode (i : Instr) : i.mnemonic.build (uField (encode i)) (dField (encode i)) = i := by
  obtain ⟨row, -, hm, hbuild⟩ := encodesInItsRow i
  rwa [hm] at hbuild

/-- Fields with the must-be-zero bits zero build one command only if they are the same fields. -/
theorem build_injective {m : Mnemonic} {u u' : Byte} {d d' : Half} (h : m.format.fits u d)
    (h' : m.format.fits u' d') (hb : m.build u d = m.build u' d') : u = u' ∧ d = d' :=
  Format.values_injective h h' (by rw [← values_build, hb, values_build])

/-- A command is its mnemonic and the numbers its line writes. -/
theorem instr_ext_values {i j : Instr} (hm : i.mnemonic = j.mnemonic) (hv : i.values = j.values) : i = j := by
  rw [← build_encode i, ← build_encode j, values_build, values_build, hm] at hv
  obtain ⟨hu, hd⟩ := Format.values_injective (hm ▸ encode_fits i) (encode_fits j) hv
  rw [← build_encode i, ← build_encode j, hm, hu, hd]

/-- A word that decodes has a row's OP and its must-be-zero bits zero, and its fields build the command (R73). -/
theorem decode_some {w : Word} {i : Instr} (h : decode w = some i) :
    ∃ row ∈ opcodeTable, row.op = opField w ∧ row.mnemonic.format.fits (uField w) (dField w) ∧
      row.mnemonic.build (uField w) (dField w) = i := by
  by_cases hrow : ∃ row ∈ opcodeTable, row.op = opField w
  · obtain ⟨row, hmem, hop⟩ := hrow
    rw [← commandWord_fields w, ← hop] at h
    by_cases hf : row.mnemonic.format.fits (uField w) (dField w)
    · rw [decode_fits hmem hf] at h
      exact ⟨row, hmem, hop, hf, Option.some.inj h⟩
    · rw [decode_misfits hmem hf] at h
      cases h
  · rw [decode_unlisted (by simpa using hrow)] at h
    cases h

/-- Each mnemonic has one row. -/
theorem opcodeTable_mnemonics_distinct :
    ∀ a ∈ opcodeTable, ∀ b ∈ opcodeTable, a.mnemonic = b.mnemonic → a = b := by decide

/-- A word that decodes is the word of its command: both have the row of the command's mnemonic, and both words' fields build the command (R73, R76). -/
theorem encode_of_decode {w : Word} {i : Instr} (h : decode w = some i) : encode i = w := by
  obtain ⟨row, hmem, hop, hfits, hbuild⟩ := decode_some h
  obtain ⟨row', hmem', hop', hfits', hbuild'⟩ := decode_some (decode_encode i)
  obtain rfl : row = row' := opcodeTable_mnemonics_distinct row hmem row' hmem'
    (by rw [← mnemonic_build row.mnemonic, hbuild, ← hbuild', mnemonic_build])
  obtain ⟨hu, hd⟩ := build_injective hfits' hfits (hbuild'.trans hbuild.symm)
  calc encode i = commandWord (opField (encode i)) (uField (encode i)) (dField (encode i)) :=
        (commandWord_fields _).symm
    _ = commandWord (opField w) (uField w) (dField w) := by rw [← hop', hop, hu, hd]
    _ = w := commandWord_fields w

end Sys2Proof
end

section
/-! The encoding statements: decoder, encoder and opcode map agree (30_encoding R70 to R76). -/

namespace Sys2Proof.Proofs
open Sys2Proof.Machine

/-- Settles O2: a command's word lies in the row of its mnemonic and sets no must-be-zero bit, so its fields build the command again. -/
theorem decodeInvertsEncode : Obligations.DecodeInvertsEncode :=
  fun i _ => decode_encode i

/-- Settles O3: mnemonic and operands leave no bit of a word that decodes open. -/
theorem onlyTheEncodingDecodes : Obligations.OnlyTheEncodingDecodes :=
  fun _ _ => encode_of_decode

/-- Settles O1: each word's OP finds its row, and its masked comparison decides. -/
theorem exampleWordsDecode : Obligations.ExampleWordsDecode := by
  unfold Obligations.ExampleWordsDecode
  decide

/-- Settles O4: the row with the word's OP decides by its mask, and an illegal word at the head of the port is answered ILLEGAL. -/
theorem decodingIsTotal : Obligations.DecodingIsTotal := by
  refine ⟨fun w => decode_unlisted, fun w row hrow hop => ?_, fun s w rest hpending hdecode => ?_⟩
  · have hd := decode_row hrow hop.symm
    exact ⟨opcodeTable_pattern row hrow, fun hne => hd.trans (if_neg hne), fun heq => hd.trans (if_pos heq)⟩
  · calc step s = serveWord w { s with pending := rest } := step_of_pending_cons hpending
      _ = illegalWord { s with pending := rest } := serveWord_of_decode_none hdecode _
      _ = .next { s with pending := rest, resp := some 0x01000000#32 } := rfl

end Sys2Proof.Proofs
end

section
/-! SUPPORT. The result codes a command answers with (30_encoding R74, 60_exceptions R300). -/

namespace Sys2Proof.Machine

/-- The state's response word has one of the listed results. -/
def AnsweredBy (t : State) (rs : List ResultCode) : Prop :=
  ∃ r ∈ rs, ∃ v, t.resp = some (responseWord r v)

theorem AnsweredBy.intro {t w : State} {r : ResultCode} {v : Half} {rs : List ResultCode}
    (ht : t = answered w r v) (hr : r ∈ rs) : AnsweredBy t rs :=
  ⟨r, hr, v, ht ▸ rfl⟩

/-- A read answers OK or RANGE (R200). -/
theorem respondRead_answeredBy {s t : State} {o : Option Half} (h : respondRead s o = .next t) :
    AnsweredBy t [.ok, .range] := by
  obtain ⟨v, -, ht⟩ | ⟨-, ht⟩ := respondRead_next h
  · exact .intro ht (by decide)
  · exact .intro ht (by decide)

/-- RRX_END's results (R146). -/
theorem execRrxEnd_answeredBy {s t : State} (h : execRrxEnd s = .next t) :
    AnsweredBy t (resultsOf .rrxEnd) := by
  obtain ⟨-, ht⟩ | ⟨-, ⟨-, ht⟩ | ⟨-, -, ht⟩ | ⟨-, -, -, ht⟩ | ⟨-, -, hc⟩⟩ := execRrxEnd_cases h
  · exact .intro ht (by decide)
  · exact .intro ht (by decide)
  · exact .intro ht (by decide)
  · exact .intro ht (by decide)
  · obtain ⟨-, ht⟩ | ⟨-, -, ht⟩ | ⟨-, -, ht⟩ := checkFrame_cases hc <;> exact .intro ht (by decide)

/-- MRX_BYTE's results (R181). -/
theorem execMrxByte_answeredBy {s t : State} {b : Byte} (h : execMrxByte b s = .next t) :
    AnsweredBy t [.ok, .badState, .mbapBadProtocol, .mbapBadLength] := by
  obtain ⟨-, -, ht⟩ | ⟨-, -, ht⟩ | ⟨-, -, hc⟩ | ⟨-, -, ht⟩ | ⟨-, -, ht⟩ := execMrxByte_cases h
  · exact .intro ht (by decide)
  · exact .intro ht (by decide)
  · obtain ⟨-, ht⟩ | ⟨-, -, ht⟩ | ⟨-, -, -, ht⟩ := checkHeader_cases hc <;> exact .intro ht (by decide)
  · exact .intro ht (by decide)
  · exact .intro ht (by decide)

/-- A command is answered with a result its rule lists (R300). -/
theorem exec_answeredBy {s t : State} {i : Instr} (h : exec i s = .next t) : AnsweredBy t (resultsOf i) := by
  cases i with
  | nop | crcInit | crcByte | rtxBegin | rrxBegin | mtxBegin | mrxBegin =>
    exact .intro (respond_next h) (List.mem_singleton_self _)
  | rtxByte =>
    obtain ⟨-, ht⟩ | ⟨-, -, ht⟩ | ⟨-, -, ht⟩ := execRtxByte_cases h <;> exact .intro ht (by simp [resultsOf])
  | rtxEnd =>
    obtain ⟨-, ht⟩ | ⟨-, -, ht⟩ | ⟨-, -, ht⟩ := execRtxEnd_cases h <;> exact .intro ht (by simp [resultsOf])
  | rrxByte =>
    obtain ⟨-, ht⟩ | ⟨-, -, ht⟩ | ⟨-, -, ht⟩ := execRrxByte_cases h <;> exact .intro ht (by simp [resultsOf])
  | rrxEnd => exact execRrxEnd_answeredBy h
  | mtxByte =>
    obtain ⟨-, ht⟩ | ⟨-, -, ht⟩ | ⟨-, -, ht⟩ := execMtxByte_cases h <;> exact .intro ht (by simp [resultsOf])
  | mtxEnd =>
    obtain ⟨-, ht⟩ | ⟨-, -, ht⟩ | ⟨-, -, ht⟩ := execMtxEnd_cases h <;> exact .intro ht (by simp [resultsOf])
  | mrxByte => exact execMrxByte_answeredBy h
  | rdReg | rdRtxb | rdRrxb | rdMtxb | rdMrxb => exact respondRead_answeredBy h

/-- No command's rule lists NONE or ILLEGAL (R300). -/
theorem resultsOf_legal (i : Instr) : ∀ r ∈ resultsOf i, r ≠ .none ∧ r ≠ .illegal := by
  cases i <;> simp [resultsOf]

end Sys2Proof.Machine
end

section
/-! SUPPORT. What a line assembles to (30_encoding R78). -/

namespace Sys2Proof.Machine

/-- A register name is a selector within a byte (R28). -/
theorem registerSelector_lt (r : RegName) : registerSelector r < 256 := by cases r <;> decide

theorem operandValue_of_isByte {x : AsmOperand} (h : x.isByte = true) : operandValue x < 256 := by
  cases x with
  | num n => exact of_decide_eq_true h
  | reg r => cases h

theorem operandValue_of_isUnit {x : AsmOperand} (h : x.isUnit = true) : operandValue x < 256 :=
  operandValue_of_isByte h

theorem operandValue_of_isHalf {x : AsmOperand} (h : x.isHalf = true) : operandValue x < 65536 := by
  cases x with
  | num n => exact of_decide_eq_true h
  | reg r => cases h

theorem operandValue_of_isSelector {x : AsmOperand} (h : x.isSelector = true) : operandValue x < 256 := by
  cases x with
  | num n => exact of_decide_eq_true h
  | reg r => exact registerSelector_lt r

/-- The operands a format accepts, each with the range of its number (R72, R78). -/
theorem format_accepts_cases {f : Format} {ops : List AsmOperand} (h : f.accepts ops = true) :
    (f = .n ∧ ops = []) ∨
    (∃ x, (f = .b ∨ f = .s) ∧ ops = [x] ∧ operandValue x < 256) ∨
    (∃ x, f = .u ∧ ops = [x] ∧ operandValue x < 256) ∨
    (∃ x, f = .i ∧ ops = [x] ∧ operandValue x < 65536) ∨
    (∃ x y, f = .uh ∧ ops = [x, y] ∧ operandValue x < 256 ∧ operandValue y < 65536) := by
  unfold Format.accepts at h
  split at h
  · exact .inl ⟨rfl, rfl⟩
  · exact .inr (.inl ⟨_, .inl rfl, rfl, operandValue_of_isByte h⟩)
  · exact .inr (.inr (.inl ⟨_, rfl, rfl, operandValue_of_isUnit h⟩))
  · obtain ⟨hx, hy⟩ := Bool.and_eq_true_iff.mp h
    exact .inr (.inr (.inr (.inr ⟨_, _, rfl, rfl, operandValue_of_isUnit hx, operandValue_of_isHalf hy⟩)))
  · exact .inr (.inr (.inr (.inl ⟨_, rfl, rfl, operandValue_of_isHalf h⟩)))
  · exact .inr (.inl ⟨_, .inr rfl, rfl, operandValue_of_isSelector h⟩)
  · cases h

/-- A number of a byte's range, written into `D`, is read back from `D[7:0]` (R72). -/
theorem toNat_ofNat_low {n : Nat} (h : n < 256) : ((BitVec.ofNat 16 n).extractLsb' 0 8).toNat = n := by
  simp only [BitVec.extractLsb'_toNat, BitVec.toNat_ofNat]
  omega

/-- A well-formed line assembles to a command of its mnemonic that writes the line's numbers (R78). -/
theorem assembleLine_of_wellFormed {l : AsmLine} (h : l.wellFormed = true) :
    ∃ i, assembleLine l = some i ∧ l.mnemonic = i.mnemonic ∧ l.operands.map operandValue = i.values := by
  obtain ⟨m, ops⟩ := l
  unfold assembleLine
  rw [if_pos h]
  obtain ⟨hf, rfl⟩ | ⟨x, hf, rfl, hx⟩ | ⟨x, hf, rfl, hx⟩ | ⟨x, hf, rfl, hx⟩ | ⟨x, y, hf, rfl, hx, hy⟩ :=
    format_accepts_cases h
  · exact ⟨_, rfl, by simp, by simp [hf, Format.values]⟩
  · have hu : m.format ≠ .u := by
      obtain hf | hf := hf <;> simp [hf]
    refine ⟨_, if_neg hu, by simp, ?_⟩
    obtain hf | hf := hf <;> simp [hf, Format.values, toNat_ofNat_low hx]
  · refine ⟨_, if_pos hf, by simp, ?_⟩
    simp [hf, Format.values, Nat.mod_eq_of_lt hx]
  · refine ⟨_, if_neg (by simp [hf]), by simp, ?_⟩
    simp [hf, Format.values, Nat.mod_eq_of_lt hx]
  · refine ⟨_, rfl, by simp, ?_⟩
    simp [hf, Format.values, Nat.mod_eq_of_lt hx, Nat.mod_eq_of_lt hy]

/-- "An operand out of its range is an assembly error, not a command" (R78). -/
theorem assembleLine_of_not_wellFormed {l : AsmLine} (h : l.wellFormed = false) : assembleLine l = none :=
  if_neg (by simp [h])

theorem assembleLine_isSome (l : AsmLine) : (assembleLine l).isSome = l.wellFormed := by
  cases h : l.wellFormed with
  | false => rw [assembleLine_of_not_wellFormed h, Option.isSome_none]
  | true =>
    obtain ⟨i, hi, -⟩ := assembleLine_of_wellFormed h
    rw [hi, Option.isSome_some]

/-- A line that assembles writes its command's mnemonic and numbers (R78). -/
theorem assembleLine_some {l : AsmLine} {i : Instr} (h : assembleLine l = some i) :
    l.mnemonic = i.mnemonic ∧ l.operands.map operandValue = i.values := by
  have hw : l.wellFormed = true := by rw [← assembleLine_isSome, h, Option.isSome_some]
  obtain ⟨j, hj, hline⟩ := assembleLine_of_wellFormed hw
  obtain rfl : j = i := Option.some.inj (hj.symm.trans h)
  exact hline

/-- The line that writes a command assembles to it: mnemonic and numbers determine a command. -/
theorem assembleLine_toAsm (i : Instr) : assembleLine i.toAsm = some i := by
  obtain ⟨j, hj, hm, hv⟩ := assembleLine_of_wellFormed (Laws.instr_wellFormed i)
  rw [hj, instr_ext_values hm hv]

/-! ### Pseudo-commands (R79) -/

theorem byte_in_range (b : Byte) : decide (b.toNat < 256) = true := decide_eq_true b.isLt

theorem bytes_in_range (bs : List Byte) : (bs.map BitVec.toNat).all (· < 256) = true := by
  simpa using fun b _ => BitVec.isLt b

theorem toByte_toNat (b : Byte) : toByte b.toNat = b := by simp [toByte]

/-- Reading the numbers of a list of bytes as bytes gives one command per byte. -/
theorem map_toByte (c : Byte → Instr) (bs : List Byte) :
    (bs.map BitVec.toNat).map (fun n => c (toByte n)) = bs.map c := by
  simp [toByte_toNat]

end Sys2Proof.Machine
end

section
/-! The responses and the assembler (30_encoding R74, R78, R79). -/

namespace Sys2Proof.Proofs
open Sys2Proof.Machine

/-- Settles O11: every command completes, with a result its rule lists and the port's inputs left in place. -/
theorem everyCommandIsAnswered : Obligations.EveryCommandIsAnswered := by
  intro s i
  obtain ⟨t, ht⟩ := exec_total i s
  obtain ⟨r, hr, v, hresp⟩ := exec_answeredBy ht
  obtain ⟨hnone, hillegal⟩ := resultsOf_legal i r hr
  exact ⟨t, r, v, ht, hr, hnone, hillegal, hresp, exec_keeps_pending ht⟩

/-- Settles O52: each text, read character by character, evaluates to its word or to no statement in range. -/
theorem assemblerExamples : Obligations.AssemblerExamples := by
  unfold Obligations.AssemblerExamples
  decide

/-- Settles O53: a well-formed line's numbers are its format's operands, and mnemonic and operands determine a command. The register names are R28's table, row by row. -/
theorem assemblingALine : Obligations.AssemblingALine := by
  refine ⟨assembleLine_isSome, assembleLine_toAsm, fun _ _ => assembleLine_some, ?_⟩
  decide

/-- Settles O54: a statement that writes bytes is well formed, and each byte becomes one command. -/
theorem pseudoCommandExpansions : Obligations.PseudoCommandExpansions := by
  refine ⟨fun bs => ?_, fun u p => ?_, fun u f => ?_, fun u h p => ?_, fun f => ?_⟩
  · have hw : (AsmStmt.crcBlock (bs.map BitVec.toNat)).wellFormed = true := bytes_in_range bs
    rw [assembleStmt, if_pos hw, map_toByte]
  · have hw : (AsmStmt.rtxFrame u.toNat (p.map BitVec.toNat)).wellFormed = true :=
      Bool.and_eq_true_iff.mpr ⟨byte_in_range u, bytes_in_range p⟩
    rw [assembleStmt, if_pos hw, map_toByte, toByte_toNat]
  · have hw : (AsmStmt.rrxFrame u.toNat (f.map BitVec.toNat)).wellFormed = true :=
      Bool.and_eq_true_iff.mpr ⟨byte_in_range u, bytes_in_range f⟩
    rw [assembleStmt, if_pos hw, map_toByte, toByte_toNat]
  · have hw : (AsmStmt.mtxFrame u.toNat h.toNat (p.map BitVec.toNat)).wellFormed = true :=
      Bool.and_eq_true_iff.mpr ⟨Bool.and_eq_true_iff.mpr ⟨byte_in_range u, decide_eq_true h.isLt⟩,
        bytes_in_range p⟩
    rw [assembleStmt, if_pos hw, map_toByte, toByte_toNat, BitVec.ofNat_toNat, BitVec.setWidth_eq]
  · have hw : (AsmStmt.mrxFeed (f.map BitVec.toNat)).wellFormed = true := bytes_in_range f
    rw [assembleStmt, if_pos hw, map_toByte]

end Sys2Proof.Proofs
end

section
/-! SUPPORT. The codec's bit fields and PDU lengths (30_encoding R86, R87). -/

namespace Sys2Proof.Machine

/-- The bits of the number a run of bits writes are the run's, and then zeros. -/
theorem bitsValue_testBit (bits : List Bool) (k : Nat) : (bitsValue bits).testBit k = bits.getD k false := by
  induction bits generalizing k with
  | nil => simp [bitsValue]
  | cons b bs ih =>
    cases k with
    | zero => cases b <;> simp [bitsValue, Nat.testBit_zero]
    | succ k =>
      have hhalf : (b.toNat + 2 * bitsValue bs) / 2 = bitsValue bs := by have := b.toNat_lt; omega
      simp only [bitsValue, Nat.testBit_succ, hhalf, ih, List.getD_cons_succ]

/-- The byte of at most eight bits holds the bits and then zeros. -/
theorem byteBits_bitsValue {bits : List Bool} (h : bits.length ≤ 8) :
    byteBits (BitVec.ofNat 8 (bitsValue bits)) = bits ++ List.replicate (8 - bits.length) false := by
  apply List.ext_getElem
  · simp only [byteBits, List.length_map, List.length_range, List.length_append, List.length_replicate]
    omega
  · intro k hk _
    have hk : k < 8 := by simpa [byteBits] using hk
    have hbit : (byteBits (BitVec.ofNat 8 (bitsValue bits)))[k]'(by simpa [byteBits]) = bits.getD k false := by
      simp [byteBits, BitVec.getLsbD_ofNat, bitsValue_testBit, hk]
    rw [hbit, List.getElem_append, List.getD_eq_getElem?_getD]
    split <;> simp [*]

theorem unpackBits_cons (b : Byte) (bs : List Byte) : unpackBits (b :: bs) = byteBits b ++ unpackBits bs := rfl

/-- In the last case of `packBits` fewer than seven bits follow the first, so its byte is not full. -/
theorem length_lt_seven : ∀ bits : List Bool,
    (∀ b1 b2 b3 b4 b5 b6 b7 rest, bits = b1 :: b2 :: b3 :: b4 :: b5 :: b6 :: b7 :: rest → False) →
    bits.length < 7
  | [], _ | [_], _ | [_, _], _ | [_, _, _], _ | [_, _, _, _], _ | [_, _, _, _, _], _ | [_, _, _, _, _, _], _ => by
    simp
  | _ :: _ :: _ :: _ :: _ :: _ :: _ :: _, h => (h _ _ _ _ _ _ _ _ rfl).elim

/-- A packed field has the ceiling of an eighth of the bits as its length. -/
theorem packBits_length (bits : List Bool) : (packBits bits).length = (bits.length + 7) / 8 := by
  fun_induction packBits bits with
  | case1 => rfl
  | case2 b0 b1 b2 b3 b4 b5 b6 b7 rest ih =>
    simp only [List.length_cons, ih]
    omega
  | case3 b bs hshort =>
    have := length_lt_seven bs hshort
    simp only [List.length_cons, List.length_nil]
    omega

/-- Unpacking a packed field gives its bits and then the padding of its final byte. -/
theorem unpackBits_packBits (bits : List Bool) :
    unpackBits (packBits bits) = bits ++ List.replicate (8 * ((bits.length + 7) / 8) - bits.length) false := by
  fun_induction packBits bits with
  | case1 => rfl
  | case2 b0 b1 b2 b3 b4 b5 b6 b7 rest ih =>
    have hpad : 8 * ((rest.length + 8 + 7) / 8) - (rest.length + 8) =
        8 * ((rest.length + 7) / 8) - rest.length := by omega
    rw [unpackBits_cons, byteBits_bitsValue (by simp), ih, ← hpad]
    rfl
  | case3 b bs hshort =>
    have hlen : (b :: bs).length ≤ 8 := Nat.le_of_lt (Nat.succ_lt_succ (length_lt_seven bs hshort))
    have hone : ((b :: bs).length + 7) / 8 = 1 := by
      rw [List.length_cons] at hlen ⊢
      omega
    rw [unpackBits_cons, byteBits_bitsValue hlen, hone]
    exact List.append_nil _

/-! ### PDU lengths -/

@[simp] theorem pduHalf_length (h : Half) : (pduHalf h).length = 2 := rfl

@[simp] theorem counted_length (bs : List Byte) : (counted bs).length = bs.length + 1 := rfl

@[simp] theorem flatMap_pduHalf_length (values : List Half) : (values.flatMap pduHalf).length = 2 * values.length := by
  simp [List.length_flatMap, Nat.mul_comm]

theorem inRange_iff {n bound : Nat} : inRange n bound = true ↔ 1 ≤ n ∧ n ≤ bound := by
  simp [inRange]

theorem requestPdu_writeMultipleCoils_length (start : Half) (bits : List Bool) :
    (requestPdu (.writeMultipleCoils start bits)).length = 6 + (bits.length + 7) / 8 := by
  simp only [requestPdu, List.cons_append, List.length_cons, List.length_append, pduHalf_length, counted_length,
    packBits_length]
  omega

theorem requestPdu_writeMultipleRegisters_length (start : Half) (values : List Half) :
    (requestPdu (.writeMultipleRegisters start values)).length = 6 + 2 * values.length := by
  simp only [requestPdu, List.cons_append, List.length_cons, List.length_append, pduHalf_length, counted_length,
    flatMap_pduHalf_length]
  omega

/-- A request within its bounds fits (R87). -/
theorem requestPdu_fits {r : CodecRequest} (h : r.inBounds = true) :
    1 ≤ (requestPdu r).length ∧ (requestPdu r).length ≤ 252 := by
  cases r with
  | readCoils | readDiscreteInputs | readHoldingRegisters | readInputRegisters
  | writeSingleCoil | writeSingleRegister => simp [requestPdu]
  | writeMultipleCoils start bits =>
    have hb : 1 ≤ bits.length ∧ bits.length ≤ 1968 := inRange_iff.mp h
    rw [requestPdu_writeMultipleCoils_length]
    omega
  | writeMultipleRegisters start values =>
    have hb : 1 ≤ values.length ∧ values.length ≤ 123 := inRange_iff.mp h
    rw [requestPdu_writeMultipleRegisters_length]
    omega

/-- A response within the bounds of its request fits (R87, log entry 17). -/
theorem responsePdu_fits {r : CodecResponse} (h : r.inBounds = true) :
    1 ≤ (responsePdu r).length ∧ (responsePdu r).length ≤ 252 := by
  cases r with
  | readCoils bits | readDiscreteInputs bits =>
    have hb : 1 ≤ bits.length ∧ bits.length ≤ 2000 := inRange_iff.mp h
    simp only [responsePdu, List.length_cons, counted_length, packBits_length]
    omega
  | readHoldingRegisters values | readInputRegisters values =>
    have hb : 1 ≤ values.length ∧ values.length ≤ 125 := inRange_iff.mp h
    simp only [responsePdu, List.length_cons, counted_length, flatMap_pduHalf_length]
    omega
  | writeSingleCoil | writeSingleRegister | writeMultipleCoils | writeMultipleRegisters => simp [responsePdu]

end Sys2Proof.Machine
end

section
/-! The codec statements (30_encoding R86, R87). -/

namespace Sys2Proof.Proofs
open Sys2Proof.Machine

/-- Settles O56: by induction over the full bytes of a field, its last byte holding the bits left and zeros. -/
theorem packedBitsUnpack : Obligations.PackedBitsUnpack :=
  fun bits => ⟨packBits_length bits, unpackBits_packBits bits⟩

/-- Settles O57: the lengths of the layouts at the bounds; a write of 1968 coils and a reply of 125 registers have 252 bytes. -/
theorem codecPdusFit : Obligations.CodecPdusFit := by
  refine ⟨fun _ => requestPdu_fits, fun _ => responsePdu_fits,
    ⟨.writeMultipleCoils 0#16 (List.replicate 1968 true), ?_, ?_⟩,
    ⟨.readHoldingRegisters (List.replicate 125 0#16), ?_, ?_⟩, by decide⟩
  · exact inRange_iff.mpr (by rw [List.length_replicate]; omega)
  · rw [requestPdu_writeMultipleCoils_length, List.length_replicate]
  · exact inRange_iff.mpr (by rw [List.length_replicate]; omega)
  · simp [responsePdu]

end Sys2Proof.Proofs
end

section
/-! SUPPORT. Decoding all words of one OP at once (30_encoding R71, R73). -/

namespace Sys2Proof

/-- A word with a row's OP decodes to the command its fields build exactly if the format's must-be-zero bits are zero, in whatever form `P` that is said (R73). -/
theorem decode_of_op {w : Word} {op : Byte} {m : Mnemonic} {P : Prop} [Decidable P]
    (hrow : ∃ row ∈ opcodeTable, row.op = op ∧ row.mnemonic = m) (hop : opField w = op)
    (hP : P ↔ m.format.fits (uField w) (dField w)) :
    decode w = if P then some (m.build (uField w) (dField w)) else none := by
  obtain ⟨row, hmem, hrop, rfl⟩ := hrow
  have hw : decode w = decode (commandWord row.op (uField w) (dField w)) := by
    rw [hrop, ← hop, commandWord_fields]
  split_ifs with hp
  · exact hw.trans (decode_fits hmem (hP.mp hp))
  · exact hw.trans (decode_misfits hmem (mt hP.mpr hp))

end Sys2Proof
end

section
/-! SUPPORT. The step of R100 as an iterated shift, and the CRC register over a run that only CRC_BYTE drives it in (40_crc R100, R104). -/

namespace Sys2Proof.Machine

theorem crcShifts_eq_iterate (n : Nat) : crcShifts n = crcShift^[n] := by
  induction n with
  | zero => rfl
  | succ n ih =>
    funext c
    rw [crcShifts, ih, Function.iterate_succ_apply]

/-- R100's step on the byte written as a half-word. -/
theorem crcStep_eq_iterate (c : Half) (b : Byte) : crcStep c b = crcShift^[8] (c ^^^ (0x00#8 ++ b : Half)) := by
  have hb : b.setWidth 16 = (0x00#8 ++ b : Half) := BitVec.setWidth_eq_append (by decide)
  rw [crcStep, crcShifts_eq_iterate, hb]

theorem crcBytes_cons (i : Instr) (l : List Instr) : crcBytes (i :: l) = crcBytes [i] ++ crcBytes l := by
  cases i <;> rfl

/-- A command other than CRC_INIT, RTX_END and RRX_END steps the CRC register by the byte it feeds to the CRC unit, if it feeds one (R22, R104). -/
theorem exec_crc_of_keepsCrc {s t : State} {i : Instr} (hi : keepsCrc i = true) (h : exec i s = .next t) :
    t.blk.crc = (crcBytes [i]).foldl crcStep s.blk.crc := by
  cases i with
  | crcInit | rtxEnd | rrxEnd => cases hi
  | crcByte => rw [respond_next h]; rfl
  | rtxBegin => rw [execRtxBegin_next h]; rfl
  | rtxByte => exact execRtxByte_keeps_crc h
  | rrxBegin => rw [execRrxBegin_next h]; rfl
  | rrxByte => exact execRrxByte_keeps_crc h
  | nop | rdReg | rdRtxb | rdRrxb | rdMtxb | rdMrxb => exact exec_keeps_crc h (.inl rfl)
  | mtxBegin | mtxByte | mtxEnd => exact exec_keeps_crc h (.inr (.inl rfl))
  | mrxBegin | mrxByte => exact exec_keeps_crc h (.inr (.inr rfl))

/-- A run of such commands steps the CRC register by the bytes fed to the CRC unit, in order (R104). -/
theorem execAll_crc_of_keepsCrc {l : List Instr} (hl : l.all keepsCrc = true) (s : State) :
    ∃ t log, execAll l s = .next (t, log) ∧ t.blk.crc = (crcBytes l).foldl crcStep s.blk.crc := by
  induction l generalizing s with
  | nil => exact ⟨s, [], rfl, rfl⟩
  | cons i l ih =>
    obtain ⟨hi, hl⟩ : keepsCrc i = true ∧ l.all keepsCrc = true := by simpa using hl
    obtain ⟨s', hs'⟩ := exec_total i s
    obtain ⟨t, log, hrun, hcrc⟩ := ih hl s'
    refine ⟨t, _, execAll_cons hs' hrun, ?_⟩
    rw [hcrc, exec_crc_of_keepsCrc hi hs', crcBytes_cons i l, List.foldl_append]

end Sys2Proof.Machine
end

section
/-! The CRC unit's statements (40_crc R100 to R105). -/

namespace Sys2Proof.Proofs
open Sys2Proof.Machine

/-- Settles O19: CRC_INIT leaves the initial value, and each command of the run folds in the byte it feeds. -/
theorem streamedCrcIsCrc16 : Obligations.StreamedCrcIsCrc16 := by
  intro s l hl
  obtain ⟨t, log, hrun, hcrc⟩ := execAll_crc_of_keepsCrc hl (answered (s.withCrc Config.crcInit) .ok Config.crcInit)
  exact ⟨t, _, execAll_cons (respond_answered _ _ _) hrun, hcrc⟩

/-- Settles O20: the low byte moves the CRC's high byte down, which the high byte then cancels. -/
theorem crcResidueIsZero : Obligations.CrcResidueIsZero :=
  crc16_append_crcTrailer

/-- Settles O16: the word's bits [23:0] are all must-be-zero, and the execution is `respond` of the reset register. -/
theorem crcInitResult : Obligations.CrcInitResult :=
  ⟨fun w hop => decode_of_op (m := .crcInit) (by decide) hop (low24_zero w),
    fun s => respond_eq (s.withCrc Config.crcInit) .ok Config.crcInit⟩

/-- Settles O17: the must-be-zero bits are [23:8], and `crcStep` is the eight shifts R100 writes out. -/
theorem crcByteResult : Obligations.CrcByteResult := by
  refine ⟨fun w hop => ?_, fun s b => ?_⟩
  · rw [← dField_byte w 0 (by decide)]
    exact decode_of_op (m := .crcByte) (by decide) hop (mid16_zero w)
  · intro c
    have hc : crcStep s.blk.crc b = c := crcStep_eq_iterate s.blk.crc b
    rw [← hc, ← responseWord_ok]
    exact respond_eq (s.withCrc (crcStep s.blk.crc b)) .ok (crcStep s.blk.crc b)

end Sys2Proof.Proofs
end

section
/-! SUPPORT. The RTX unit's commands case by case, and the run that builds a frame (41_rtu_framer R120 to R123). -/

namespace Sys2Proof.Machine

/-- RTX_BYTE with room for the byte: it is appended (R121). -/
theorem execRtxByte_of_room {s : State} (b : Byte) (ho : s.blk.rtx.st = .opened)
    (hl : s.blk.rtx.buf.length ≠ 254) :
    execRtxByte b s = .next (answered (s.withRtx ⟨.opened, s.blk.rtx.buf ++ [b]⟩) .ok 0#16) := by
  have hroom : s.blk.rtx.buf.length ≠ 1 + Config.pduMax := hl
  rw [execRtxByte, if_neg (not_not.mpr ho), if_neg hroom, ← ho]
  rfl

/-- RTX_BYTE after 253 PDU bytes: the frame is given up (R121). -/
theorem execRtxByte_of_full {s : State} (b : Byte) (ho : s.blk.rtx.st = .opened)
    (hl : s.blk.rtx.buf.length = 254) :
    execRtxByte b s = .next (answered (s.withRtx ⟨.idle, []⟩) .overflow 0#16) := by
  have hfull : s.blk.rtx.buf.length = 1 + Config.pduMax := hl
  rw [execRtxByte, if_neg (not_not.mpr ho), if_pos hfull, abortRtx, respond_answered]

theorem execRtxByte_of_closed {s : State} (b : Byte) (h : s.blk.rtx.st ≠ .opened) :
    execRtxByte b s = .next { s with resp := some 0x02000000#32 } := if_pos h

/-- RTX_END on a PDU of at least one byte: the buffer is closed with its CRC (R122). -/
theorem execRtxEnd_of_pdu {s : State} (ho : s.blk.rtx.st = .opened) (hl : 2 ≤ s.blk.rtx.buf.length) :
    execRtxEnd s =
      .next (answered ((s.withCrc (crc16 s.blk.rtx.buf)).withRtx
        ⟨.done, s.blk.rtx.buf ++ crcTrailer (crc16 s.blk.rtx.buf)⟩) .ok (crc16 s.blk.rtx.buf)) := by
  rw [execRtxEnd, if_neg (not_not.mpr ho), if_neg (Nat.not_lt.mpr hl), respond_answered]

/-- RTX_END on an empty PDU: the frame is given up (R122). -/
theorem execRtxEnd_of_empty {s : State} (ho : s.blk.rtx.st = .opened) (hl : s.blk.rtx.buf.length < 2) :
    execRtxEnd s = .next (answered (s.withRtx ⟨.idle, []⟩) .empty 0#16) := by
  rw [execRtxEnd, if_neg (not_not.mpr ho), if_pos hl, abortRtx, respond_answered]

/-! ### The run that builds a frame: the buffer of a unit in OPEN, before and after each command -/

theorem execRtxBegin_opens {s t : State} {u : Byte} (h : execRtxBegin u s = .next t) :
    t.blk.rtx = ⟨.opened, [u]⟩ ∧ t.resp = some 0x00000000#32 := by
  rw [execRtxBegin_next h]
  exact ⟨rfl, rfl⟩

theorem execRtxByte_extends {s t : State} {a : List Byte} {b : Byte} (hs : s.blk.rtx = ⟨.opened, a⟩)
    (hl : a.length ≠ 254) (h : execRtxByte b s = .next t) :
    t.blk.rtx = ⟨.opened, a ++ [b]⟩ ∧ t.resp = some 0x00000000#32 := by
  rw [execRtxByte_of_room b (by rw [hs]) (by rwa [hs])] at h
  obtain rfl := Host.Outcome.next.inj h
  exact ⟨by simp [hs], rfl⟩

theorem execRtxEnd_finishes {s t : State} {a : List Byte} (hs : s.blk.rtx = ⟨.opened, a⟩)
    (hl : 2 ≤ a.length) (h : execRtxEnd s = .next t) :
    t.blk.rtx = ⟨.done, a ++ crcTrailer (crc16 a)⟩ ∧ t.resp = some (0x0000#16 ++ crc16 a) := by
  rw [execRtxEnd_of_pdu (by rw [hs]) (by rwa [hs])] at h
  obtain rfl := Host.Outcome.next.inj h
  exact ⟨by simp [hs], by simp [hs, responseWord_ok]⟩

/-- RTX_END with other units' commands before and after it. -/
theorem execAll_rtxEnd {s : State} {a : List Byte} {l : List Instr} (hs : s.blk.rtx = ⟨.opened, a⟩)
    (hl : 2 ≤ a.length) (h : onlyUnit .rtx l = [.rtxEnd]) :
    ∃ t log, execAll l s = .next (t, log) ∧ t.blk.rtx = ⟨.done, a ++ crcTrailer (crc16 a)⟩ ∧
      responsesOf .rtx log = [some (0x0000#16 ++ crc16 a)] := by
  obtain ⟨s', t, post, hk, ht, hpost, hrun⟩ := execAll_of_onlyUnit_cons h s
  obtain ⟨hdone, hresp⟩ := execRtxEnd_finishes (Eq.trans hk hs) hl ht
  obtain ⟨r, log, hr, hkept, hlog⟩ := execAll_of_onlyUnit_nil hpost t
  obtain ⟨log', hall, hlog'⟩ := hrun r log hr
  exact ⟨r, log', hall, Eq.trans hkept hdone, by rw [hlog', hresp, hlog]⟩

/-- The bytes `p` and then RTX_END, with other units' commands between them, close the buffer `a ++ p`. -/
theorem execAll_rtxBytes_rtxEnd {s : State} {a p : List Byte} {l : List Instr}
    (hs : s.blk.rtx = ⟨.opened, a⟩) (hmin : 2 ≤ a.length + p.length) (hmax : a.length + p.length ≤ 254)
    (h : onlyUnit .rtx l = p.map Instr.rtxByte ++ [.rtxEnd]) :
    ∃ t log, execAll l s = .next (t, log) ∧ t.blk.rtx = ⟨.done, a ++ p ++ crcTrailer (crc16 (a ++ p))⟩ ∧
      responsesOf .rtx log =
        List.replicate p.length (some 0x00000000#32) ++ [some (0x0000#16 ++ crc16 (a ++ p))] := by
  induction p generalizing s a l with
  | nil => simpa using execAll_rtxEnd hs hmin h
  | cons b p ih =>
    rw [List.length_cons] at hmin hmax
    obtain ⟨s', t, post, hk, ht, hpost, hrun⟩ := execAll_of_onlyUnit_cons h s
    obtain ⟨hopen, hresp⟩ := execRtxByte_extends (Eq.trans hk hs) (by omega) ht
    obtain ⟨r, log, hr, hdone, hlog⟩ := ih hopen (by simp; omega) (by simp; omega) hpost
    obtain ⟨log', hall, hlog'⟩ := hrun r log hr
    rw [List.append_cons]
    exact ⟨r, log', hall, hdone, by rw [hlog', hresp, hlog]; rfl⟩

end Sys2Proof.Machine
end

section
/-! The RTU framer's statements (41_rtu_framer R120 to R123). -/

namespace Sys2Proof.Proofs
open Sys2Proof.Machine

/-- Settles O25: RTX_BEGIN opens the buffer with the unit id, and by induction on the PDU the bytes and RTX_END close it; other units' commands leave the buffer as it was. -/
theorem rtuFrameIsBuilt : Obligations.RtuFrameIsBuilt := by
  intro s u p l hmin hmax hl
  obtain ⟨s', t, post, -, ht, hpost, hrun⟩ := execAll_of_onlyUnit_cons hl s
  obtain ⟨hopen, hresp⟩ := execRtxBegin_opens ht
  obtain ⟨r, log, hr, hdone, hlog⟩ :=
    execAll_rtxBytes_rtxEnd hopen (by simp; omega) (by simp; omega) hpost
  obtain ⟨log', hall, hlog'⟩ := hrun r log hr
  refine ⟨r, log', hall, ?_, congrArg Rtx.st hdone, congrArg Rtx.buf hdone⟩
  rw [hlog', hresp, hlog]
  rfl

/-- Settles O22: the must-be-zero bits are `D`, and the execution overwrites the unit whatever it held. -/
theorem rtxBeginResult : Obligations.RtxBeginResult :=
  ⟨fun _ hop => decode_of_op (m := .rtxBegin) (by decide) hop Iff.rfl, fun _ _ => rfl⟩

/-- Settles O23: the must-be-zero bits are [23:8], and each case of the execution is its own lemma. -/
theorem rtxByteResult : Obligations.RtxByteResult := by
  refine ⟨fun w hop => ?_, fun _ b => execRtxByte_of_room b, fun _ b => execRtxByte_of_full b,
    fun _ b => execRtxByte_of_closed b⟩
  rw [← dField_byte w 0 (by decide)]
  exact decode_of_op (m := .rtxByte) (by decide) hop (mid16_zero w)

/-- Settles O24: the word's bits [23:0] are all must-be-zero, and each case of the execution is its own lemma. -/
theorem rtxEndResult : Obligations.RtxEndResult := by
  refine ⟨fun w hop => decode_of_op (m := .rtxEnd) (by decide) hop (low24_zero w), fun s ho hl => ?_,
    fun _ => execRtxEnd_of_empty, fun _ => execRtxEnd_of_closed⟩
  intro c
  rw [← responseWord_ok]
  exact execRtxEnd_of_pdu ho hl

end Sys2Proof.Proofs
end

section
/-! SUPPORT. The CRC residue as a test: the bytes of a frame have CRC 0 exactly when the frame carries its own CRC (40_crc R101, R105). -/

namespace Sys2Proof.Machine

/-- A byte fed to the CRC register loses nothing of it. -/
theorem crcStep_injective {c d : Half} {b : Byte} (h : crcStep c b = crcStep d b) : c = d :=
  (BitVec.xor_left_inj _).mp (crcShifts_injective 8 h)

/-- The two CRC bytes of `d` clear the register exactly if it holds `d`. -/
theorem foldl_crcTrailer_eq_zero_iff {c d : Half} : (crcTrailer d).foldl crcStep c = 0#16 ↔ c = d := by
  have hself : (crcTrailer d).foldl crcStep d = 0#16 := by
    rw [crcTrailer, List.foldl_cons, crcStep_lo8, List.foldl_cons, List.foldl_nil, crcStep, BitVec.xor_self,
      crcShifts_zero]
  constructor
  · intro h
    exact crcStep_injective (crcStep_injective (h.trans hself.symm))
  · rintro rfl
    exact hself

/-- The CRC bytes of a little-endian pair are the pair (R11, R80). -/
theorem crcTrailer_le16 (a b : Byte) : crcTrailer (le16 a b) = [a, b] := by
  have hlo : lo8 (le16 a b) = a := BitVec.extractLsb'_append_eq_right
  have hhi : hi8 (le16 a b) = b := BitVec.extractLsb'_append_eq_left
  rw [crcTrailer, hlo, hhi]

/-- A frame is what precedes its CRC field, and the field. -/
theorem take_append_carriedCrc {buf : List Byte} (h : 2 ≤ buf.length) :
    buf.take (buf.length - 2) ++ crcTrailer (carriedCrc buf) = buf := by
  have hdrop : buf.drop (buf.length - 2) = [byteAt buf (buf.length - 2), byteAt buf (buf.length - 1)] := by
    have hlast : buf.length - 2 + 1 = buf.length - 1 := by omega
    rw [List.drop_eq_getElem_cons (by omega), hlast, List.drop_eq_getElem_cons (by omega),
      List.drop_of_length_le (by omega), byteAt, byteAt, List.getD_eq_getElem, List.getD_eq_getElem]
  rw [carriedCrc, crcTrailer_le16, ← hdrop, List.take_append_drop]

/-- A frame has CRC 0 over all its bytes exactly if the CRC it carries is that of the bytes before (R105). -/
theorem crc16_eq_zero_iff {buf : List Byte} (h : 2 ≤ buf.length) :
    crc16 buf = 0#16 ↔ receivedCrc buf = carriedCrc buf := by
  rw [receivedCrc, ← foldl_crcTrailer_eq_zero_iff (d := carriedCrc buf), ← crc16_append,
    take_append_carriedCrc h]

end Sys2Proof.Machine
end

section
/-! SUPPORT. The RRX unit's commands case by case (42_rtu_deframer R145, R146). -/

namespace Sys2Proof.Machine

/-- RRX_BYTE with room for the byte: it is appended (R145). -/
theorem execRrxByte_of_room {s : State} (b : Byte) (ho : s.blk.rrx.st = .opened)
    (hl : s.blk.rrx.buf.length ≠ 256) :
    execRrxByte b s =
      .next (answered (s.withRrx { s.blk.rrx with buf := s.blk.rrx.buf ++ [b] }) .ok 0#16) := by
  have hroom : s.blk.rrx.buf.length ≠ Config.rtuFrameMax := hl
  rw [execRrxByte, if_neg (not_not.mpr ho), if_neg hroom, respond_answered]

/-- RRX_BYTE on a full buffer: the byte is discarded and RR_OVF set (R145). -/
theorem execRrxByte_of_full {s : State} (b : Byte) (ho : s.blk.rrx.st = .opened)
    (hl : s.blk.rrx.buf.length = 256) :
    execRrxByte b s = .next (answered (s.withRrx { s.blk.rrx with ovf := true }) .overflow 0#16) := by
  have hfull : s.blk.rrx.buf.length = Config.rtuFrameMax := hl
  rw [execRrxByte, if_neg (not_not.mpr ho), if_pos hfull, respond_answered]

theorem execRrxByte_of_closed {s : State} (b : Byte) (h : s.blk.rrx.st ≠ .opened) :
    execRrxByte b s = .next { s with resp := some 0x02000000#32 } := if_pos h

/-! ### RRX_END, check by check -/

theorem execRrxEnd_of_noReply {s : State} (ho : s.blk.rrx.st = .opened) (hl : s.blk.rrx.buf.length = 0) :
    execRrxEnd s = finishRrx s s.blk.rrx .rtuNoReply := by
  rw [execRrxEnd, if_neg (not_not.mpr ho), if_pos hl]

theorem execRrxEnd_of_overrun {s : State} (ho : s.blk.rrx.st = .opened) (hl : s.blk.rrx.buf.length ≠ 0)
    (hovf : s.blk.rrx.ovf = true) : execRrxEnd s = finishRrx s s.blk.rrx .rtuOverrun := by
  rw [execRrxEnd, if_neg (not_not.mpr ho), if_neg hl, if_pos hovf]

theorem execRrxEnd_of_short {s : State} (ho : s.blk.rrx.st = .opened) (hl : 1 ≤ s.blk.rrx.buf.length)
    (hshort : s.blk.rrx.buf.length ≤ 3) (hovf : s.blk.rrx.ovf = false) :
    execRrxEnd s = finishRrx s s.blk.rrx .rtuShort := by
  have hlt : s.blk.rrx.buf.length < Config.rtuFrameMin := Nat.lt_succ_of_le hshort
  rw [execRrxEnd, if_neg (not_not.mpr ho), if_neg (Nat.ne_of_gt hl), if_neg (Bool.eq_false_iff.mp hovf),
    if_pos hlt]

/-- A frame of at least 4 bytes with no overrun goes on to the content checks. -/
theorem execRrxEnd_of_sized {s : State} (ho : s.blk.rrx.st = .opened) (hl : 4 ≤ s.blk.rrx.buf.length)
    (hovf : s.blk.rrx.ovf = false) : execRrxEnd s = checkFrame s := by
  have hmin : ¬ s.blk.rrx.buf.length < Config.rtuFrameMin := Nat.not_lt.mpr hl
  rw [execRrxEnd, if_neg (not_not.mpr ho), if_neg (by omega), if_neg (Bool.eq_false_iff.mp hovf), if_neg hmin]

theorem checkFrame_of_address {s : State} (ha : byteAt s.blk.rrx.buf 0 ≠ s.blk.rrx.unit) :
    checkFrame s =
      finishRrx (s.withCrc (receivedCrc s.blk.rrx.buf)) { s.blk.rrx with fcrc := carriedCrc s.blk.rrx.buf }
        .rtuAddrMismatch := if_pos ha

theorem checkFrame_of_crc {s : State} (ha : byteAt s.blk.rrx.buf 0 = s.blk.rrx.unit)
    (hc : receivedCrc s.blk.rrx.buf ≠ carriedCrc s.blk.rrx.buf) :
    checkFrame s =
      finishRrx (s.withCrc (receivedCrc s.blk.rrx.buf)) { s.blk.rrx with fcrc := carriedCrc s.blk.rrx.buf }
        .rtuCrcMismatch := (if_neg (not_not.mpr ha)).trans (if_pos hc)

theorem checkFrame_of_accepted {s : State} (ha : byteAt s.blk.rrx.buf 0 = s.blk.rrx.unit)
    (hc : receivedCrc s.blk.rrx.buf = carriedCrc s.blk.rrx.buf) :
    checkFrame s =
      finishRrx (s.withCrc (receivedCrc s.blk.rrx.buf))
        { s.blk.rrx with
          fcrc := carriedCrc s.blk.rrx.buf
          plen := BitVec.ofNat 9 (s.blk.rrx.buf.length - 3)
          exc := isExceptionCode (byteAt s.blk.rrx.buf 1) } .ok :=
  (if_neg (not_not.mpr ha)).trans (if_neg (not_not.mpr hc))

/-- The end of a reception with the response word's halves written out: the result's code, and the 9 bits of RR_PLEN. -/
theorem finishRrx_halves (s : State) (u : Rrx) (r : ResultCode) :
    finishRrx s u r =
      .next { s.withRrx { u with st := .done, res := r } with
        resp := some ((r.code ++ 0x00#8 : Half) ++ (0#7 ++ u.plen : Half)) } := by
  have hplen : u.plen.setWidth 16 = (0#7 ++ u.plen : Half) := BitVec.setWidth_eq_append (by decide)
  rw [finishRrx_eq, hplen]
  rfl

/-- RR_PLEN of an accepted frame of at most 256 bytes, as a response value. -/
theorem plen_halves {n : Nat} (h : n ≤ 256) : (0#7 ++ BitVec.ofNat 9 (n - 3) : Half) = BitVec.ofNat 16 (n - 3) :=
  calc (0#7 ++ BitVec.ofNat 9 (n - 3) : Half) = (BitVec.ofNat 9 (n - 3)).setWidth 16 :=
        (BitVec.setWidth_eq_append (by decide)).symm
    _ = BitVec.ofNat 16 (n - 3) := BitVec.setWidth_ofNat_of_le_of_lt (by decide) (by omega)

/-- In OPEN, RRX_END accepts exactly the frames that pass every check of R146. -/
theorem execRrxEnd_res_ok_iff {s t : State} (ho : s.blk.rrx.st = .opened) (h : execRrxEnd s = .next t) :
    t.blk.rrx.res = .ok ↔
      4 ≤ s.blk.rrx.buf.length ∧ s.blk.rrx.ovf = false ∧ byteAt s.blk.rrx.buf 0 = s.blk.rrx.unit ∧
        receivedCrc s.blk.rrx.buf = carriedCrc s.blk.rrx.buf := by
  obtain ⟨hn, -⟩ | ⟨-, ⟨hl, rfl⟩ | ⟨-, hovf, rfl⟩ | ⟨-, -, hl, rfl⟩ | ⟨hovf, hl, hc⟩⟩ := execRrxEnd_cases h
  · exact absurd ho hn
  · simp [hl]
  · simp [hovf]
  · simp [Nat.not_le.mpr hl]
  · obtain ⟨ha, rfl⟩ | ⟨-, hcrc, rfl⟩ | ⟨ha, hcrc, rfl⟩ := checkFrame_cases hc
    · simp [ha]
    · simp [hcrc]
    · exact iff_of_true rfl ⟨hl, hovf, ha, hcrc⟩

end Sys2Proof.Machine
end

section
/-! SUPPORT. A run in two parts, and the reception of a whole RTU frame (20_memory R60, 42_rtu_deframer R147). -/

namespace Sys2Proof.Machine

theorem execAll_append {s t r : State} {l₁ l₂ : List Instr} {log₁ log₂ : List Exchange}
    (h₁ : execAll l₁ s = .next (t, log₁)) (h₂ : execAll l₂ t = .next (r, log₂)) :
    execAll (l₁ ++ l₂) s = .next (r, log₁ ++ log₂) := by
  induction l₁ generalizing s log₁ with
  | nil =>
    obtain ⟨rfl, rfl⟩ := Prod.mk.inj (Host.Outcome.next.inj h₁)
    exact h₂
  | cons i l ih =>
    obtain ⟨s', hs'⟩ := exec_total i s
    simp only [execAll, hs'] at h₁
    split at h₁
    next x hx =>
      obtain ⟨rfl, rfl⟩ := Prod.mk.inj (Host.Outcome.next.inj h₁)
      exact execAll_cons hs' (ih hx)
    next => cases h₁
    next => cases h₁

theorem responsesOf_append (n : UnitName) (log₁ log₂ : List Exchange) :
    responsesOf n (log₁ ++ log₂) = responsesOf n log₁ ++ responsesOf n log₂ := by
  simp [responsesOf]

/-- The RRX unit holds an accepted frame with the PDU `p`. -/
structure Deframed (q : Rrx) (p : List Byte) : Prop where
  done : q.st = .done
  ok : q.res = .ok
  plen : q.plen.toNat = p.length
  pdu : (q.buf.drop 1).take p.length = p
  exc : q.exc = (p.getD 0 0#8).getLsbD 7

/-- Every byte of an RTU frame fits the buffer, so none is discarded. -/
theorem Receiving.holds_rtuFrame {s : State} {u : Byte} {p : List Byte} (hr : Receiving s u (rtuFrame u p))
    (hmax : p.length ≤ 253) : s.blk.rrx.buf = rtuFrame u p ∧ s.blk.rrx.ovf = false := by
  have hfits : (rtuFrame u p).length ≤ 256 := by rw [rtuFrame_length]; omega
  exact ⟨hr.buf.trans (List.take_of_length_le hfits), hr.ovf.trans (decide_eq_false (Nat.not_lt.mpr hfits))⟩

/-- RRX_END after an RTU frame of the expected unit: its CRC over all bytes is 0, so it is accepted with its PDU (R105, R146). -/
theorem Receiving.accepts_rtuFrame {s t : State} {u : Byte} {p : List Byte}
    (hr : Receiving s u (rtuFrame u p)) (hmin : 1 ≤ p.length) (hmax : p.length ≤ 253)
    (h : execRrxEnd s = .next t) :
    Deframed t.blk.rrx p ∧ t.resp = some (0x0000#16 ++ BitVec.ofNat 16 p.length) := by
  obtain ⟨hbuf, hovf⟩ := hr.holds_rtuFrame hmax
  have hlen : s.blk.rrx.buf.length = p.length + 3 := by rw [hbuf, rtuFrame_length]
  have hunit : byteAt s.blk.rrx.buf 0 = s.blk.rrx.unit := by rw [hbuf, hr.unit]; rfl
  have hcrc : receivedCrc s.blk.rrx.buf = carriedCrc s.blk.rrx.buf :=
    (crc16_eq_zero_iff (by omega)).mp (by rw [hbuf]; exact crc16_append_crcTrailer (u :: p))
  have hfc : byteAt s.blk.rrx.buf 1 = p.getD 0 0#8 := by
    rw [hbuf]
    exact List.getD_append p _ 0#8 0 hmin
  rw [execRrxEnd_of_sized hr.opened (by omega) hovf, checkFrame_of_accepted hunit hcrc, finishRrx_halves,
    plen_halves (by omega)] at h
  obtain rfl := Host.Outcome.next.inj h
  refine ⟨⟨rfl, rfl, ?_, ?_, congrArg (·.getLsbD 7) hfc⟩, ?_⟩
  · simp [hlen]
    omega
  · simp [hbuf, rtuFrame]
  · rw [hlen, Nat.add_sub_cancel]
    rfl

/-- RRX_END after an RTU frame, with other units' commands before and after it. -/
theorem Receiving.run_end {s : State} {u : Byte} {p : List Byte} {l : List Instr}
    (hr : Receiving s u (rtuFrame u p)) (hmin : 1 ≤ p.length) (hmax : p.length ≤ 253)
    (h : onlyUnit .rrx l = [.rrxEnd]) :
    ∃ t log, execAll l s = .next (t, log) ∧ Deframed t.blk.rrx p ∧
      responsesOf .rrx log = [some (0x0000#16 ++ BitVec.ofNat 16 p.length)] := by
  obtain ⟨s', t, post, hk, ht, hpost, hrun⟩ := execAll_of_onlyUnit_cons h s
  obtain ⟨hdone, hresp⟩ := (hr.of_kept hk).accepts_rtuFrame hmin hmax ht
  obtain ⟨r, log, hlast, hkept, hlog⟩ := execAll_of_onlyUnit_nil hpost t
  obtain ⟨log', hall, hlog'⟩ := hrun r log hlast
  have hkept : r.blk.rrx = t.blk.rrx := hkept
  exact ⟨r, log', hall, hkept ▸ hdone, by rw [hlog', hresp, hlog]⟩

end Sys2Proof.Machine
end

section
/-! The RTU deframer's statements (42_rtu_deframer R140 to R147). -/

namespace Sys2Proof.Proofs
open Sys2Proof.Machine

/-- Settles O28: the word's bits [23:0] are all must-be-zero, RR_PLEN in OPEN is the invariant's, and each check is its own lemma. -/
theorem rrxEndResult : Obligations.RrxEndResult := by
  refine ⟨fun w hop => decode_of_op (m := .rrxEnd) (by decide) hop (low24_zero w),
    fun _ => execRrxEnd_of_closed, fun _ hi ho => (hi.of_opened ho).2.2, fun s ho => ?_⟩
  intro q n c f
  refine ⟨fun hl => ?_, fun hl hovf => ?_, fun hl hshort hovf => ?_, fun hl hovf ha => ?_,
    fun hl hovf ha hc => ?_, fun hl hmax hovf ha hc => ?_⟩
  · exact (execRrxEnd_of_noReply ho hl).trans (finishRrx_halves _ _ _)
  · exact (execRrxEnd_of_overrun ho hl hovf).trans (finishRrx_halves _ _ _)
  · exact (execRrxEnd_of_short ho hl hshort hovf).trans (finishRrx_halves _ _ _)
  · exact ((execRrxEnd_of_sized ho hl hovf).trans (checkFrame_of_address ha)).trans (finishRrx_halves _ _ _)
  · exact ((execRrxEnd_of_sized ho hl hovf).trans (checkFrame_of_crc ha hc)).trans (finishRrx_halves _ _ _)
  · rw [← plen_halves hmax]
    exact ((execRrxEnd_of_sized ho hl hovf).trans (checkFrame_of_accepted ha hc)).trans (finishRrx_halves _ _ _)

/-- Settles O31: of the frames that pass the size checks, those that carry their own CRC are those of CRC residue 0, because a byte fed to the CRC register loses nothing of it. -/
theorem acceptedFramesAreTheResidueFrames : Obligations.AcceptedFramesAreTheResidueFrames := by
  intro s t ho h
  rw [execRrxEnd_res_ok_iff ho h]
  refine and_congr_right fun hl => and_congr_right fun _ => and_congr ?_ (crc16_eq_zero_iff (by omega)).symm
  have hpos : 0 < s.blk.rrx.buf.length := by omega
  rw [byteAt, List.getD_eq_getElem _ _ hpos, List.head?_eq_getElem?, List.getElem?_eq_getElem hpos,
    Option.some_inj]

/-- Settles O32: the run up to RRX_END receives the whole frame, which RRX_END accepts; other units' commands leave the reception as it was. -/
theorem rtuRoundTrip : Obligations.RtuRoundTrip := by
  intro s u p l hmin hmax hl
  obtain ⟨s', t, post, -, ht, hpost, hrun⟩ := execAll_of_onlyUnit_cons hl s
  obtain ⟨l₁, l₂, rfl, hl₁, hl₂⟩ := List.filter_eq_append_iff.mp hpost
  obtain ⟨hbegin, hresp⟩ := execRrxBegin_receiving ht
  obtain ⟨t₁, log₁, hr₁, hrecv, hlog₁⟩ := hbegin.run hl₁
  obtain ⟨r, log₂, hr₂, hdone, hlog₂⟩ := hrecv.run_end hmin hmax hl₂
  obtain ⟨log', hall, hlog'⟩ := hrun r _ (execAll_append hr₁ hr₂)
  refine ⟨r, log', hall, ?_, hdone.done, hdone.ok, hdone.plen, hdone.pdu, hdone.exc⟩
  have hfits : p.length + 3 ≤ 256 := by omega
  rw [hlog', hresp, responsesOf_append, hlog₁, hlog₂, rtuFrame_length]
  simp [byteResponses, Nat.min_eq_left hfits, Nat.sub_eq_zero_of_le hfits, List.replicate_succ]

/-- Settles O26: the must-be-zero bits are `D`, and the execution overwrites the unit whatever it held. -/
theorem rrxBeginResult : Obligations.RrxBeginResult :=
  ⟨fun _ hop => decode_of_op (m := .rrxBegin) (by decide) hop Iff.rfl, fun _ _ => rfl⟩

/-- Settles O27: the must-be-zero bits are [23:8], and each case of the execution is its own lemma. -/
theorem rrxByteResult : Obligations.RrxByteResult := by
  refine ⟨fun w hop => ?_, fun _ b => execRrxByte_of_room b, fun _ b => execRrxByte_of_full b,
    fun _ b => execRrxByte_of_closed b⟩
  rw [← dField_byte w 0 (by decide)]
  exact decode_of_op (m := .rrxByte) (by decide) hop (mid16_zero w)

end Sys2Proof.Proofs
end

section
/-! SUPPORT. A run with one command of a unit (20_memory R60). -/

namespace Sys2Proof.Machine

/-- The unit's only command is executed with the unit as the run found it, and the unit stays as the command left it. -/
theorem execAll_of_onlyUnit_singleton {n : UnitName} {l : List Instr} {i : Instr} (h : onlyUnit n l = [i])
    (s : State) :
    ∃ s' t r log, UnitKept s s' n ∧ exec i s' = .next t ∧ UnitKept t r n ∧ execAll l s = .next (r, log) ∧
      responsesOf n log = [t.resp] := by
  obtain ⟨s', t, post, hk, ht, hpost, hrun⟩ := execAll_of_onlyUnit_cons h s
  obtain ⟨r, log, hr, hkept, hlog⟩ := execAll_of_onlyUnit_nil hpost t
  obtain ⟨log', hall, hlog'⟩ := hrun r log hr
  exact ⟨s', t, r, log', hk, ht, hkept, hall, by rw [hlog', hlog]⟩

end Sys2Proof.Machine
end

section
/-! SUPPORT. The MTX unit's commands case by case, and the run that builds a frame (43_mbap_framer R160 to R163). -/

namespace Sys2Proof.Machine

/-- MTX_BYTE with room for the byte: it is appended (R161). -/
theorem execMtxByte_of_room {s : State} (b : Byte) (ho : s.blk.mtx.st = .opened)
    (hl : s.blk.mtx.pdu.length ≠ 253) :
    execMtxByte b s =
      .next (answered (s.withMtx { s.blk.mtx with pdu := s.blk.mtx.pdu ++ [b] }) .ok 0#16) := by
  have hroom : s.blk.mtx.pdu.length ≠ Config.pduMax := hl
  rw [execMtxByte, if_neg (not_not.mpr ho), if_neg hroom, respond_answered]

/-- MTX_BYTE after 253 PDU bytes: the frame is given up, the ids stay (R161). -/
theorem execMtxByte_of_full {s : State} (b : Byte) (ho : s.blk.mtx.st = .opened)
    (hl : s.blk.mtx.pdu.length = 253) :
    execMtxByte b s =
      .next (answered (s.withMtx { s.blk.mtx with st := .idle, pdu := [] }) .overflow 0#16) := by
  have hfull : s.blk.mtx.pdu.length = Config.pduMax := hl
  rw [execMtxByte, if_neg (not_not.mpr ho), if_pos hfull, respond_answered]

theorem execMtxByte_of_closed {s : State} (b : Byte) (h : s.blk.mtx.st ≠ .opened) :
    execMtxByte b s = .next { s with resp := some 0x02000000#32 } := if_pos h

/-- MTX_END on a PDU of at least one byte: the frame is built (R162). -/
theorem execMtxEnd_of_pdu {s : State} (ho : s.blk.mtx.st = .opened) (hl : s.blk.mtx.pdu.length ≠ 0) :
    execMtxEnd s =
      .next (answered (s.withMtx
        { s.blk.mtx with st := .done, frame := mbapFrame s.blk.mtx.tid s.blk.mtx.unit s.blk.mtx.pdu })
        .ok (BitVec.ofNat 16 (7 + s.blk.mtx.pdu.length))) := by
  rw [execMtxEnd, if_neg (not_not.mpr ho), if_neg hl, respond_answered]
  rfl

/-- MTX_END on an empty PDU: the frame is given up (R162). -/
theorem execMtxEnd_of_empty {s : State} (ho : s.blk.mtx.st = .opened) (hl : s.blk.mtx.pdu.length = 0) :
    execMtxEnd s = .next (answered (s.withMtx { s.blk.mtx with st := .idle }) .empty 0#16) := by
  rw [execMtxEnd, if_neg (not_not.mpr ho), if_pos hl, respond_answered]

/-! ### The run that builds a frame: the unit in OPEN, before and after each command -/

/-- The MTX unit in OPEN with the PDU bytes `a` so far, as a run from MTX_BEGIN leaves it. -/
def Mtx.collecting (d : Half) (u : Byte) (a : List Byte) : Mtx := ⟨.opened, d, u, a, []⟩

/-- The MTX unit with the frame of the PDU `p` built. -/
def Mtx.built (d : Half) (u : Byte) (p : List Byte) : Mtx := ⟨.done, d, u, p, mbapFrame d u p⟩

theorem execMtxBegin_collects {s t : State} {u : Byte} {d : Half} (h : execMtxBegin u d s = .next t) :
    t.blk.mtx = .collecting d u [] ∧ t.resp = some 0x00000000#32 := by
  rw [execMtxBegin_next h]
  exact ⟨rfl, rfl⟩

theorem execMtxByte_collects {s t : State} {u b : Byte} {d : Half} {a : List Byte}
    (hs : s.blk.mtx = .collecting d u a) (hl : a.length ≠ 253) (h : execMtxByte b s = .next t) :
    t.blk.mtx = .collecting d u (a ++ [b]) ∧ t.resp = some 0x00000000#32 := by
  rw [execMtxByte_of_room b (by rw [hs]; rfl) (by rwa [hs]), hs] at h
  obtain rfl := Host.Outcome.next.inj h
  exact ⟨rfl, rfl⟩

theorem execMtxEnd_builds {s t : State} {u : Byte} {d : Half} {p : List Byte}
    (hs : s.blk.mtx = .collecting d u p) (hl : 1 ≤ p.length) (h : execMtxEnd s = .next t) :
    t.blk.mtx = .built d u p ∧ t.resp = some (0x0000#16 ++ BitVec.ofNat 16 (7 + p.length)) := by
  rw [execMtxEnd_of_pdu (by rw [hs]; rfl) (by rw [hs]; exact Nat.ne_of_gt hl), hs] at h
  obtain rfl := Host.Outcome.next.inj h
  exact ⟨rfl, congrArg some (responseWord_ok _)⟩

/-- The bytes `p`, with other units' commands between them, are appended to the PDU. -/
theorem execAll_mtxBytes {s : State} {u : Byte} {d : Half} {a p : List Byte} {l : List Instr}
    (hs : s.blk.mtx = .collecting d u a) (hmax : a.length + p.length ≤ 253)
    (h : onlyUnit .mtx l = p.map Instr.mtxByte) :
    ∃ t log, execAll l s = .next (t, log) ∧ t.blk.mtx = .collecting d u (a ++ p) ∧
      responsesOf .mtx log = List.replicate p.length (some 0x00000000#32) := by
  induction p generalizing s a l with
  | nil =>
    obtain ⟨t, log, hrun, hk, hlog⟩ := execAll_of_onlyUnit_nil h s
    exact ⟨t, log, hrun, by rw [List.append_nil]; exact Eq.trans hk hs, hlog⟩
  | cons b p ih =>
    rw [List.length_cons] at hmax
    obtain ⟨s', t, post, hk, ht, hpost, hrun⟩ := execAll_of_onlyUnit_cons h s
    obtain ⟨hopen, hresp⟩ := execMtxByte_collects (Eq.trans hk hs) (by omega) ht
    obtain ⟨r, log, hr, hdone, hlog⟩ := ih hopen (by simp; omega) hpost
    obtain ⟨log', hall, hlog'⟩ := hrun r log hr
    rw [List.append_cons]
    exact ⟨r, log', hall, hdone, by rw [hlog', hresp, hlog]; rfl⟩

/-- MTX_END with other units' commands before and after it. -/
theorem execAll_mtxEnd {s : State} {u : Byte} {d : Half} {p : List Byte} {l : List Instr}
    (hs : s.blk.mtx = .collecting d u p) (hl : 1 ≤ p.length) (h : onlyUnit .mtx l = [.mtxEnd]) :
    ∃ t log, execAll l s = .next (t, log) ∧ t.blk.mtx = .built d u p ∧
      responsesOf .mtx log = [some (0x0000#16 ++ BitVec.ofNat 16 (7 + p.length))] := by
  obtain ⟨s', t, r, log, hk, ht, hkept, hall, hlog⟩ := execAll_of_onlyUnit_singleton h s
  obtain ⟨hdone, hresp⟩ := execMtxEnd_builds (Eq.trans hk hs) hl ht
  exact ⟨r, log, hall, Eq.trans hkept hdone, by rw [hlog, hresp]⟩

end Sys2Proof.Machine
end

section
/-! The MBAP framer's statements (43_mbap_framer R160 to R163). -/

namespace Sys2Proof.Proofs
open Sys2Proof.Machine

/-- Settles O36: MTX_BEGIN opens an empty PDU with the ids, by induction on the PDU its bytes are collected, and MTX_END builds the frame; other units' commands leave the unit as it was. -/
theorem mbapFrameIsBuilt : Obligations.MbapFrameIsBuilt := by
  intro s u d p l hmin hmax hl
  obtain ⟨s', t, post, -, ht, hpost, hrun⟩ := execAll_of_onlyUnit_cons hl s
  obtain ⟨l₁, l₂, rfl, hl₁, hl₂⟩ := List.filter_eq_append_iff.mp hpost
  obtain ⟨hopen, hresp⟩ := execMtxBegin_collects ht
  obtain ⟨t₁, log₁, hr₁, hpdu, hlog₁⟩ := execAll_mtxBytes hopen (by simpa using hmax) hl₁
  obtain ⟨r, log₂, hr₂, hdone, hlog₂⟩ := execAll_mtxEnd hpdu hmin hl₂
  obtain ⟨log', hall, hlog'⟩ := hrun r _ (execAll_append hr₁ hr₂)
  refine ⟨r, log', hall, ?_, congrArg Mtx.st hdone, congrArg Mtx.frame hdone⟩
  rw [hlog', hresp, responsesOf_append, hlog₁, hlog₂]
  rfl

/-- Settles O33: the format has no must-be-zero bits, and the execution overwrites the unit whatever it held. -/
theorem mtxBeginResult : Obligations.MtxBeginResult :=
  ⟨fun _ hop => (decode_of_op (m := .mtxBegin) (P := True) (by decide) hop Iff.rfl).trans (if_pos trivial),
    fun _ _ _ => rfl⟩

/-- Settles O34: the must-be-zero bits are [23:8], and each case of the execution is its own lemma. -/
theorem mtxByteResult : Obligations.MtxByteResult := by
  refine ⟨fun w hop => ?_, fun _ b => execMtxByte_of_room b, fun _ b => execMtxByte_of_full b,
    fun _ b => execMtxByte_of_closed b⟩
  rw [← dField_byte w 0 (by decide)]
  exact decode_of_op (m := .mtxByte) (by decide) hop (mid16_zero w)

/-- Settles O35: the word's bits [23:0] are all must-be-zero, and each case of the execution is its own lemma. -/
theorem mtxEndResult : Obligations.MtxEndResult := by
  refine ⟨fun w hop => decode_of_op (m := .mtxEnd) (by decide) hop (low24_zero w), fun s ho hl => ?_,
    fun _ => execMtxEnd_of_empty, fun _ => execMtxEnd_of_closed⟩
  intro q len
  rw [← responseWord_ok]
  exact execMtxEnd_of_pdu ho hl

end Sys2Proof.Proofs
end

section
/-! SUPPORT. The MRX unit's commands case by case, and the run that parses a frame (44_mbap_deframer R180 to R183). -/

namespace Sys2Proof.Machine

/-- MRX_BYTE before the seventh header byte: the byte is collected (R181). -/
theorem execMrxByte_of_header {s : State} (b : Byte) (hs : s.blk.mrx.st = .header)
    (hl : s.blk.mrx.hdr.length ≠ 6) :
    execMrxByte b s =
      .next (answered (s.withMrx { s.blk.mrx with hdr := s.blk.mrx.hdr ++ [b] }) .ok 1#16) := by
  have hshort : (s.blk.mrx.hdr ++ [b]).length ≠ Config.mbapHeaderLen := by
    simpa [Config.mbapHeaderLen] using hl
  simp only [execMrxByte, hs, mrxHeaderByte, if_neg hshort]
  rfl

/-- MRX_BYTE on the seventh header byte: the fields are latched and checked (R181). -/
theorem execMrxByte_of_seventh {s : State} {h0 h1 h2 h3 h4 h5 : Byte} (b : Byte)
    (hs : s.blk.mrx.st = .header) (hh : s.blk.mrx.hdr = [h0, h1, h2, h3, h4, h5]) :
    execMrxByte b s = checkHeader s (latchHeader s.blk.mrx [h0, h1, h2, h3, h4, h5, b]) := by
  simp only [execMrxByte, hs, mrxHeaderByte, hh]
  rfl

/-! ### The header checks, in their order (R182) -/

theorem checkHeader_of_badProtocol {s : State} {u : Mrx} (hp : u.proto ≠ 0#16) :
    checkHeader s u =
      .next (answered (s.withMrx { u with st := .error, res := .mbapBadProtocol }) .mbapBadProtocol 4#16) :=
  if_pos hp

theorem checkHeader_of_badLength {s : State} {u : Mrx} (hp : u.proto = 0#16)
    (hl : u.lenf.toNat < 2 ∨ 254 < u.lenf.toNat) :
    checkHeader s u =
      .next (answered (s.withMrx { u with st := .error, res := .mbapBadLength }) .mbapBadLength 4#16) :=
  (if_neg (not_not.mpr hp)).trans (if_pos hl)

theorem checkHeader_of_valid {s : State} {u : Mrx} (hp : u.proto = 0#16) (hmin : 2 ≤ u.lenf.toNat)
    (hmax : u.lenf.toNat ≤ 254) :
    checkHeader s u = .next (answered (s.withMrx { u with st := .pdu }) .ok 2#16) :=
  (if_neg (not_not.mpr hp)).trans (if_neg (not_or.mpr ⟨Nat.not_lt.mpr hmin, Nat.not_lt.mpr hmax⟩))

/-! ### MRX_BYTE after the header (R181) -/

theorem execMrxByte_of_pdu {s : State} (b : Byte) (hs : s.blk.mrx.st = .pdu)
    (hl : s.blk.mrx.pdu.length + 2 ≠ s.blk.mrx.lenf.toNat) :
    execMrxByte b s =
      .next (answered (s.withMrx { s.blk.mrx with pdu := s.blk.mrx.pdu ++ [b] }) .ok 2#16) := by
  have hmore : (s.blk.mrx.pdu ++ [b]).length + 1 ≠ s.blk.mrx.lenf.toNat := by simpa using hl
  simp only [execMrxByte, hs, mrxPduByte, if_neg hmore]
  rfl

theorem execMrxByte_of_lastPdu {s : State} (b : Byte) (hs : s.blk.mrx.st = .pdu)
    (hl : s.blk.mrx.pdu.length + 2 = s.blk.mrx.lenf.toNat) :
    execMrxByte b s =
      .next (answered
        (s.withMrx { s.blk.mrx with pdu := s.blk.mrx.pdu ++ [b], st := .done, res := .ok }) .ok 3#16) := by
  have hlast : (s.blk.mrx.pdu ++ [b]).length + 1 = s.blk.mrx.lenf.toNat := by simpa using hl
  simp only [execMrxByte, hs, mrxPduByte, if_pos hlast]
  rfl

/-- MRX_BYTE outside HEADER and PDU: refused with the unit's state as the value. -/
theorem execMrxByte_of_closed {s : State} {st : ParseSt} (b : Byte) (hs : s.blk.mrx.st = st)
    (hh : st ≠ .header) (hp : st ≠ .pdu) :
    execMrxByte b s = .next (answered s .badState st.code) := by
  cases st with
  | header => exact absurd rfl hh
  | pdu => exact absurd rfl hp
  | idle | done | error => simp only [execMrxByte, hs, respond_answered]

/-! ### The run that parses a frame: the unit before and after each command -/

/-- The MRX unit in HEADER with the header bytes `a` so far, as a run from MRX_BEGIN leaves it. -/
def Mrx.inHeader (a : List Byte) : Mrx := ⟨.header, a, 0#16, 0#16, 0#16, 0#8, .none, []⟩

/-- The MRX unit in PDU after a valid header, with the PDU bytes `a` so far. -/
def Mrx.inPdu (d len : Half) (u : Byte) (a : List Byte) : Mrx :=
  ⟨.pdu, mbapHeader d len u, d, 0#16, len, u, .none, a⟩

/-- The MRX unit with the frame of the PDU `p` parsed. -/
def Mrx.parsed (d len : Half) (u : Byte) (p : List Byte) : Mrx :=
  ⟨.done, mbapHeader d len u, d, 0#16, len, u, .ok, p⟩

theorem execMrxBegin_inHeader {s t : State} (h : execMrxBegin s = .next t) :
    t.blk.mrx = .inHeader [] ∧ t.resp = some 0x00000001#32 := by
  rw [execMrxBegin_next h]
  exact ⟨rfl, rfl⟩

theorem execMrxByte_inHeader {s t : State} {a : List Byte} {b : Byte} (hs : s.blk.mrx = .inHeader a)
    (hl : a.length < 6) (h : execMrxByte b s = .next t) :
    t.blk.mrx = .inHeader (a ++ [b]) ∧ t.resp = some 0x00000001#32 := by
  rw [execMrxByte_of_header b (by rw [hs]; rfl) (by rw [hs]; exact Nat.ne_of_lt hl), hs] at h
  obtain rfl := Host.Outcome.next.inj h
  exact ⟨rfl, rfl⟩

/-- Latching the header of a frame recovers the fields it was built from. -/
theorem latchHeader_mbapHeader (a : List Byte) (d len : Half) (u : Byte) :
    latchHeader (.inHeader a) (mbapHeader d len u) = { Mrx.inPdu d len u [] with st := .header } := by
  have hproto : be16 0x00#8 0x00#8 = 0#16 := by decide
  simp [latchHeader, mbapHeader, byteAt, Mrx.inHeader, Mrx.inPdu, hproto]

theorem execMrxByte_latches {s t : State} {d len : Half} {u : Byte}
    (hs : s.blk.mrx = .inHeader [hi8 d, lo8 d, 0x00#8, 0x00#8, hi8 len, lo8 len])
    (hmin : 2 ≤ len.toNat) (hmax : len.toNat ≤ 254) (h : execMrxByte u s = .next t) :
    t.blk.mrx = .inPdu d len u [] ∧ t.resp = some 0x00000002#32 := by
  have hheader : [hi8 d, lo8 d, 0x00#8, 0x00#8, hi8 len, lo8 len, u] = mbapHeader d len u := rfl
  rw [execMrxByte_of_seventh u (by rw [hs]; rfl) (by rw [hs]; rfl), hs, hheader, latchHeader_mbapHeader,
    checkHeader_of_valid rfl hmin hmax] at h
  obtain rfl := Host.Outcome.next.inj h
  exact ⟨rfl, rfl⟩

theorem execMrxByte_inPdu {s t : State} {d len : Half} {u b : Byte} {a : List Byte}
    (hs : s.blk.mrx = .inPdu d len u a) (hl : a.length < len.toNat - 2) (h : execMrxByte b s = .next t) :
    t.blk.mrx = .inPdu d len u (a ++ [b]) ∧ t.resp = some 0x00000002#32 := by
  have hmore : a.length + 2 ≠ len.toNat := by omega
  rw [execMrxByte_of_pdu b (by rw [hs]; rfl) (by rw [hs]; exact hmore), hs] at h
  obtain rfl := Host.Outcome.next.inj h
  exact ⟨rfl, rfl⟩

theorem execMrxByte_parses {s t : State} {d len : Half} {u b : Byte} {a : List Byte}
    (hs : s.blk.mrx = .inPdu d len u a) (hl : a.length + 2 = len.toNat) (h : execMrxByte b s = .next t) :
    t.blk.mrx = .parsed d len u (a ++ [b]) ∧ t.resp = some 0x00000003#32 := by
  rw [execMrxByte_of_lastPdu b (by rw [hs]; rfl) (by rw [hs]; exact hl), hs] at h
  obtain rfl := Host.Outcome.next.inj h
  exact ⟨rfl, rfl⟩

/-- Bytes that MRX_BYTE collects one by one, up to `cap` of them and each answered `w`, are collected by a run with other units' commands between them. -/
theorem execAll_mrxBytes {collected : List Byte → Mrx} {cap : Nat} {w : Word}
    (hbyte : ∀ {s t : State} {a : List Byte} {b : Byte}, s.blk.mrx = collected a → a.length < cap →
      execMrxByte b s = .next t → t.blk.mrx = collected (a ++ [b]) ∧ t.resp = some w)
    {s : State} {a bs : List Byte} {l : List Instr} (hs : s.blk.mrx = collected a)
    (hcap : a.length + bs.length ≤ cap) (h : onlyUnit .mrx l = bs.map Instr.mrxByte) :
    ∃ t log, execAll l s = .next (t, log) ∧ t.blk.mrx = collected (a ++ bs) ∧
      responsesOf .mrx log = List.replicate bs.length (some w) := by
  induction bs generalizing s a l with
  | nil =>
    obtain ⟨t, log, hrun, hk, hlog⟩ := execAll_of_onlyUnit_nil h s
    exact ⟨t, log, hrun, by rw [List.append_nil]; exact Eq.trans hk hs, hlog⟩
  | cons b bs ih =>
    rw [List.length_cons] at hcap
    obtain ⟨s', t, post, hk, ht, hpost, hrun⟩ := execAll_of_onlyUnit_cons h s
    obtain ⟨hmore, hresp⟩ := hbyte (Eq.trans hk hs) (by omega) ht
    obtain ⟨r, log, hr, hall, hlog⟩ := ih hmore (by simp; omega) hpost
    obtain ⟨log', hrun', hlog'⟩ := hrun r log hr
    rw [List.append_cons]
    exact ⟨r, log', hrun', hall, by rw [hlog', hresp, hlog]; rfl⟩

/-- The seven header bytes of a frame: six are collected, the seventh latches the fields. -/
theorem execAll_mrxHeader {s : State} {d len : Half} {u : Byte} {l : List Instr}
    (hs : s.blk.mrx = .inHeader []) (hmin : 2 ≤ len.toNat) (hmax : len.toNat ≤ 254)
    (h : onlyUnit .mrx l = (mbapHeader d len u).map Instr.mrxByte) :
    ∃ t log, execAll l s = .next (t, log) ∧ t.blk.mrx = .inPdu d len u [] ∧
      responsesOf .mrx log = List.replicate 6 (some 0x00000001#32) ++ [some 0x00000002#32] := by
  have hsplit : onlyUnit .mrx l =
      [hi8 d, lo8 d, 0x00#8, 0x00#8, hi8 len, lo8 len].map Instr.mrxByte ++ [.mrxByte u] := h
  obtain ⟨l₁, l₂, rfl, hl₁, hl₂⟩ := List.filter_eq_append_iff.mp hsplit
  obtain ⟨t₁, log₁, hr₁, hsix, hlog₁⟩ := execAll_mrxBytes execMrxByte_inHeader hs (by simp) hl₁
  obtain ⟨s', t, r, log₂, hk, ht, hkept, hr₂, hlog₂⟩ := execAll_of_onlyUnit_singleton hl₂ t₁
  obtain ⟨hpdu, hresp⟩ := execMrxByte_latches (Eq.trans hk hsix) hmin hmax ht
  refine ⟨r, _, execAll_append hr₁ hr₂, Eq.trans hkept hpdu, ?_⟩
  rw [responsesOf_append, hlog₁, hlog₂, hresp]
  rfl

/-- The PDU bytes of a frame: all but the last are collected, the last ends the frame. -/
theorem execAll_mrxPdu {s : State} {d len : Half} {u b : Byte} {p : List Byte} {l : List Instr}
    (hs : s.blk.mrx = .inPdu d len u []) (hlen : p.length + 2 = len.toNat)
    (h : onlyUnit .mrx l = (p ++ [b]).map Instr.mrxByte) :
    ∃ t log, execAll l s = .next (t, log) ∧ t.blk.mrx = .parsed d len u (p ++ [b]) ∧
      responsesOf .mrx log = List.replicate p.length (some 0x00000002#32) ++ [some 0x00000003#32] := by
  obtain ⟨l₁, l₂, rfl, hl₁, hl₂⟩ := List.filter_eq_append_iff.mp (h.trans List.map_append)
  obtain ⟨t₁, log₁, hr₁, hpdu, hlog₁⟩ := execAll_mrxBytes execMrxByte_inPdu hs (by simp; omega) hl₁
  obtain ⟨s', t, r, log₂, hk, ht, hkept, hr₂, hlog₂⟩ := execAll_of_onlyUnit_singleton hl₂ t₁
  obtain ⟨hdone, hresp⟩ := execMrxByte_parses (Eq.trans hk hpdu) hlen ht
  refine ⟨r, _, execAll_append hr₁ hr₂, Eq.trans hkept hdone, ?_⟩
  rw [responsesOf_append, hlog₁, hlog₂, hresp]

end Sys2Proof.Machine
end

section
/-! The MBAP deframer's statements (44_mbap_deframer R180 to R183). -/

namespace Sys2Proof.Proofs
open Sys2Proof.Machine

/-- Settles O38: the must-be-zero bits are [23:8], and each case of the execution and each header check is its own lemma. -/
theorem mrxByteResult : Obligations.MrxByteResult := by
  refine ⟨fun w hop => ?_, fun _ b => execMrxByte_of_header b, fun s b h0 h1 h2 h3 h4 h5 hs hh => ?_,
    fun _ b => execMrxByte_of_pdu b, fun _ b => execMrxByte_of_lastPdu b,
    fun _ b hs => execMrxByte_of_closed b hs nofun nofun,
    fun _ b hs => execMrxByte_of_closed b hs nofun nofun,
    fun _ b hs => execMrxByte_of_closed b hs nofun nofun⟩
  · rw [← dField_byte w 0 (by decide)]
    exact decode_of_op (m := .mrxByte) (by decide) hop (mid16_zero w)
  · have hlatch := execMrxByte_of_seventh b hs hh
    exact ⟨fun hp => hlatch.trans (checkHeader_of_badProtocol hp),
      fun hp hl => hlatch.trans (checkHeader_of_badLength hp hl),
      fun hp hmin hmax => hlatch.trans (checkHeader_of_valid hp hmin hmax)⟩

/-- Settles O39: MRX_BEGIN starts a parse, the header's fields are latched as they were built, and the length field ends the frame at the PDU's last byte; other units' commands leave the parse as it was. -/
theorem mbapRoundTrip : Obligations.MbapRoundTrip := by
  intro s u d p l hmin hmax hl
  obtain rfl | ⟨q, b, rfl⟩ := List.eq_nil_or_concat' p
  · simp at hmin
  have hlen : (BitVec.ofNat 16 (1 + (q ++ [b]).length)).toNat = 1 + (q ++ [b]).length := by
    rw [BitVec.toNat_ofNat]
    omega
  obtain ⟨s', t, post, -, ht, hpost, hrun⟩ := execAll_of_onlyUnit_cons hl s
  obtain ⟨l₁, l₂, rfl, hl₁, hl₂⟩ := List.filter_eq_append_iff.mp (hpost.trans List.map_append)
  obtain ⟨hbegin, hresp⟩ := execMrxBegin_inHeader ht
  obtain ⟨t₁, log₁, hr₁, hpdu, hlog₁⟩ := execAll_mrxHeader hbegin (by omega) (by omega) hl₁
  obtain ⟨r, log₂, hr₂, hdone, hlog₂⟩ := execAll_mrxPdu hpdu (by rw [hlen]; simp; omega) hl₂
  obtain ⟨log', hall, hlog'⟩ := hrun r _ (execAll_append hr₁ hr₂)
  refine ⟨r, log', hall, ?_, congrArg Mrx.st hdone, congrArg Mrx.res hdone, congrArg Mrx.tid hdone,
    congrArg Mrx.unit hdone, congrArg Mrx.proto hdone, ?_, congrArg Mrx.pdu hdone⟩
  · rw [hlog', hresp, responsesOf_append, hlog₁, hlog₂, List.length_append, List.length_singleton,
      List.replicate_succ]
    rfl
  · rw [hdone]
    exact hlen

/-- Settles O37: the word's bits [23:0] are all must-be-zero, and the execution overwrites the unit whatever it held. -/
theorem mrxBeginResult : Obligations.MrxBeginResult :=
  ⟨fun w hop => decode_of_op (m := .mrxBegin) (by decide) hop (low24_zero w), fun _ => rfl⟩

end Sys2Proof.Proofs
end

section
/-! SUPPORT. What a read answers: the datum's response word, RANGE where there is no datum, and the windows the invariant keeps empty (45_readback R200 to R206). -/

namespace Sys2Proof.Machine

/-- An OK response to a zero-extended datum is the datum zero-extended to the whole word. -/
theorem responseWord_ok_setWidth {n : Nat} (x : BitVec n) (hn : n ≤ 16) :
    responseWord .ok (x.setWidth 16) = x.setWidth 32 := by
  calc responseWord .ok (x.setWidth 16) = 0x0000#16 ++ x.setWidth 16 := responseWord_ok _
    _ = (x.setWidth 16).setWidth 32 := (BitVec.setWidth_eq_append (by decide)).symm
    _ = x.setWidth 32 := BitVec.setWidth_setWidth (by omega)

theorem responseWord_ok_byte (b : Byte) : responseWord .ok (b.setWidth 16) = 0x000000#24 ++ b :=
  (responseWord_ok_setWidth b (by decide)).trans (BitVec.setWidth_eq_append (by decide))

/-- The response word of RR_PLEN, the one register of 9 bits. -/
theorem responseWord_ok_plen (p : BitVec 9) : responseWord .ok (p.setWidth 16) = 0#23 ++ p :=
  (responseWord_ok_setWidth p (by decide)).trans (BitVec.setWidth_eq_append (by decide))

theorem responseWord_range : responseWord .range 0#16 = 0x04000000#32 := by decide

theorem respondRead_some (s : State) {v : Half} {w : Word} (hw : responseWord .ok v = w) :
    respondRead s (some v) = .next { s with resp := some w } := by
  rw [← hw]
  exact respond_eq s .ok v

theorem respondRead_none (s : State) :
    respondRead s none = .next { s with resp := some 0x04000000#32 } := by
  rw [← responseWord_range]
  exact raise_eq s .range

/-- RD_REG of a selector whose register holds a byte (R28, R201). -/
theorem exec_rdReg_of_byte {s : State} {sel b : Byte} (h : readReg s.blk sel = some (b.setWidth 16)) :
    exec (.rdReg sel) s = .next { s with resp := some (0x000000#24 ++ b) } :=
  (congrArg (respondRead s) h).trans (respondRead_some s (responseWord_ok_byte b))

/-- The selectors past 0x12 are reserved (R28). -/
theorem readReg_of_reserved (b : Block) {sel : Byte} (h : 0x12 < sel.toNat) : readReg b sel = none := by
  unfold readReg
  split
  case h_20 => rfl
  all_goals omega

/-- What each register holds after reset (R39, R201). -/
theorem readReg_reset : ∀ sel : Byte, sel.toNat ≤ 0x12 →
    readReg State.reset.blk sel = some (if sel = 0x01#8 then 0xFFFF#16
      else if sel = 0x05#8 ∨ sel = 0x10#8 then 0x00FF#16 else 0x0000#16) := by decide

/-- A read of a buffer window below its length answers the byte (R202 to R205). -/
theorem respondRead_readBuffer_below (s : State) {buf : List Byte} {i : Half} (h : i.toNat < buf.length) :
    respondRead s (readBuffer buf i) = .next { s with resp := some (0x000000#24 ++ buf[i.toNat]) } := by
  rw [readBuffer_below h]
  exact respondRead_some s (responseWord_ok_byte _)

/-- A read of a buffer window at or past its length answers RANGE (R202 to R205). -/
theorem respondRead_readBuffer_past (s : State) {buf : List Byte} {i : Half} (h : buf.length ≤ i.toNat) :
    respondRead s (readBuffer buf i) = .next { s with resp := some 0x04000000#32 } := by
  rw [readBuffer_past h]
  exact respondRead_none s

/-- MT_FRAME is empty until MTX_END succeeds (R33, R40). -/
theorem Mtx.Inv.frame_length_of_not_done {u : Mtx} (hi : u.Inv) (h : u.st ≠ .done) : u.frame.length = 0 := by
  cases hs : u.st with
  | idle => exact (hi.idle hs).2
  | opened => exact hi.opened hs
  | done => exact absurd hs h

end Sys2Proof.Machine
end

section
/-! The readback and control statements (45_readback R200 to R206). -/

namespace Sys2Proof.Proofs
open Sys2Proof.Machine

/-- Settles O41: the word's bits [23:0] are all must-be-zero, and the execution is `respond` in the state as it is. -/
theorem nopResult : Obligations.NopResult :=
  ⟨fun w hop => decode_of_op (m := .nop) (by decide) hop (low24_zero w), fun s => respond_eq s .ok 0#16⟩

/-- Settles O42: each selector's row of the register map with its datum zero-extended, the reserved selectors, and the map in the reset state. -/
theorem registerReadResult : Obligations.RegisterReadResult := by
  refine ⟨fun w hop => ?_, fun s => ?_, fun s sel h => ?_, fun sel h => ?_⟩
  · rw [← dField_byte w 0 (by decide)]
    exact decode_of_op (m := .rdReg) (by decide) hop (mid16_zero w)
  · exact ⟨exec_rdReg_of_some rfl, exec_rdReg_of_some rfl, exec_rdReg_of_some rfl, exec_rdReg_of_some rfl,
      exec_rdReg_of_byte rfl, exec_rdReg_of_byte rfl, respondRead_some s (responseWord_ok_plen s.blk.rrx.plen),
      exec_rdReg_of_some rfl, exec_rdReg_of_some rfl, exec_rdReg_of_some rfl, exec_rdReg_of_byte rfl,
      exec_rdReg_of_some rfl, exec_rdReg_of_some rfl, exec_rdReg_of_some rfl, exec_rdReg_of_some rfl,
      exec_rdReg_of_byte rfl, exec_rdReg_of_byte rfl, exec_rdReg_of_some rfl, exec_rdReg_of_some rfl⟩
  · exact (congrArg (respondRead s) (readReg_of_reserved s.blk h)).trans (respondRead_none s)
  · rw [exec_rdReg_of_some (s := .reset) (readReg_reset sel h)]
    split_ifs <;> rfl

/-- Settles O44: the must-be-zero bits are `U`; the four windows are read by one operation; the invariant keeps a window that cannot be read empty. -/
theorem bufferReadResult : Obligations.BufferReadResult := by
  refine ⟨fun _ hop => decode_of_op (m := .rdRtxb) (by decide) hop Iff.rfl,
    fun _ hop => decode_of_op (m := .rdRrxb) (by decide) hop Iff.rfl,
    fun _ hop => decode_of_op (m := .rdMtxb) (by decide) hop Iff.rfl,
    fun _ hop => decode_of_op (m := .rdMrxb) (by decide) hop Iff.rfl,
    fun s i c buf hread => ?_, fun s i hi hidle => ?_, fun s i hi hdone => ?_⟩
  · have hexec : exec c s = respondRead s (readBuffer buf i) := by
      obtain h | h | h | h := hread <;> obtain ⟨rfl, rfl⟩ := Prod.mk.inj h <;> rfl
    rw [hexec]
    exact ⟨respondRead_readBuffer_below s, respondRead_readBuffer_past s⟩
  · have hempty := hi.blk.rtx.idle hidle
    exact respondRead_readBuffer_past s (by omega)
  · have hempty := hi.blk.mtx.frame_length_of_not_done hdone
    exact respondRead_readBuffer_past s (by omega)

end Sys2Proof.Proofs
end

section
/-! SUPPORT. Which host inputs are answered and what they leave at the port (60_exceptions R304, R313): a word that is served and an orderly list that is served step by step. -/

namespace Sys2Proof.Machine

/-- Every word is answered, whether or not it is a command, and takes nothing from the port (R73, R304). -/
theorem serveWord_answers (w : Word) (s : State) :
    ∃ t x, serveWord w s = .next t ∧ t.pending = s.pending ∧ t.resp = some x := by
  cases hd : decode w with
  | none => exact ⟨_, _, serveWord_of_decode_none hd s, rfl, rfl⟩
  | some i =>
    obtain ⟨t, ht⟩ := exec_total i s
    obtain ⟨_, _, _, _, hanswer⟩ := exec_writes ht
    exact ⟨t, _, (serveWord_of_decode_some hd s).trans ht, exec_keeps_pending ht, congrArg State.resp hanswer⟩

/-- An input with a meaning is served, and the inputs after it stay in place (R400, log entry 3). -/
theorem serveInput_of_hasMeaning {p : HostInput} (hp : p.hasMeaning = true) (s : State) :
    ∃ t, serveInput p s = .next t ∧ t.pending = s.pending := by
  cases p with
  | command w =>
    obtain ⟨t, _, ht, hpending, _⟩ := serveWord_answers w s
    exact ⟨t, ht, hpending⟩
  | reset => exact ⟨_, rfl, rfl⟩
  | commandDuringReset w => cases hp
  | concurrentCommands v w others => cases hp

/-- With an orderly list, a step is a next state and takes one input from the port, if there is one. -/
theorem step_of_orderly {s : State} (ho : s.orderly = true) :
    ∃ t, step s = .next t ∧ t.pending = s.pending.drop 1 := by
  cases hp : s.pending with
  | nil => exact ⟨s, step_of_pending_nil hp, hp⟩
  | cons p rest =>
    have hmeaning : p.hasMeaning = true := List.all_eq_true.mp ho p (by simp [hp])
    obtain ⟨t, ht, hrest⟩ := serveInput_of_hasMeaning hmeaning { s with pending := rest }
    exact ⟨t, (step_of_pending_cons hp).trans ht, hrest⟩

/-- What is left of an orderly list is orderly. -/
theorem State.orderly_of_drop {s t : State} {n : Nat} (ho : s.orderly = true)
    (ht : t.pending = s.pending.drop n) : t.orderly = true :=
  List.all_eq_true.mpr fun p hp => List.all_eq_true.mp ho p (List.mem_of_mem_drop (ht ▸ hp))

/-- A run from an orderly list is never stopped and takes one input a step (R304). -/
theorem run_of_orderly {s : State} (k : Nat) (ho : s.orderly = true) :
    ∃ t, Host.Core.run core k s = .next t ∧ t.pending = s.pending.drop k := by
  induction k generalizing s with
  | zero => exact ⟨s, rfl, rfl⟩
  | succ k ih =>
    obtain ⟨s₁, h₁, hp₁⟩ := step_of_orderly ho
    obtain ⟨t, hrun, hp⟩ := ih (State.orderly_of_drop ho hp₁)
    have hstep : core.step s = .next s₁ := h₁
    refine ⟨t, ?_, ?_⟩
    · simp only [Host.Core.run, hstep]
      exact hrun
    · rw [hp, hp₁, List.drop_drop, Nat.add_comm]

end Sys2Proof.Machine
end

section
/-! SUPPORT. What a refused command answers and leaves (60_exceptions R301), said once for all words. -/

namespace Sys2Proof.Machine

/-- The codes of R301: ILLEGAL, BAD_STATE and RANGE. -/
abbrev IsRefusalCode (c : Byte) : Prop := c = 0x01#8 ∨ c = 0x02#8 ∨ c = 0x04#8

/-- The value a refused word answers (R301), by the command it decodes to: MR_ST for MRX_BYTE's BAD_STATE, else 0. -/
def refusalValue : Option Instr → ResultCode → State → Half
  | some (.mrxByte _), .badState, s => s.blk.mrx.st.code
  | _, _, _ => 0#16

theorem refusalValue_of_not_mrxByte {d : Option Instr} (hd : ∀ b, d ≠ some (.mrxByte b)) (r : ResultCode)
    (s : State) : refusalValue d r s = 0#16 := by
  unfold refusalValue
  split
  · exact absurd rfl (hd _)
  · rfl

theorem refusalValue_of_not_badState {r : ResultCode} (hr : r ≠ .badState) (d : Option Instr) (s : State) :
    refusalValue d r s = 0#16 := by
  unfold refusalValue
  split
  · exact absurd rfl hr
  · rfl

/-- How a word that decodes to `d` takes `s` to `t`: refused, with only the response written, or answered with another result. -/
inductive RefusedOrAnswered (d : Option Instr) (s t : State) : Prop
  | refused (r : ResultCode) (ht : t = answered s r (refusalValue d r s))
  | other {w : State} {r : ResultCode} {v : Half} (ht : t = answered w r v) (hr : ¬ IsRefusalCode r.code)

theorem respondRead_refused_or_answered {d : Option Instr} {s t : State} {o : Option Half}
    (hd : ∀ b, d ≠ some (.mrxByte b)) (h : respondRead s o = .next t) : RefusedOrAnswered d s t := by
  obtain ⟨v, -, ht⟩ | ⟨-, ht⟩ := respondRead_next h
  · exact .other ht (by decide)
  · exact .refused .range (by rw [refusalValue_of_not_mrxByte hd]; exact ht)

theorem execRrxEnd_refused_or_answered {s t : State} (h : execRrxEnd s = .next t) :
    RefusedOrAnswered (some .rrxEnd) s t := by
  obtain ⟨-, ht⟩ | ⟨-, ⟨-, ht⟩ | ⟨-, -, ht⟩ | ⟨-, -, -, ht⟩ | ⟨-, -, hc⟩⟩ := execRrxEnd_cases h
  · exact .refused .badState ht
  · exact .other ht (by decide)
  · exact .other ht (by decide)
  · exact .other ht (by decide)
  · obtain ⟨-, ht⟩ | ⟨-, -, ht⟩ | ⟨-, -, ht⟩ := checkFrame_cases hc <;> exact .other ht (by decide)

theorem execMrxByte_refused_or_answered {s t : State} {b : Byte} (h : execMrxByte b s = .next t) :
    RefusedOrAnswered (some (.mrxByte b)) s t := by
  obtain ⟨-, -, ht⟩ | ⟨-, -, ht⟩ | ⟨-, -, hc⟩ | ⟨-, -, ht⟩ | ⟨-, -, ht⟩ := execMrxByte_cases h
  · exact .refused .badState ht
  · exact .other ht (by decide)
  · obtain ⟨-, ht⟩ | ⟨-, -, ht⟩ | ⟨-, -, -, ht⟩ := checkHeader_cases hc <;> exact .other ht (by decide)
  · exact .other ht (by decide)
  · exact .other ht (by decide)

/-- A command is refused with the block as it was, or answered with a result other than R301's. -/
theorem exec_refused_or_answered {s t : State} {i : Instr} (h : exec i s = .next t) :
    RefusedOrAnswered (some i) s t := by
  cases i with
  | nop | crcInit | crcByte | rtxBegin | rrxBegin | mtxBegin | mrxBegin =>
    exact .other (respond_next h) (by decide)
  | rtxByte =>
    obtain ⟨-, ht⟩ | ⟨-, -, ht⟩ | ⟨-, -, ht⟩ := execRtxByte_cases h
    · exact .refused .badState ht
    · exact .other ht (by decide)
    · exact .other ht (by decide)
  | rtxEnd =>
    obtain ⟨-, ht⟩ | ⟨-, -, ht⟩ | ⟨-, -, ht⟩ := execRtxEnd_cases h
    · exact .refused .badState ht
    · exact .other ht (by decide)
    · exact .other ht (by decide)
  | rrxByte =>
    obtain ⟨-, ht⟩ | ⟨-, -, ht⟩ | ⟨-, -, ht⟩ := execRrxByte_cases h
    · exact .refused .badState ht
    · exact .other ht (by decide)
    · exact .other ht (by decide)
  | rrxEnd => exact execRrxEnd_refused_or_answered h
  | mtxByte =>
    obtain ⟨-, ht⟩ | ⟨-, -, ht⟩ | ⟨-, -, ht⟩ := execMtxByte_cases h
    · exact .refused .badState ht
    · exact .other ht (by decide)
    · exact .other ht (by decide)
  | mtxEnd =>
    obtain ⟨-, ht⟩ | ⟨-, -, ht⟩ | ⟨-, -, ht⟩ := execMtxEnd_cases h
    · exact .refused .badState ht
    · exact .other ht (by decide)
    · exact .other ht (by decide)
  | mrxByte => exact execMrxByte_refused_or_answered h
  | rdReg | rdRtxb | rdRrxb | rdMtxb | rdMrxb => exact respondRead_refused_or_answered nofun h

/-- A word that is no command is refused with ILLEGAL; a command as its rule says. -/
theorem serveWord_refused_or_answered {s t : State} {w : Word} (h : serveWord w s = .next t) :
    RefusedOrAnswered (decode w) s t := by
  cases hd : decode w with
  | none =>
    rw [serveWord_of_decode_none hd] at h
    exact .refused .illegal (raise_next h)
  | some i =>
    rw [serveWord_of_decode_some hd] at h
    exact exec_refused_or_answered h

/-- A response with a code of R301 shows that the word was refused. -/
theorem RefusedOrAnswered.of_code {d : Option Instr} {s t : State} {v : Word} (h : RefusedOrAnswered d s t)
    (hv : t.resp = some v) (hc : IsRefusalCode (v.extractLsb' 24 8)) :
    ∃ r, t = answered s r (refusalValue d r s) ∧ v = responseWord r (refusalValue d r s) := by
  cases h with
  | refused r ht => exact ⟨r, ht, Option.some.inj (hv.symm.trans (congrArg State.resp ht))⟩
  | @other w r x ht hr =>
    obtain rfl : v = responseWord r x := Option.some.inj (hv.symm.trans (congrArg State.resp ht))
    rw [responseWord_result] at hc
    exact absurd hc hr

end Sys2Proof.Machine
end

section
/-! SUPPORT. RRX_END's results in OPEN and the reply the host's controller makes of them (42_rtu_deframer R146, 60_exceptions R321). -/

namespace Sys2Proof.Machine

/-- In OPEN, RRX_END leaves one of its results other than BAD_STATE in RR_RES (R146). -/
theorem execRrxEnd_res_of_opened {s t : State} (ho : s.blk.rrx.st = .opened) (h : execRrxEnd s = .next t) :
    t.blk.rrx.res ∈ resultsOf .rrxEnd ∧ t.blk.rrx.res ≠ .badState := by
  obtain ⟨hn, -⟩ | ⟨-, ⟨-, rfl⟩ | ⟨-, -, rfl⟩ | ⟨-, -, -, rfl⟩ | ⟨-, -, hc⟩⟩ := execRrxEnd_cases h
  · exact absurd ho hn
  · exact ⟨by simp [resultsOf], nofun⟩
  · exact ⟨by simp [resultsOf], nofun⟩
  · exact ⟨by simp [resultsOf], nofun⟩
  · obtain ⟨-, rfl⟩ | ⟨-, -, rfl⟩ | ⟨-, -, rfl⟩ := checkFrame_cases hc <;> exact ⟨by simp [resultsOf], nofun⟩

/-- The controller's reply to every result of RRX_END but BAD_STATE (R321). -/
theorem rtuReplyPdu_of_result {r : ResultCode} (fc : Byte) (pdu : List Byte) (hr : r ∈ resultsOf .rrxEnd)
    (hn : r ≠ .badState) : rtuReplyPdu fc pdu r = some (if r = .ok then pdu else [fc ||| 0x80#8, 0x0B#8]) := by
  cases r with
  | ok | rtuNoReply | rtuOverrun | rtuShort | rtuAddrMismatch | rtuCrcMismatch => rfl
  | badState => exact absurd rfl hn
  | illegal | overflow | range | empty | mbapBadProtocol | mbapBadLength | none => simp [resultsOf] at hr

end Sys2Proof.Machine
end

section
/-! The statements on exceptions (60_exceptions R301, R304, R313, R321). -/

namespace Sys2Proof.Proofs
open Sys2Proof.Machine

/-- Settles O8: the step serves the head of the port, and simultaneous commands there are refused (D33). -/
theorem simultaneousCommandsAreRefused : Obligations.SimultaneousCommandsAreRefused := by
  intro s v w others rest hpending
  calc step s = serveInput (.concurrentCommands v w others) { s with pending := rest } :=
        step_of_pending_cons hpending
    _ = .refused .concurrentCommands := rfl

/-- Settles O9: by induction on the steps; each serves the next input, which has a meaning, or is idle. -/
theorem anOrderlyHostIsNeverStopped : Obligations.AnOrderlyHostIsNeverStopped := by
  intro s k ho
  obtain ⟨t, hrun, hpending⟩ := run_of_orderly k ho
  exact ⟨t, hrun, State.orderly_of_drop ho hpending, hpending⟩

/-- Settles O12: a response with one of the three codes comes from a refusal, which writes the response word alone. -/
theorem refusedCommandsChangeNothing : Obligations.RefusedCommandsChangeNothing := by
  intro s t w v rest hpending hstep hresp hcode
  have hserve : serveWord w { s with pending := rest } = .next t :=
    (step_of_pending_cons hpending).symm.trans hstep
  obtain ⟨r, ht, rfl⟩ := (serveWord_refused_or_answered hserve).of_code hresp hcode
  rw [responseWord_result, responseWord_value]
  refine ⟨by rw [ht, answered_blk], fun b hd hbad => ?_, fun hother => ?_, fun w' => ?_⟩
  · obtain rfl : r = .badState := code_injective r .badState hbad
    rw [hd, refusalValue]
  · obtain hd | hr := hother
    · exact refusalValue_of_not_mrxByte hd r _
    · exact refusalValue_of_not_badState (fun hbad => hr (congrArg ResultCode.code hbad)) _ _
  · obtain ⟨u, x, hu, -, hx⟩ := serveWord_answers w' { t with pending := rest }
    exact ⟨u, x, (step_of_pending_cons (p := .command w') (rest := rest) rfl).trans hu, hx⟩

/-- Settles O55: in OPEN, RRX_END never leaves BAD_STATE, and every other result of it has a reply. -/
theorem everyReceptionHasAReply : Obligations.EveryReceptionHasAReply := by
  intro s t fc pdu ho h
  obtain ⟨hmem, hne⟩ := execRrxEnd_res_of_opened ho h
  exact rtuReplyPdu_of_result fc pdu hmem hne

end Sys2Proof.Proofs
end

section
/-! SUPPORT. A run of commands taken apart at its first command, and what a property of the state needs to hold at its end (20_memory R60). -/

namespace Sys2Proof.Machine

/-- A run that starts with a command is the command's execution and the run of the rest. -/
theorem execAll_cons_next {s t : State} {i : Instr} {l : List Instr} {log : List Exchange}
    (h : execAll (i :: l) s = .next (t, log)) :
    ∃ s' log', exec i s = .next s' ∧ execAll l s' = .next (t, log') ∧ log = (i, s'.resp) :: log' := by
  obtain ⟨s', hs'⟩ := exec_total i s
  simp only [execAll, hs'] at h
  split at h
  next x hx =>
    obtain ⟨rfl, rfl⟩ := Prod.mk.inj (Host.Outcome.next.inj h)
    exact ⟨s', x.2, hs', hx, rfl⟩
  next => cases h
  next => cases h

/-- Every sequence of commands runs to its end (R304). -/
theorem execAll_total (l : List Instr) (s : State) : ∃ t log, execAll l s = .next (t, log) := by
  obtain ⟨t, log, h, -⟩ := execAll_presented l s
  exact ⟨t, log, h⟩

/-- A property that the command `i` establishes and the other commands of a run keep holds at its end, if `i` is in the run or the property held at its start. -/
theorem execAll_establishes {P : State → Prop} {i : Instr} {l : List Instr} {s t : State} {log : List Exchange}
    (hset : ∀ {s t}, exec i s = .next t → P t)
    (hkeep : ∀ j ∈ l, j ≠ i → ∀ {s t}, exec j s = .next t → P s → P t)
    (hrun : execAll l s = .next (t, log)) (hs : i ∈ l ∨ P s) : P t := by
  induction l generalizing s log with
  | nil =>
    obtain ⟨rfl, -⟩ := Prod.mk.inj (Host.Outcome.next.inj hrun)
    exact hs.resolve_left List.not_mem_nil
  | cons j l ih =>
    obtain ⟨s', log', hj, hl, -⟩ := execAll_cons_next hrun
    refine ih (fun k hk => hkeep k (List.mem_cons_of_mem j hk)) hl ?_
    by_cases hji : j = i
    · exact .inr (hset (hji ▸ hj))
    · obtain hi | hP := hs
      · exact .inl ((List.mem_cons.mp hi).resolve_left (Ne.symm hji))
      · exact .inr (hkeep j List.mem_cons_self hji hj hP)

/-- A sequence of one unit's commands is its own part of that unit. -/
theorem onlyUnit_eq_self {n : UnitName} {l : List Instr} (h : ∀ i ∈ l, unitOf i = n) : onlyUnit n l = l :=
  List.filter_eq_self.mpr fun i hi => decide_eq_true (h i hi)

/-- A sequence of one unit's commands has none of another's. -/
theorem onlyUnit_eq_nil {n m : UnitName} {l : List Instr} (h : ∀ i ∈ l, unitOf i = m) (hm : m ≠ n) :
    onlyUnit n l = [] :=
  List.filter_eq_nil_iff.mpr fun i hi => by simpa [h i hi] using hm

end Sys2Proof.Machine
end

section
/-! SUPPORT. Two machines that differ at most in the CRC register are answered alike by every command that does not show it (40_crc R104, 70_reset_and_hazards R420). -/

namespace Sys2Proof.Machine

theorem SameButCrc.withCrc {s s' : State} (h : SameButCrc s s') (c c' : Half) :
    SameButCrc (s.withCrc c) (s'.withCrc c') := ⟨h.rtx, h.rrx, h.mtx, h.mrx, h.pending⟩

theorem SameButCrc.withRtx {s s' : State} (h : SameButCrc s s') (u : Rtx) :
    SameButCrc (s.withRtx u) (s'.withRtx u) := ⟨rfl, h.rrx, h.mtx, h.mrx, h.pending⟩

theorem SameButCrc.withRrx {s s' : State} (h : SameButCrc s s') (u : Rrx) :
    SameButCrc (s.withRrx u) (s'.withRrx u) := ⟨h.rtx, rfl, h.mtx, h.mrx, h.pending⟩

theorem SameButCrc.withMtx {s s' : State} (h : SameButCrc s s') (u : Mtx) :
    SameButCrc (s.withMtx u) (s'.withMtx u) := ⟨h.rtx, h.rrx, rfl, h.mrx, h.pending⟩

theorem SameButCrc.withMrx {s s' : State} (h : SameButCrc s s') (u : Mrx) :
    SameButCrc (s.withMrx u) (s'.withMrx u) := ⟨h.rtx, h.rrx, h.mtx, rfl, h.pending⟩

/-- Both outcomes are next states with one response, and they differ at most in the CRC register. -/
def AnswerAlike (o o' : Host.Outcome State Fault Refusal) : Prop :=
  ∃ t t', o = .next t ∧ o' = .next t' ∧ t.resp = t'.resp ∧ SameButCrc t t'

theorem AnswerAlike.of_next {o o' : Host.Outcome State Fault Refusal} {t t' : State} (h : AnswerAlike o o')
    (ht : o = .next t) (ht' : o' = .next t') : t.resp = t'.resp ∧ SameButCrc t t' := by
  obtain ⟨_, _, rfl, rfl, hboth⟩ := h
  cases ht
  cases ht'
  exact hboth

theorem SameButCrc.respond_alike {s s' : State} (h : SameButCrc s s') (r : ResultCode) (v : Half) :
    AnswerAlike (respond s r v) (respond s' r v) :=
  ⟨_, _, rfl, rfl, rfl, ⟨h.rtx, h.rrx, h.mtx, h.mrx, h.pending⟩⟩

theorem SameButCrc.respondRead_alike {s s' : State} (h : SameButCrc s s') {o o' : Option Half} (ho : o = o') :
    AnswerAlike (respondRead s o) (respondRead s' o') := by
  obtain rfl := ho
  cases o with
  | none => exact h.respond_alike .range 0#16
  | some v => exact h.respond_alike .ok v

/-- No register but selector 0x01 shows the CRC register (R22, R28). -/
theorem SameButCrc.readReg_eq {s s' : State} (h : SameButCrc s s') {sel : Byte} (hsel : sel ≠ 0x01#8) :
    readReg s.blk sel = readReg s'.blk sel := by
  have hone : sel.toNat ≠ 1 := fun hn => hsel (BitVec.eq_of_toNat_eq hn)
  unfold readReg
  split
  case h_2 hn => exact absurd hn hone
  all_goals simp only [statusWord, h.rtx, h.rrx, h.mtx, h.mrx]

theorem SameButCrc.execRtxByte_alike {s s' : State} (h : SameButCrc s s') (b : Byte) :
    AnswerAlike (execRtxByte b s) (execRtxByte b s') := by
  unfold execRtxByte abortRtx
  rw [h.rtx]
  split_ifs
  · exact h.respond_alike _ _
  · exact (h.withRtx _).respond_alike _ _
  · exact (h.withRtx _).respond_alike _ _

/-- RTX_END computes the CRC of its buffer afresh (R122). -/
theorem SameButCrc.execRtxEnd_alike {s s' : State} (h : SameButCrc s s') :
    AnswerAlike (execRtxEnd s) (execRtxEnd s') := by
  unfold execRtxEnd abortRtx
  rw [h.rtx]
  split_ifs
  · exact h.respond_alike _ _
  · exact (h.withRtx _).respond_alike _ _
  · exact ((h.withCrc _ _).withRtx _).respond_alike _ _

theorem SameButCrc.execRrxByte_alike {s s' : State} (h : SameButCrc s s') (b : Byte) :
    AnswerAlike (execRrxByte b s) (execRrxByte b s') := by
  unfold execRrxByte
  rw [h.rrx]
  split_ifs
  · exact h.respond_alike _ _
  · exact (h.withRrx _).respond_alike _ _
  · exact (h.withRrx _).respond_alike _ _

/-- RRX_END's content checks compute the CRC of the buffer afresh (R146). -/
theorem SameButCrc.checkFrame_alike {s s' : State} (h : SameButCrc s s') :
    AnswerAlike (checkFrame s) (checkFrame s') := by
  unfold checkFrame
  rw [h.rrx]
  dsimp only
  split_ifs <;> exact ((h.withCrc _ _).withRrx _).respond_alike _ _

theorem SameButCrc.execRrxEnd_alike {s s' : State} (h : SameButCrc s s') :
    AnswerAlike (execRrxEnd s) (execRrxEnd s') := by
  unfold execRrxEnd
  rw [h.rrx]
  split_ifs
  · exact h.respond_alike _ _
  · exact (h.withRrx _).respond_alike _ _
  · exact (h.withRrx _).respond_alike _ _
  · exact (h.withRrx _).respond_alike _ _
  · exact h.checkFrame_alike

theorem SameButCrc.execMtxByte_alike {s s' : State} (h : SameButCrc s s') (b : Byte) :
    AnswerAlike (execMtxByte b s) (execMtxByte b s') := by
  unfold execMtxByte
  rw [h.mtx]
  split_ifs
  · exact h.respond_alike _ _
  · exact (h.withMtx _).respond_alike _ _
  · exact (h.withMtx _).respond_alike _ _

theorem SameButCrc.execMtxEnd_alike {s s' : State} (h : SameButCrc s s') :
    AnswerAlike (execMtxEnd s) (execMtxEnd s') := by
  unfold execMtxEnd
  rw [h.mtx]
  split_ifs
  · exact h.respond_alike _ _
  · exact (h.withMtx _).respond_alike _ _
  · exact (h.withMtx _).respond_alike _ _

theorem SameButCrc.execMrxByte_alike {s s' : State} (h : SameButCrc s s') (b : Byte) :
    AnswerAlike (execMrxByte b s) (execMrxByte b s') := by
  have hanswer : ∀ u r, AnswerAlike (answerMrx s u r) (answerMrx s' u r) :=
    fun u r => (h.withMrx u).respond_alike r _
  unfold execMrxByte mrxHeaderByte mrxPduByte checkHeader
  rw [h.mrx]
  dsimp only
  split
  · split_ifs <;> exact hanswer _ _
  · split_ifs <;> exact hanswer _ _
  all_goals exact h.respond_alike _ _

/-- A command that does not show the CRC register is answered alike whatever the register holds (R420). -/
theorem SameButCrc.exec_alike {s s' : State} (h : SameButCrc s s') {i : Instr} (hi : hidesCrc i = true) :
    AnswerAlike (exec i s) (exec i s') := by
  cases i with
  | nop => exact h.respond_alike _ _
  | crcInit => exact (h.withCrc _ _).respond_alike _ _
  | crcByte => cases hi
  | rtxBegin => exact (h.withRtx _).respond_alike _ _
  | rtxByte b => exact h.execRtxByte_alike b
  | rtxEnd => exact h.execRtxEnd_alike
  | rrxBegin => exact (h.withRrx _).respond_alike _ _
  | rrxByte b => exact h.execRrxByte_alike b
  | rrxEnd => exact h.execRrxEnd_alike
  | mtxBegin => exact (h.withMtx _).respond_alike _ _
  | mtxByte b => exact h.execMtxByte_alike b
  | mtxEnd => exact h.execMtxEnd_alike
  | mrxBegin => exact (h.withMrx _).respond_alike _ _
  | mrxByte b => exact h.execMrxByte_alike b
  | rdReg sel => exact h.respondRead_alike (h.readReg_eq (by simpa [hidesCrc] using hi))
  | rdRtxb k => exact h.respondRead_alike (congrArg (readBuffer ·.buf k) h.rtx)
  | rdRrxb k => exact h.respondRead_alike (congrArg (readBuffer ·.buf k) h.rrx)
  | rdMtxb k => exact h.respondRead_alike (congrArg (readBuffer ·.frame k) h.mtx)
  | rdMrxb k => exact h.respondRead_alike (congrArg (readBuffer ·.pdu k) h.mrx)

/-- A run of such commands is answered alike whatever the register holds at its start. -/
theorem SameButCrc.execAll_alike {s s' t t' : State} {l : List Instr} {log log' : List Exchange} (h : SameButCrc s s')
    (hl : ∀ i ∈ l, hidesCrc i = true) (hrun : execAll l s = .next (t, log))
    (hrun' : execAll l s' = .next (t', log')) : log = log' ∧ SameButCrc t t' := by
  induction l generalizing s s' log log' with
  | nil =>
    obtain ⟨rfl, rfl⟩ := Prod.mk.inj (Host.Outcome.next.inj hrun)
    obtain ⟨rfl, rfl⟩ := Prod.mk.inj (Host.Outcome.next.inj hrun')
    exact ⟨rfl, h⟩
  | cons i l ih =>
    obtain ⟨s₁, log₁, h₁, hl₁, rfl⟩ := execAll_cons_next hrun
    obtain ⟨s₂, log₂, h₂, hl₂, rfl⟩ := execAll_cons_next hrun'
    obtain ⟨hresp, hsame⟩ := (h.exec_alike (hl i List.mem_cons_self)).of_next h₁ h₂
    obtain ⟨rfl, hend⟩ := ih hsame (fun j hj => hl j (List.mem_cons_of_mem i hj)) hl₁ hl₂
    exact ⟨by rw [hresp], hend⟩

end Sys2Proof.Machine
end

section
/-! SUPPORT. Which commands return a unit to IDLE (70_reset_and_hazards R401). -/

namespace Sys2Proof.Machine

/-- The RTX unit returns to IDLE only by giving a frame up: RTX_BYTE with OVERFLOW or RTX_END with EMPTY. -/
theorem exec_rtx_returns_idle {s t : State} {i : Instr} (h : exec i s = .next t) (hs : s.blk.rtx.st ≠ .idle)
    (ht : t.blk.rtx.st = .idle) :
    (∃ b, i = .rtxByte b ∧ t.resp = some 0x03000000#32) ∨ (i = .rtxEnd ∧ t.resp = some 0x05000000#32) := by
  have hu : unitOf i = .rtx := by_contra fun hn =>
    hs ((congrArg Rtx.st (exec_keeps_unit (n := .rtx) h hn)).symm.trans ht)
  obtain ⟨u, rfl⟩ | ⟨b, rfl⟩ | rfl := unitOf_eq_rtx hu
  · obtain rfl := execRtxBegin_next h
    cases ht
  · obtain ⟨-, rfl⟩ | ⟨-, -, rfl⟩ | ⟨-, -, rfl⟩ := execRtxByte_cases h
    · exact absurd ht hs
    · exact .inl ⟨b, rfl, rfl⟩
    · cases ht
  · obtain ⟨-, rfl⟩ | ⟨-, -, rfl⟩ | ⟨-, -, rfl⟩ := execRtxEnd_cases h
    · exact absurd ht hs
    · exact .inr ⟨rfl, rfl⟩
    · cases ht

/-- The MTX unit returns to IDLE only by giving a frame up: MTX_BYTE with OVERFLOW or MTX_END with EMPTY. -/
theorem exec_mtx_returns_idle {s t : State} {i : Instr} (h : exec i s = .next t) (hs : s.blk.mtx.st ≠ .idle)
    (ht : t.blk.mtx.st = .idle) :
    (∃ b, i = .mtxByte b ∧ t.resp = some 0x03000000#32) ∨ (i = .mtxEnd ∧ t.resp = some 0x05000000#32) := by
  have hu : unitOf i = .mtx := by_contra fun hn =>
    hs ((congrArg Mtx.st (exec_keeps_unit (n := .mtx) h hn)).symm.trans ht)
  obtain ⟨u, d, rfl⟩ | ⟨b, rfl⟩ | rfl := unitOf_eq_mtx hu
  · obtain rfl := execMtxBegin_next h
    cases ht
  · obtain ⟨-, rfl⟩ | ⟨-, -, rfl⟩ | ⟨-, -, rfl⟩ := execMtxByte_cases h
    · exact absurd ht hs
    · exact .inl ⟨b, rfl, rfl⟩
    · exact absurd ht hs
  · obtain ⟨-, rfl⟩ | ⟨-, -, rfl⟩ | ⟨-, -, rfl⟩ := execMtxEnd_cases h
    · exact absurd ht hs
    · exact .inr ⟨rfl, rfl⟩
    · cases ht

/-- RRX_END leaves the unit as it was or DONE (R146). -/
theorem execRrxEnd_st {s t : State} (h : execRrxEnd s = .next t) :
    t.blk.rrx.st = s.blk.rrx.st ∨ t.blk.rrx.st = .done := by
  obtain ⟨-, rfl⟩ | ⟨-, ⟨-, rfl⟩ | ⟨-, -, rfl⟩ | ⟨-, -, -, rfl⟩ | ⟨-, -, hc⟩⟩ := execRrxEnd_cases h
  · exact .inl rfl
  · exact .inr rfl
  · exact .inr rfl
  · exact .inr rfl
  · obtain ⟨-, rfl⟩ | ⟨-, -, rfl⟩ | ⟨-, -, rfl⟩ := checkFrame_cases hc <;> exact .inr rfl

/-- No command returns the RRX unit to IDLE. -/
theorem exec_rrx_stays_not_idle {s t : State} {i : Instr} (h : exec i s = .next t)
    (hs : s.blk.rrx.st ≠ .idle) : t.blk.rrx.st ≠ .idle := by
  by_cases hu : unitOf i = .rrx
  · obtain ⟨u, rfl⟩ | ⟨b, rfl⟩ | rfl := unitOf_eq_rrx hu
    · rw [execRrxBegin_next h]
      nofun
    · obtain ⟨-, rfl⟩ | ⟨-, -, rfl⟩ | ⟨-, -, rfl⟩ := execRrxByte_cases h <;> exact hs
    · obtain hk | hd := execRrxEnd_st h
      · rwa [hk]
      · rw [hd]
        nofun
  · have hk : t.blk.rrx = s.blk.rrx := exec_keeps_unit (n := .rrx) h hu
    rwa [hk]

/-- No command returns the MRX unit to IDLE. -/
theorem exec_mrx_stays_not_idle {s t : State} {i : Instr} (h : exec i s = .next t)
    (hs : s.blk.mrx.st ≠ .idle) : t.blk.mrx.st ≠ .idle := by
  by_cases hu : unitOf i = .mrx
  · obtain rfl | ⟨b, rfl⟩ := unitOf_eq_mrx hu
    · rw [execMrxBegin_next h]
      nofun
    · obtain ⟨-, -, rfl⟩ | ⟨-, -, rfl⟩ | ⟨-, -, hc⟩ | ⟨-, -, rfl⟩ | ⟨-, -, rfl⟩ := execMrxByte_cases h
      · exact hs
      · exact hs
      · obtain ⟨-, rfl⟩ | ⟨-, -, rfl⟩ | ⟨-, -, -, rfl⟩ := checkHeader_cases hc <;> nofun
      · exact hs
      · nofun
  · have hk : t.blk.mrx = s.blk.mrx := exec_keeps_unit (n := .mrx) h hu
    rwa [hk]

end Sys2Proof.Machine
end

section
/-! SUPPORT. CRC_INIT and the four BEGINs: each writes one element or unit, and no other of the five writes it again (70_reset_and_hazards R401). -/

namespace Sys2Proof.Machine

/-- CRC_INIT and the four BEGIN commands. -/
def beginCommands (u₁ u₂ u₃ : Byte) (d : Half) : List Instr :=
  [.crcInit, .rtxBegin u₁, .rrxBegin u₂, .mtxBegin u₃ d, .mrxBegin]

/-- No two of the five drive one unit. -/
theorem beginCommands_units_distinct {u₁ u₂ u₃ : Byte} {d : Half} {i j : Instr}
    (hi : i ∈ beginCommands u₁ u₂ u₃ d) (hj : j ∈ beginCommands u₁ u₂ u₃ d) (hne : j ≠ i) :
    unitOf j ≠ unitOf i := by
  have hnodup : ((beginCommands u₁ u₂ u₃ d).map unitOf).Nodup := by simp [beginCommands, unitOf]
  exact fun hu => hne (List.inj_on_of_nodup_map hnodup hj hi hu)

/-- Of the five, only CRC_INIT writes the CRC register (R22). -/
theorem exec_keeps_crc_of_beginCommands {u₁ u₂ u₃ : Byte} {d : Half} {j : Instr} {s t : State}
    (hj : j ∈ beginCommands u₁ u₂ u₃ d) (hne : j ≠ .crcInit) (h : exec j s = .next t) :
    t.blk.crc = s.blk.crc := by
  have hfeeds : keepsCrc j = true ∧ crcBytes [j] = [] := by
    simp only [beginCommands, List.mem_cons, List.not_mem_nil, or_false] at hj
    obtain rfl | rfl | rfl | rfl | rfl := hj
    · exact absurd rfl hne
    all_goals exact ⟨rfl, rfl⟩
  rw [exec_crc_of_keepsCrc hfeeds.1 h, hfeeds.2]
  rfl

/-- What a framing unit's BEGIN leaves in its unit stands at the end of a run of the five. -/
theorem execAll_begin_stands {u₁ u₂ u₃ : Byte} {d : Half} {l : List Instr} {i : Instr} {s t : State}
    {log : List Exchange} {P : State → Prop} (hl : l.Perm (beginCommands u₁ u₂ u₃ d))
    (hi : i ∈ beginCommands u₁ u₂ u₃ d) (hset : ∀ {s t}, exec i s = .next t → P t)
    (hunit : ∀ {s t}, UnitKept s t (unitOf i) → P s → P t) (hrun : execAll l s = .next (t, log)) : P t :=
  execAll_establishes hset
    (fun _ hj hne _ _ h => hunit (exec_keeps_unit h (beginCommands_units_distinct hi (hl.mem_iff.mp hj) hne)))
    hrun (.inl (hl.mem_iff.mpr hi))

/-- CRC_INIT's value stands at the end of a run of the five. -/
theorem execAll_crcInit_stands {u₁ u₂ u₃ : Byte} {d : Half} {l : List Instr} {s t : State}
    {log : List Exchange} (hl : l.Perm (beginCommands u₁ u₂ u₃ d)) (hrun : execAll l s = .next (t, log)) :
    t.blk.crc = Config.crcInit :=
  execAll_establishes (P := fun s => s.blk.crc = Config.crcInit) (i := .crcInit)
    (fun h => by rw [respond_next h]; rfl)
    (fun _ hj hne _ _ h => (exec_keeps_crc_of_beginCommands (hl.mem_iff.mp hj) hne h).trans)
    hrun (.inl (hl.mem_iff.mpr List.mem_cons_self))

end Sys2Proof.Machine
end

section
/-! SUPPORT. A unit that refuses its commands goes on refusing them, whatever the other units do (70_reset_and_hazards R402, R422, R423). -/

namespace Sys2Proof.Machine

/-- The command `i` finds the unit `n` as it is in `s` and is answered `w`, with the unit left as it was. -/
def RefusedAs (n : UnitName) (w : Word) (s : State) (i : Instr) : Prop :=
  ∀ s₁ t₁, UnitKept s s₁ n → exec i s₁ = .next t₁ → UnitKept s₁ t₁ n ∧ t₁.resp = some w

/-- If each of a unit's commands in a run would be refused as things stand, all of them are refused and the unit is as it was. -/
theorem execAll_of_refused {n : UnitName} {w : Word} {s t : State} {l : List Instr} {log : List Exchange}
    (href : ∀ i ∈ l, unitOf i = n → RefusedAs n w s i) (hrun : execAll l s = .next (t, log)) :
    UnitKept s t n ∧ ∀ r ∈ responsesOf n log, r = some w := by
  induction l generalizing s log with
  | nil =>
    obtain ⟨rfl, rfl⟩ := Prod.mk.inj (Host.Outcome.next.inj hrun)
    exact ⟨.refl s n, nofun⟩
  | cons i l ih =>
    obtain ⟨s', log', hs', hl, rfl⟩ := execAll_cons_next hrun
    have hrest : UnitKept s s' n → UnitKept s' t n ∧ ∀ r ∈ responsesOf n log', r = some w := fun hk =>
      ih (fun j hj hu s₁ t₁ hk₁ => href j (List.mem_cons_of_mem i hj) hu s₁ t₁ (hk.trans hk₁)) hl
    by_cases hi : unitOf i = n
    · obtain ⟨hk, hresp⟩ := href i List.mem_cons_self hi s s' (.refl s n) hs'
      obtain ⟨hk', hlog⟩ := hrest hk
      rw [responsesOf_cons_own hi]
      exact ⟨hk.trans hk', List.forall_mem_cons.mpr ⟨hresp, hlog⟩⟩
    · have hk := exec_keeps_unit hs' hi
      obtain ⟨hk', hlog⟩ := hrest hk
      rw [responsesOf_cons_other hi]
      exact ⟨hk.trans hk', hlog⟩

/-- A command that is answered with nothing but the response word written is refused as said. -/
theorem RefusedAs.intro {n : UnitName} {w : Word} {s : State} {i : Instr}
    (h : ∀ s₁, UnitKept s s₁ n → exec i s₁ = .next { s₁ with resp := some w }) : RefusedAs n w s i := by
  intro s₁ t₁ hk ht
  obtain rfl := Host.Outcome.next.inj ((h s₁ hk).symm.trans ht)
  exact ⟨by cases n <;> trivial, rfl⟩

theorem rtx_refused_of_closed {s : State} {i : Instr} (hs : s.blk.rtx.st ≠ .opened) (hu : unitOf i = .rtx)
    (hb : ∀ u, i ≠ .rtxBegin u) : RefusedAs .rtx 0x02000000#32 s i := by
  refine .intro fun s₁ hk => ?_
  have hs₁ : s₁.blk.rtx.st ≠ .opened := (congrArg Rtx.st hk).trans_ne hs
  obtain ⟨u, rfl⟩ | ⟨b, rfl⟩ | rfl := unitOf_eq_rtx hu
  · exact absurd rfl (hb u)
  · exact execRtxByte_of_closed b hs₁
  · exact execRtxEnd_of_closed hs₁

theorem rrx_refused_of_closed {s : State} {i : Instr} (hs : s.blk.rrx.st ≠ .opened) (hu : unitOf i = .rrx)
    (hb : ∀ u, i ≠ .rrxBegin u) : RefusedAs .rrx 0x02000000#32 s i := by
  refine .intro fun s₁ hk => ?_
  have hs₁ : s₁.blk.rrx.st ≠ .opened := (congrArg Rrx.st hk).trans_ne hs
  obtain ⟨u, rfl⟩ | ⟨b, rfl⟩ | rfl := unitOf_eq_rrx hu
  · exact absurd rfl (hb u)
  · exact execRrxByte_of_closed b hs₁
  · exact execRrxEnd_of_closed hs₁

theorem mtx_refused_of_closed {s : State} {i : Instr} (hs : s.blk.mtx.st ≠ .opened) (hu : unitOf i = .mtx)
    (hb : ∀ u d, i ≠ .mtxBegin u d) : RefusedAs .mtx 0x02000000#32 s i := by
  refine .intro fun s₁ hk => ?_
  have hs₁ : s₁.blk.mtx.st ≠ .opened := (congrArg Mtx.st hk).trans_ne hs
  obtain ⟨u, d, rfl⟩ | ⟨b, rfl⟩ | rfl := unitOf_eq_mtx hu
  · exact absurd rfl (hb u d)
  · exact execMtxByte_of_closed b hs₁
  · exact execMtxEnd_of_closed hs₁

/-- A response with result BAD_STATE: its upper half is 0x0200 (R74, R300). -/
theorem responseWord_badState (v : Half) : responseWord .badState v = 0x0200#16 ++ v :=
  congrArg (· ++ v) (by decide : (0x02#8 ++ 0x00#8 : Half) = 0x0200#16)

/-- MRX_BYTE outside HEADER and PDU is refused with MR_ST as the value (R181). -/
theorem mrx_refused_of_closed {s : State} {i : Instr} (hh : s.blk.mrx.st ≠ .header)
    (hp : s.blk.mrx.st ≠ .pdu) (hu : unitOf i = .mrx) (hb : i ≠ .mrxBegin) :
    RefusedAs .mrx (0x0200#16 ++ s.blk.mrx.st.code) s i := by
  refine .intro fun s₁ hk => ?_
  obtain rfl | ⟨b, rfl⟩ := unitOf_eq_mrx hu
  · exact absurd rfl hb
  · rw [← responseWord_badState]
    exact execMrxByte_of_closed b (congrArg Mrx.st hk) hh hp

end Sys2Proof.Machine
end

section
/-! SUPPORT. The serialisation duty as a relation of phases, and what the units are in each phase (70_reset_and_hazards R410, R415). -/

namespace Sys2Proof.Machine

/-- The unit a phase of a transaction uses is open: RTX while the request is built, RRX while the reply is received. -/
structure PhaseOpen (p : TransactionPhase) (s : State) : Prop where
  rtx : p = .building → s.blk.rtx.st = .opened
  rrx : p = .receiving → s.blk.rrx.st = .opened

/-- Commands of the RTX and RRX units move the transaction on, each in the phase it belongs to; others leave its phase. -/
theorem after_cases {p q : TransactionPhase} {i : Instr} {r : Byte} (h : p.after i r = some q) :
    (unitOf i ≠ .rtx ∧ unitOf i ≠ .rrx ∧ q = p) ∨
    (∃ u, i = .rtxBegin u ∧ q = .building) ∨
    (∃ b, i = .rtxByte b ∧ p = .building ∧ q = if r = 0x00#8 then .building else .free) ∨
    (i = .rtxEnd ∧ p = .building ∧ q = if r = 0x00#8 then .inFlight else .free) ∨
    (∃ u, i = .rrxBegin u ∧ q = .receiving) ∨
    (∃ b, i = .rrxByte b ∧ p = .receiving ∧ q = .receiving) ∨
    (i = .rrxEnd ∧ p = .receiving ∧ q = .free) := by
  unfold TransactionPhase.after at h
  split at h
  · cases h; exact .inr (.inl ⟨_, rfl, rfl⟩)
  · cases h; exact .inr (.inr (.inl ⟨_, rfl, rfl, rfl⟩))
  · cases h; exact .inr (.inr (.inr (.inl ⟨rfl, rfl, rfl⟩)))
  · cases h; exact .inr (.inr (.inr (.inr (.inl ⟨_, rfl, rfl⟩))))
  · cases h; exact .inr (.inr (.inr (.inr (.inr (.inl ⟨_, rfl, rfl, rfl⟩)))))
  · cases h; exact .inr (.inr (.inr (.inr (.inr (.inr ⟨rfl, rfl, rfl⟩)))))
  · split_ifs at h with hu
    obtain ⟨hrtx, hrrx⟩ := not_or.mp hu
    exact .inl ⟨hrtx, hrrx, (Option.some.inj h).symm⟩

/-- The state's response word is a result other than BAD_STATE. -/
def NotBadState (t : State) : Prop := ∃ w, t.resp = some w ∧ w.extractLsb' 24 8 ≠ 0x02#8

theorem NotBadState.answered {r : ResultCode} (hr : r.code ≠ 0x02#8) (s : State) (v : Half) :
    NotBadState (answered s r v) := ⟨_, rfl, by rwa [responseWord_result]⟩

/-- The result byte the duty reads from a response. -/
theorem resultByte_answered (s : State) (r : ResultCode) (v : Half) :
    resultByte ((answered s r v).resp.getD 0#32) = r.code := responseWord_result r v

/-- In OPEN, RTX_BYTE is not refused, and with OK it leaves the unit open (R121). -/
theorem execRtxByte_of_opened {s t : State} {b : Byte} (ho : s.blk.rtx.st = .opened)
    (h : execRtxByte b s = .next t) :
    NotBadState t ∧ (resultByte (t.resp.getD 0#32) = 0x00#8 → t.blk.rtx.st = .opened) := by
  obtain ⟨hn, -⟩ | ⟨-, -, rfl⟩ | ⟨-, -, rfl⟩ := execRtxByte_cases h
  · exact absurd ho hn
  · refine ⟨.answered (by decide) _ _, fun hok => ?_⟩
    rw [resultByte_answered] at hok
    exact absurd hok (by decide)
  · exact ⟨.answered (by decide) _ _, fun _ => rfl⟩

theorem execRtxEnd_of_opened {s t : State} (ho : s.blk.rtx.st = .opened) (h : execRtxEnd s = .next t) :
    NotBadState t := by
  obtain ⟨hn, -⟩ | ⟨-, -, rfl⟩ | ⟨-, -, rfl⟩ := execRtxEnd_cases h
  · exact absurd ho hn
  · exact .answered (by decide) _ _
  · exact .answered (by decide) _ _

/-- In OPEN, RRX_BYTE is not refused, and it leaves the unit open (R145). -/
theorem execRrxByte_of_opened {s t : State} {b : Byte} (ho : s.blk.rrx.st = .opened)
    (h : execRrxByte b s = .next t) : NotBadState t ∧ t.blk.rrx.st = .opened := by
  obtain ⟨hn, -⟩ | ⟨-, -, rfl⟩ | ⟨-, -, rfl⟩ := execRrxByte_cases h
  · exact absurd ho hn
  · exact ⟨.answered (by decide) _ _, ho⟩
  · exact ⟨.answered (by decide) _ _, ho⟩

/-- In OPEN, RRX_END is not refused: a refusal would leave the unit open, and RRX_END closes it. -/
theorem execRrxEnd_of_opened {s t : State} (ho : s.blk.rrx.st = .opened) (h : execRrxEnd s = .next t) :
    NotBadState t := by
  cases execRrxEnd_refused_or_answered h with
  | refused r ht => exact absurd (by rw [ht]; exact ho) (execRrxEnd_closes h)
  | other ht hr =>
    rw [ht]
    exact .answered (fun hbad => hr (.inr (.inl hbad))) _ _

/-- A command that keeps the duty leaves the next phase's unit open, and if it is of RTX or RRX it is not refused. -/
theorem PhaseOpen.after {p q : TransactionPhase} {i : Instr} {s t : State} (hp : PhaseOpen p s)
    (h : exec i s = .next t) (hq : p.after i (resultByte (t.resp.getD 0#32)) = some q) :
    PhaseOpen q t ∧ (unitOf i = .rtx ∨ unitOf i = .rrx → NotBadState t) := by
  obtain ⟨hrtx, hrrx, rfl⟩ | ⟨u, rfl, rfl⟩ | ⟨b, rfl, rfl, rfl⟩ | ⟨rfl, rfl, rfl⟩ | ⟨u, rfl, rfl⟩ |
    ⟨b, rfl, rfl, rfl⟩ | ⟨rfl, rfl, rfl⟩ := after_cases hq
  · have hkrtx : t.blk.rtx = s.blk.rtx := exec_keeps_unit (n := .rtx) h hrtx
    have hkrrx : t.blk.rrx = s.blk.rrx := exec_keeps_unit (n := .rrx) h hrrx
    exact ⟨⟨hkrtx ▸ hp.rtx, hkrrx ▸ hp.rrx⟩, fun hu => absurd hu (not_or.mpr ⟨hrtx, hrrx⟩)⟩
  · obtain rfl := execRtxBegin_next h
    exact ⟨⟨fun _ => rfl, nofun⟩, fun _ => .answered (by decide) _ _⟩
  · obtain ⟨hresp, hopen⟩ := execRtxByte_of_opened (hp.rtx rfl) h
    refine ⟨?_, fun _ => hresp⟩
    split_ifs with hok
    · exact ⟨fun _ => hopen hok, nofun⟩
    · exact ⟨nofun, nofun⟩
  · refine ⟨?_, fun _ => execRtxEnd_of_opened (hp.rtx rfl) h⟩
    split_ifs <;> exact ⟨nofun, nofun⟩
  · obtain rfl := execRrxBegin_next h
    exact ⟨⟨nofun, fun _ => rfl⟩, fun _ => .answered (by decide) _ _⟩
  · obtain ⟨hresp, hopen⟩ := execRrxByte_of_opened (hp.rrx rfl) h
    exact ⟨⟨nofun, fun _ => hopen⟩, fun _ => hresp⟩
  · exact ⟨⟨nofun, nofun⟩, fun _ => execRrxEnd_of_opened (hp.rrx rfl) h⟩

/-- A run that keeps the duty from a phase on has no RTX or RRX command refused. -/
theorem PhaseOpen.run {p : TransactionPhase} {s t : State} {l : List Instr} {log : List Exchange}
    (hp : PhaseOpen p s) (hrun : execAll l s = .next (t, log)) (hser : serialised p log = true) :
    ∀ x ∈ log, unitOf x.1 = .rtx ∨ unitOf x.1 = .rrx →
      ∃ w, x.2 = some w ∧ w.extractLsb' 24 8 ≠ 0x02#8 := by
  induction l generalizing p s log with
  | nil =>
    obtain ⟨-, rfl⟩ := Prod.mk.inj (Host.Outcome.next.inj hrun)
    nofun
  | cons i l ih =>
    obtain ⟨s', log', hs', hl, rfl⟩ := execAll_cons_next hrun
    unfold serialised at hser
    split at hser
    next q hq =>
      obtain ⟨hopen, hfirst⟩ := hp.after hs' hq
      exact List.forall_mem_cons.mpr ⟨hfirst, ih hopen hl hser⟩
    next => cases hser

end Sys2Proof.Machine
end

section
/-! The statements on reset and hazards (70_reset_and_hazards R400 to R423). -/

namespace Sys2Proof.Proofs
open Sys2Proof.Machine

/-- Settles O7: the step serves the head of the port; reset there writes the reset block, and a command that overlaps it is refused. -/
theorem resetSetsEveryElement : Obligations.ResetSetsEveryElement := by
  refine ⟨fun s rest hpending => ?_, fun s w rest hpending => ?_⟩
  · have hstep : step s = applyReset { s with pending := rest } := step_of_pending_cons hpending
    exact ⟨_, hstep, rfl, rfl, rfl⟩
  · exact step_of_pending_cons hpending

/-- Settles O21: each command that does not show the register answers two such machines alike, and so does a run of them. -/
theorem crcRegisterDoesNotLeakIntoFrames : Obligations.CrcRegisterDoesNotLeakIntoFrames :=
  fun _ _ _ _ _ _ _ hsame hl => hsame.execAll_alike (List.all_eq_true.mp hl)

/-- Settles O40: the parse recovers the ids the request was framed with, the reply is framed with them, and framing it leaves the parse as it was. -/
theorem repliesEchoTheRequestHeader : Obligations.RepliesEchoTheRequestHeader := by
  intro s u d p q hpmin hpmax hqmin hqmax
  obtain ⟨t, log, hparse, -, -, -, htid, hunit, -, -, hpdu⟩ :=
    mbapRoundTrip s u d p _ hpmin hpmax (onlyUnit_eq_self (by simp [unitOf]))
  have hreply : ∀ i ∈ .mtxBegin t.blk.mrx.unit t.blk.mrx.tid :: q.map Instr.mtxByte ++ [.mtxEnd],
      unitOf i = .mtx := by simp [unitOf, or_imp, forall_and]
  obtain ⟨v, log', hbuild, -, -, hframe⟩ :=
    mbapFrameIsBuilt t t.blk.mrx.unit t.blk.mrx.tid q _ hqmin hqmax (onlyUnit_eq_self hreply)
  obtain ⟨v', log'', hrun, hkept, -⟩ := execAll_of_onlyUnit_nil (n := .mrx) (onlyUnit_eq_nil hreply nofun) t
  obtain ⟨rfl, -⟩ := Prod.mk.inj (Host.Outcome.next.inj (hrun.symm.trans hbuild))
  refine ⟨t, log, v', log', hparse, hbuild, ?_, (congrArg Mrx.pdu hkept).trans hpdu⟩
  rw [← htid, ← hunit]
  exact hframe

/-- Settles O48: a unit's state is changed by its own commands alone, and their cases say which return it to IDLE. -/
theorem unitsReturnToIdleOnlyByAborting : Obligations.UnitsReturnToIdleOnlyByAborting :=
  fun _ _ _ h => ⟨exec_rtx_returns_idle h, exec_mtx_returns_idle h, exec_rrx_stays_not_idle h,
    exec_mrx_stays_not_idle h⟩

/-- Settles O49: each of the five commands is in the run, whatever the order, and none of the others writes what it wrote. -/
theorem beginCommandsRestoreTheBlock : Obligations.BeginCommandsRestoreTheBlock := by
  intro s u₁ u₂ u₃ d l hl
  obtain ⟨t, log, hrun⟩ := execAll_total l s
  have hcrc : t.blk.crc = Block.reset.crc := execAll_crcInit_stands hl hrun
  have hrtx : t.blk.rtx = ⟨.opened, [u₁]⟩ :=
    execAll_begin_stands (i := .rtxBegin u₁) (P := fun s => s.blk.rtx = ⟨.opened, [u₁]⟩) hl
      (by simp [beginCommands]) (fun h => by rw [execRtxBegin_next h]; rfl) Eq.trans hrun
  have hrrx : t.blk.rrx = { Rrx.reset with st := .opened, unit := u₂ } :=
    execAll_begin_stands (i := .rrxBegin u₂) (P := fun s => s.blk.rrx = { Rrx.reset with st := .opened, unit := u₂ })
      hl (by simp [beginCommands]) (fun h => by rw [execRrxBegin_next h]; rfl) Eq.trans hrun
  have hmtx : t.blk.mtx = { Mtx.reset with st := .opened, unit := u₃, tid := d } :=
    execAll_begin_stands (i := .mtxBegin u₃ d)
      (P := fun s => s.blk.mtx = { Mtx.reset with st := .opened, unit := u₃, tid := d }) hl
      (by simp [beginCommands]) (fun h => by rw [execMtxBegin_next h]; rfl) Eq.trans hrun
  have hmrx : t.blk.mrx = { Mrx.reset with st := .header } :=
    execAll_begin_stands (i := .mrxBegin) (P := fun s => s.blk.mrx = { Mrx.reset with st := .header }) hl
      (by simp [beginCommands]) (fun h => by rw [execMrxBegin_next h]; rfl) Eq.trans hrun
  exact ⟨t, log, hrun, by rw [← hcrc, ← hrtx, ← hrrx, ← hmtx, ← hmrx]⟩

/-- Settles O50: with no BEGIN in the run, each command of a closed unit is refused as the unit stands, which leaves it standing so. -/
theorem aClosedUnitRefusesUntilItsBegin : Obligations.AClosedUnitRefusesUntilItsBegin := by
  intro s t l log hrun
  refine ⟨fun hs hb => ?_, fun hs hb => ?_, fun hs hb => ?_, fun hh hp hb => ?_⟩
  · exact execAll_of_refused (n := .rtx)
      (fun i hi hu => rtx_refused_of_closed hs hu fun u he => hb u (he ▸ hi)) hrun
  · exact execAll_of_refused (n := .rrx)
      (fun i hi hu => rrx_refused_of_closed hs hu fun u he => hb u (he ▸ hi)) hrun
  · exact execAll_of_refused (n := .mtx)
      (fun i hi hu => mtx_refused_of_closed hs hu fun u d he => hb u d (he ▸ hi)) hrun
  · exact execAll_of_refused (n := .mrx)
      (fun i hi hu => mrx_refused_of_closed hh hp hu fun he => hb (he ▸ hi)) hrun

/-- Settles O51: by induction on the run, RTX is open while a request is built and RRX while a reply is received (log entry 15). -/
theorem aSerialisedHostIsNeverRefused : Obligations.ASerialisedHostIsNeverRefused :=
  fun _ _ _ _ => PhaseOpen.run ⟨nofun, nofun⟩

end Sys2Proof.Proofs
end
